-- ==== Sys2Proof/Word.lean ====
section
/-! DEFINITION. The CORE's word types (R12): a byte of SRC or DST, and the 32-bit window of the bit reader. -/

namespace Sys2Proof

/-- One byte of SRC or DST (R60, R63). -/
abbrev Byte := BitVec 8

/-- The bit reader's window, `BITBUFSIZ` = 32 bits (R8, R21); bit 31 is consumed first. -/
abbrev Window := BitVec 32

end Sys2Proof
end

