-- ==== Sys2Proof/Config.lean ====
section
/-! DEFINITION. The constants of the format (R8, R9, R10) and the values the spec leaves open: `SCRATCH_SIZE`, and what a truncated header leaves in the interface registers. -/

namespace Sys2Proof.Config

/-- Symbols of the Extra (T) alphabet (R8). -/
abbrev NT : Nat := 19
/-- Symbols of the Literal/Length (C) alphabet (R8). -/
abbrev NC : Nat := 510
/-- Symbols of the Offset (P) alphabet (R8). -/
abbrev NP : Nat := 31
/-- Direct-table width of the T and P alphabets (R8). -/
abbrev TB_PT : Nat := 8
/-- Direct-table width of the C alphabet (R8). -/
abbrev TB_C : Nat := 12
/-- Entries of `left` and of `right`, `2*NC-1` (R8, R40). -/
abbrev NODECAP : Nat := 1019
/-- The index of the T length stream after which a `TSKIP` follows (R8, R179). -/
abbrev SPECIAL_T : Nat := 3
/-- Header bytes (R8). -/
abbrev HDRLEN : Nat := 8
/-- Width of the T count and degenerate-symbol fields (R9, the spec's D1). -/
abbrev TBIT : Nat := 5
/-- Width of the C count and degenerate-symbol fields and of the long zero run (R9, D1). -/
abbrev CBIT : Nat := 9
/-- Entries of the shared length array `ptLen` (R9, D3). -/
abbrev NPT : Nat := 31
/-- Width of the block-size field (R9, D4). -/
abbrev BLOCKBITS : Nat := 16
/-- The 16-bit code space the completeness check compares with (R10). -/
abbrev FULLCODE : Nat := 65536
/-- Entries of `ptTable` (R10). -/
abbrev PT_TABLE_SIZE : Nat := 256
/-- Entries of `cTable` (R10). -/
abbrev C_TABLE_SIZE : Nat := 4096
/-- Match length of C symbol `s` is `s - 253` (R234). -/
abbrev MATCHBIAS : Nat := 253

/-- The open part of `SCRATCH_SIZE` (R9, R258, the spec's D6): uninterpreted, so no proof can see a number.
Assumption log 2. -/
opaque scratchExtra : Nat

/-- `SCRATCH_SIZE`: one positive constant of the implementation, its value open (R258). -/
def scratchSize : Nat := scratchExtra + 1

/-- A 32-bit value nothing constrains: what `compSize` or `origSize` holds after a truncated header (R257, R277).
Assumption log 5. -/
opaque freeWord : Nat → BitVec 32

/-- A natural number nothing constrains: what `scratchSize` holds after a truncated header (R257). Assumption log 5. -/
opaque freeSize : Nat → Nat

end Sys2Proof.Config
end

