-- ==== Sys2Proof/Syntax.lean ====
section
/-! DEFINITION. The stream elements of R92: one constructor per row of spec/opcode_table.json, and the grammar
positions of R91 at which they stand. -/

namespace Sys2Proof

/-- The three alphabets (R19): Extra, Literal/Length, Offset. -/
inductive Alphabet where
  | T | C | P
  deriving DecidableEq, Repr

/-- A grammar position of R91: what kind of element comes next. `ptlen` serves the T and the P description. -/
inductive Slot where
  | hdr | blksize | tcount | ptlen | tskip | ccount | citem | pcount | csym | off
  deriving DecidableEq, Repr

/-- A stream element (R90, R92), the CORE's instruction. -/
inductive Instr where
  /-- `HDR`, the 8-byte header (R93). -/
  | hdr (comp orig : BitVec 32)
  /-- `BLKSIZE n` (R213). -/
  | blksize (n : BitVec 16)
  /-- `TCNT n`, a non-zero T count (R177). -/
  | tcnt (n : BitVec 5)
  /-- `TDEG s`, a zero T count and the single T symbol (R177). -/
  | tdeg (s : BitVec 5)
  /-- `PCNT n`, a non-zero P count of `PBIT` bits, 4 or 5 (R177, R34). -/
  | pcnt (n : BitVec 5)
  /-- `PDEG s`, a zero P count and the single P symbol, `PBIT` bits each (R177, R34). -/
  | pdeg (s : BitVec 5)
  /-- `PTLEN.l`, one T or P code length (R178). -/
  | ptlen0
  | ptlen1
  | ptlen2
  | ptlen3
  | ptlen4
  | ptlen5
  | ptlen6
  | ptlen7
  | ptlen8
  | ptlen9
  | ptlen10
  | ptlen11
  | ptlen12
  | ptlen13
  | ptlen14
  | ptlen15
  | ptlen16
  /-- `TSKIP r`, a run of zero T lengths after the third entry (R179). -/
  | tskip (r : BitVec 2)
  /-- `CCNT n`, a non-zero C count (R184). -/
  | ccnt (n : BitVec 9)
  /-- `CDEG s`, a zero C count and the single C symbol (R184). -/
  | cdeg (s : BitVec 9)
  /-- `CZ1`, one zero C length (R186). -/
  | cz1
  /-- `CZS r`, a run of `r + 3` zero C lengths (R187). -/
  | czs (r : BitVec 4)
  /-- `CZL r`, a run of `r + 20` zero C lengths (R188). -/
  | czl (r : BitVec 9)
  /-- `CL.l`, one C length `l` (R189). -/
  | cl1
  | cl2
  | cl3
  | cl4
  | cl5
  | cl6
  | cl7
  | cl8
  | cl9
  | cl10
  | cl11
  | cl12
  | cl13
  | cl14
  | cl15
  | cl16
  /-- `LIT b`, a literal byte (R233). -/
  | lit (b : Byte)
  /-- `MATCH m`, a back-reference of length `m`; its `OFF.c` element follows (R234). -/
  | matchLen (m : Nat)
  /-- `OFF.0` and `OFF.1`, the offset itself (R195). -/
  | off0
  | off1
  /-- `OFF.c x`, an offset of class `c` with `c - 1` extra bits (R196). -/
  | off2 (x : BitVec 1)
  | off3 (x : BitVec 2)
  | off4 (x : BitVec 3)
  | off5 (x : BitVec 4)
  | off6 (x : BitVec 5)
  | off7 (x : BitVec 6)
  | off8 (x : BitVec 7)
  | off9 (x : BitVec 8)
  | off10 (x : BitVec 9)
  | off11 (x : BitVec 10)
  | off12 (x : BitVec 11)
  | off13 (x : BitVec 12)
  | off14 (x : BitVec 13)
  | off15 (x : BitVec 14)
  | off16 (x : BitVec 15)
  | off17 (x : BitVec 16)
  | off18 (x : BitVec 17)
  | off19 (x : BitVec 18)
  | off20 (x : BitVec 19)
  | off21 (x : BitVec 20)
  | off22 (x : BitVec 21)
  | off23 (x : BitVec 22)
  | off24 (x : BitVec 23)
  | off25 (x : BitVec 24)
  | off26 (x : BitVec 25)
  | off27 (x : BitVec 26)
  | off28 (x : BitVec 27)
  | off29 (x : BitVec 28)
  | off30 (x : BitVec 29)
  deriving DecidableEq, Repr

end Sys2Proof
end

