-- ==== Sys2Proof/WellFormed.lean ====
section
/-! DEFINITION. Which terms of `Instr` are stream elements: the constraints of the opcode table's fields. -/

namespace Sys2Proof

/-- The field constraints of R92: a count element has a non-zero count, a P field fits `PBIT` bits, a match length is
3..256. A `TDEG` or `CDEG` outside its alphabet IS an element (its effect is the fault of R283). `pBit` is `PBIT`. -/
def Instr.wellFormed (pBit : Nat) : Instr → Bool
  | .tcnt n => n != 0
  | .ccnt n => n != 0
  | .pcnt n => n != 0 && decide (n.toNat < 2 ^ pBit)
  | .pdeg s => decide (s.toNat < 2 ^ pBit)
  | .matchLen m => decide (3 ≤ m) && decide (m ≤ 256)
  | .hdr _ _ => true
  | .blksize _ => true
  | .tdeg _ => true
  | .cdeg _ => true
  | .tskip _ => true
  | .ptlen0 | .ptlen1 | .ptlen2 | .ptlen3 | .ptlen4 | .ptlen5 | .ptlen6 | .ptlen7
  | .ptlen8 | .ptlen9 | .ptlen10 | .ptlen11 | .ptlen12 | .ptlen13 | .ptlen14 | .ptlen15
  | .ptlen16 => true
  | .cz1 => true
  | .czs _ => true
  | .czl _ => true
  | .cl1 | .cl2 | .cl3 | .cl4 | .cl5 | .cl6 | .cl7 | .cl8
  | .cl9 | .cl10 | .cl11 | .cl12 | .cl13 | .cl14 | .cl15 | .cl16 => true
  | .lit _ => true
  | .off0 | .off1 => true
  | .off2 _ | .off3 _ | .off4 _ | .off5 _ | .off6 _ | .off7 _ | .off8 _ | .off9 _
  | .off10 _ | .off11 _ | .off12 _ | .off13 _ | .off14 _ | .off15 _ | .off16 _ | .off17 _
  | .off18 _ | .off19 _ | .off20 _ | .off21 _ | .off22 _ | .off23 _ | .off24 _ | .off25 _
  | .off26 _ | .off27 _ | .off28 _ | .off29 _ | .off30 _ => true

end Sys2Proof
end

