-- ==== Sys2Proof/Decode.lean ====
section
/-! DEFINITION. Decoding and encoding of the stream elements (R90 to R106): bit lists, the element at a grammar position,
the canonical codes (R99), the encoder, and the opcode table's own words.

A stream element has no meaning apart from its place: the grammar position of R91 and the tables of the current block
select it (R101). So the decoder takes a `Slot`, and for a Huffman-coded slot the symbol that a lookup gave. The machine
looks the symbol up in its tables (R159); `decode` looks it up in the canonical code (R99), which R160 says is the same. -/

namespace Sys2Proof

/-! ### Bit lists: first-consumed bit first, a field's first bit most significant (R66, R94) -/

/-- The low `n` bits of `v`, most significant first. -/
def toBits : Nat → Nat → List Bool
  | 0, _ => []
  | n + 1, v => v.testBit n :: toBits n v

/-- The value of the next `n` bits; past the end of the list the bits are 0 (R131). -/
def field : Nat → List Bool → Nat
  | 0, _ => 0
  | _ + 1, [] => 0
  | n + 1, b :: bs => (if b then 2 ^ n else 0) + field n bs

/-- How many one bits open the list (the unary extension of R178). -/
def ones : List Bool → Nat
  | true :: bs => ones bs + 1
  | _ => 0

/-! ### The elements of one format by number -/

/-- `PTLEN.l` (R178); no element spells a length above 16. -/
def ptlenInstr : Nat → Option Instr
  | 0 => some .ptlen0
  | 1 => some .ptlen1
  | 2 => some .ptlen2
  | 3 => some .ptlen3
  | 4 => some .ptlen4
  | 5 => some .ptlen5
  | 6 => some .ptlen6
  | 7 => some .ptlen7
  | 8 => some .ptlen8
  | 9 => some .ptlen9
  | 10 => some .ptlen10
  | 11 => some .ptlen11
  | 12 => some .ptlen12
  | 13 => some .ptlen13
  | 14 => some .ptlen14
  | 15 => some .ptlen15
  | 16 => some .ptlen16
  | _ => none

/-- `CL.l` (R189). -/
def clInstr : Nat → Option Instr
  | 1 => some .cl1
  | 2 => some .cl2
  | 3 => some .cl3
  | 4 => some .cl4
  | 5 => some .cl5
  | 6 => some .cl6
  | 7 => some .cl7
  | 8 => some .cl8
  | 9 => some .cl9
  | 10 => some .cl10
  | 11 => some .cl11
  | 12 => some .cl12
  | 13 => some .cl13
  | 14 => some .cl14
  | 15 => some .cl15
  | 16 => some .cl16
  | _ => none

/-- `OFF.c` with the extra bits `x` (R195, R196). -/
def offInstr (c x : Nat) : Option Instr :=
  match c with
  | 0 => some .off0
  | 1 => some .off1
  | 2 => some (.off2 (BitVec.ofNat 1 x))
  | 3 => some (.off3 (BitVec.ofNat 2 x))
  | 4 => some (.off4 (BitVec.ofNat 3 x))
  | 5 => some (.off5 (BitVec.ofNat 4 x))
  | 6 => some (.off6 (BitVec.ofNat 5 x))
  | 7 => some (.off7 (BitVec.ofNat 6 x))
  | 8 => some (.off8 (BitVec.ofNat 7 x))
  | 9 => some (.off9 (BitVec.ofNat 8 x))
  | 10 => some (.off10 (BitVec.ofNat 9 x))
  | 11 => some (.off11 (BitVec.ofNat 10 x))
  | 12 => some (.off12 (BitVec.ofNat 11 x))
  | 13 => some (.off13 (BitVec.ofNat 12 x))
  | 14 => some (.off14 (BitVec.ofNat 13 x))
  | 15 => some (.off15 (BitVec.ofNat 14 x))
  | 16 => some (.off16 (BitVec.ofNat 15 x))
  | 17 => some (.off17 (BitVec.ofNat 16 x))
  | 18 => some (.off18 (BitVec.ofNat 17 x))
  | 19 => some (.off19 (BitVec.ofNat 18 x))
  | 20 => some (.off20 (BitVec.ofNat 19 x))
  | 21 => some (.off21 (BitVec.ofNat 20 x))
  | 22 => some (.off22 (BitVec.ofNat 21 x))
  | 23 => some (.off23 (BitVec.ofNat 22 x))
  | 24 => some (.off24 (BitVec.ofNat 23 x))
  | 25 => some (.off25 (BitVec.ofNat 24 x))
  | 26 => some (.off26 (BitVec.ofNat 25 x))
  | 27 => some (.off27 (BitVec.ofNat 26 x))
  | 28 => some (.off28 (BitVec.ofNat 27 x))
  | 29 => some (.off29 (BitVec.ofNat 28 x))
  | 30 => some (.off30 (BitVec.ofNat 29 x))
  | _ => none

/-! ### An element taken apart -/

/-- The parts of an element: its grammar position, the symbol its code stands for (`none`: no code part), and its RAW
fields as (width, value) in stream order. The decoder consumes one `getBits` per field (R136). -/
structure Parts where
  slot : Slot
  sym : Option Nat
  fields : List (Nat × Nat)
  deriving DecidableEq, Repr

/-- The RAW bits of `PTLEN.l`: 3 bits below 7, else `'111'`, `l - 7` ones and a zero (R95). -/
def ptlenFields (l : Nat) : List (Nat × Nat) :=
  if l < 7 then [(3, l)] else [(l - 3, 2 ^ (l - 3) - 2)]

/-- Byte `k` of a header word, least significant byte first (R93). -/
def wordByte (w : BitVec 32) (k : Nat) : Nat := w.toNat / 2 ^ (8 * k) % 256

/-- R92's table: the parts of every element. -/
def Instr.parts (pBit : Nat) : Instr → Parts
  | .hdr c o => ⟨.hdr, none, [(8, wordByte c 0), (8, wordByte c 1), (8, wordByte c 2), (8, wordByte c 3),
      (8, wordByte o 0), (8, wordByte o 1), (8, wordByte o 2), (8, wordByte o 3)]⟩
  | .blksize n => ⟨.blksize, none, [(16, n.toNat)]⟩
  | .tcnt n => ⟨.tcount, none, [(5, n.toNat)]⟩
  | .tdeg s => ⟨.tcount, none, [(5, 0), (5, s.toNat)]⟩
  | .pcnt n => ⟨.pcount, none, [(pBit, n.toNat)]⟩
  | .pdeg s => ⟨.pcount, none, [(pBit, 0), (pBit, s.toNat)]⟩
  | .ptlen0 => ⟨.ptlen, none, ptlenFields 0⟩
  | .ptlen1 => ⟨.ptlen, none, ptlenFields 1⟩
  | .ptlen2 => ⟨.ptlen, none, ptlenFields 2⟩
  | .ptlen3 => ⟨.ptlen, none, ptlenFields 3⟩
  | .ptlen4 => ⟨.ptlen, none, ptlenFields 4⟩
  | .ptlen5 => ⟨.ptlen, none, ptlenFields 5⟩
  | .ptlen6 => ⟨.ptlen, none, ptlenFields 6⟩
  | .ptlen7 => ⟨.ptlen, none, ptlenFields 7⟩
  | .ptlen8 => ⟨.ptlen, none, ptlenFields 8⟩
  | .ptlen9 => ⟨.ptlen, none, ptlenFields 9⟩
  | .ptlen10 => ⟨.ptlen, none, ptlenFields 10⟩
  | .ptlen11 => ⟨.ptlen, none, ptlenFields 11⟩
  | .ptlen12 => ⟨.ptlen, none, ptlenFields 12⟩
  | .ptlen13 => ⟨.ptlen, none, ptlenFields 13⟩
  | .ptlen14 => ⟨.ptlen, none, ptlenFields 14⟩
  | .ptlen15 => ⟨.ptlen, none, ptlenFields 15⟩
  | .ptlen16 => ⟨.ptlen, none, ptlenFields 16⟩
  | .tskip r => ⟨.tskip, none, [(2, r.toNat)]⟩
  | .ccnt n => ⟨.ccount, none, [(9, n.toNat)]⟩
  | .cdeg s => ⟨.ccount, none, [(9, 0), (9, s.toNat)]⟩
  | .cz1 => ⟨.citem, some 0, []⟩
  | .czs r => ⟨.citem, some 1, [(4, r.toNat)]⟩
  | .czl r => ⟨.citem, some 2, [(9, r.toNat)]⟩
  | .cl1 => ⟨.citem, some 3, []⟩
  | .cl2 => ⟨.citem, some 4, []⟩
  | .cl3 => ⟨.citem, some 5, []⟩
  | .cl4 => ⟨.citem, some 6, []⟩
  | .cl5 => ⟨.citem, some 7, []⟩
  | .cl6 => ⟨.citem, some 8, []⟩
  | .cl7 => ⟨.citem, some 9, []⟩
  | .cl8 => ⟨.citem, some 10, []⟩
  | .cl9 => ⟨.citem, some 11, []⟩
  | .cl10 => ⟨.citem, some 12, []⟩
  | .cl11 => ⟨.citem, some 13, []⟩
  | .cl12 => ⟨.citem, some 14, []⟩
  | .cl13 => ⟨.citem, some 15, []⟩
  | .cl14 => ⟨.citem, some 16, []⟩
  | .cl15 => ⟨.citem, some 17, []⟩
  | .cl16 => ⟨.citem, some 18, []⟩
  | .lit b => ⟨.csym, some b.toNat, []⟩
  | .matchLen m => ⟨.csym, some (m + 253), []⟩
  | .off0 => ⟨.off, some 0, []⟩
  | .off1 => ⟨.off, some 1, []⟩
  | .off2 x => ⟨.off, some 2, [(1, x.toNat)]⟩
  | .off3 x => ⟨.off, some 3, [(2, x.toNat)]⟩
  | .off4 x => ⟨.off, some 4, [(3, x.toNat)]⟩
  | .off5 x => ⟨.off, some 5, [(4, x.toNat)]⟩
  | .off6 x => ⟨.off, some 6, [(5, x.toNat)]⟩
  | .off7 x => ⟨.off, some 7, [(6, x.toNat)]⟩
  | .off8 x => ⟨.off, some 8, [(7, x.toNat)]⟩
  | .off9 x => ⟨.off, some 9, [(8, x.toNat)]⟩
  | .off10 x => ⟨.off, some 10, [(9, x.toNat)]⟩
  | .off11 x => ⟨.off, some 11, [(10, x.toNat)]⟩
  | .off12 x => ⟨.off, some 12, [(11, x.toNat)]⟩
  | .off13 x => ⟨.off, some 13, [(12, x.toNat)]⟩
  | .off14 x => ⟨.off, some 14, [(13, x.toNat)]⟩
  | .off15 x => ⟨.off, some 15, [(14, x.toNat)]⟩
  | .off16 x => ⟨.off, some 16, [(15, x.toNat)]⟩
  | .off17 x => ⟨.off, some 17, [(16, x.toNat)]⟩
  | .off18 x => ⟨.off, some 18, [(17, x.toNat)]⟩
  | .off19 x => ⟨.off, some 19, [(18, x.toNat)]⟩
  | .off20 x => ⟨.off, some 20, [(19, x.toNat)]⟩
  | .off21 x => ⟨.off, some 21, [(20, x.toNat)]⟩
  | .off22 x => ⟨.off, some 22, [(21, x.toNat)]⟩
  | .off23 x => ⟨.off, some 23, [(22, x.toNat)]⟩
  | .off24 x => ⟨.off, some 24, [(23, x.toNat)]⟩
  | .off25 x => ⟨.off, some 25, [(24, x.toNat)]⟩
  | .off26 x => ⟨.off, some 26, [(25, x.toNat)]⟩
  | .off27 x => ⟨.off, some 27, [(26, x.toNat)]⟩
  | .off28 x => ⟨.off, some 28, [(27, x.toNat)]⟩
  | .off29 x => ⟨.off, some 29, [(28, x.toNat)]⟩
  | .off30 x => ⟨.off, some 30, [(29, x.toNat)]⟩

/-- The grammar position of an element (R91); it does not depend on `PBIT`. -/
def Instr.slot (i : Instr) : Slot := (i.parts 4).slot

/-- The RAW bits of an element: all of it, or the operand that follows its code. -/
def Instr.rawBits (pBit : Nat) (i : Instr) : List Bool :=
  (i.parts pBit).fields.flatMap fun f => toBits f.1 f.2

/-! ### Decoding one element -/

/-- Why a bit list is no element at a position. -/
inductive Reject where
  /-- A `PTLEN` that spells a length above 16 (R178): the CORE takes `BadTable`. -/
  | lengthAbove16
  /-- The number is no symbol of the position's alphabet. -/
  | notASymbol
  /-- No code of the table opens the bit list. -/
  | noCode
  /-- No element stands at this position. -/
  | noElement
  deriving DecidableEq, Repr

/-- The length a `PTLEN` spells (R95, R178). -/
def lengthField (b : List Bool) : Nat :=
  if field 3 b = 7 then 7 + ones (b.drop 3) else field 3 b

/-- Four bytes, least significant first (R33). -/
def leWord (b : List Bool) : BitVec 32 :=
  BitVec.ofNat 32 (field 8 b + 2 ^ 8 * field 8 (b.drop 8) + 2 ^ 16 * field 8 (b.drop 16) + 2 ^ 24 * field 8 (b.drop 24))

/-- An element without a code part, read from the bits at the cursor (R93, R94, R95). -/
def decodeRaw (pBit : Nat) (sl : Slot) (b : List Bool) : Except Reject Instr :=
  match sl with
  | .hdr => .ok (.hdr (leWord b) (leWord (b.drop 32)))
  | .blksize => .ok (.blksize (BitVec.ofNat 16 (field 16 b)))
  | .tcount =>
    if field 5 b = 0 then .ok (.tdeg (BitVec.ofNat 5 (field 5 (b.drop 5))))
    else .ok (.tcnt (BitVec.ofNat 5 (field 5 b)))
  | .pcount =>
    if field pBit b = 0 then .ok (.pdeg (BitVec.ofNat 5 (field pBit (b.drop pBit))))
    else .ok (.pcnt (BitVec.ofNat 5 (field pBit b)))
  | .ccount =>
    if field 9 b = 0 then .ok (.cdeg (BitVec.ofNat 9 (field 9 (b.drop 9))))
    else .ok (.ccnt (BitVec.ofNat 9 (field 9 b)))
  | .ptlen =>
    match ptlenInstr (lengthField b) with
    | some i => .ok i
    | none => .error .lengthAbove16
  | .tskip => .ok (.tskip (BitVec.ofNat 2 (field 2 b)))
  | .citem => .error .noElement
  | .csym => .error .noElement
  | .off => .error .noElement

/-- An element with a code part, from its symbol and the bits after the code (R96, R97, R98). -/
def decodeCoded (sl : Slot) (sym : Nat) (b : List Bool) : Except Reject Instr :=
  match sl with
  | .citem =>
    if sym = 0 then .ok .cz1
    else if sym = 1 then .ok (.czs (BitVec.ofNat 4 (field 4 b)))
    else if sym = 2 then .ok (.czl (BitVec.ofNat 9 (field 9 b)))
    else match clInstr (sym - 2) with
      | some i => .ok i
      | none => .error .notASymbol
  | .csym =>
    if sym < 256 then .ok (.lit (BitVec.ofNat 8 sym))
    else if sym < 510 then .ok (.matchLen (sym - 253))
    else .error .notASymbol
  | .off =>
    match offInstr sym (field (sym - 1) b) with
    | some i => .ok i
    | none => .error .notASymbol
  | .hdr => .error .noElement
  | .blksize => .error .noElement
  | .tcount => .error .noElement
  | .pcount => .error .noElement
  | .ccount => .error .noElement
  | .ptlen => .error .noElement
  | .tskip => .error .noElement

/-- The alphabet whose code opens the elements of a position; `none`: RAW or HDR. -/
def Slot.alphabet : Slot → Option Alphabet
  | .citem => some .T
  | .csym => some .C
  | .off => some .P
  | .hdr => none
  | .blksize => none
  | .tcount => none
  | .pcount => none
  | .ccount => none
  | .ptlen => none
  | .tskip => none

/-! ### Canonical codes (R99) -/

/-- `start[l+1]` of R99 over a list of code lengths: the summed widths `2^(16-k)` of the codes of lengths 1..l.
`cumulative lens 16` is the completeness sum `start[17]` of R152. -/
def cumulative (lens : List Nat) : Nat → Nat
  | 0 => 0
  | l + 1 => cumulative lens l + lens.count (l + 1) * 2 ^ (16 - (l + 1))

/-- `code16(s)`, the 16-bit left-aligned code of a symbol of length `l ≥ 1` (R99). -/
def code16 (lens : List Nat) (s : Nat) : Nat :=
  let l := lens.getD s 0
  cumulative lens (l - 1) + (lens.take s).count l * 2 ^ (16 - l)

/-- The code of a symbol: the top `l` bits of `code16` (R99). -/
def codeValue (lens : List Nat) (s : Nat) : Nat := code16 lens s / 2 ^ (16 - lens.getD s 0)

/-- How one block codes one alphabet: one symbol with no bits (R161), or canonical codes (R99). -/
inductive Book where
  | degenerate (sym : Nat)
  | canonical (lens : List Nat)
  deriving DecidableEq, Repr

/-- The code of a symbol as bits. -/
def Book.codeBits (bk : Book) (s : Nat) : List Bool :=
  match bk with
  | .degenerate _ => []
  | .canonical lens => toBits (lens.getD s 0) (codeValue lens s)

/-- The symbol whose code opens the bit list, and the code's length (R160). -/
def Book.lookup (bk : Book) (b : List Bool) : Option (Nat × Nat) :=
  match bk with
  | .degenerate s => some (s, 0)
  | .canonical lens =>
    ((List.range lens.length).find? fun s =>
      lens.getD s 0 != 0 && field (lens.getD s 0) b == codeValue lens s).map fun s => (s, lens.getD s 0)

/-- The books of the current block, one an alphabet. -/
structure Books where
  t : Book
  c : Book
  p : Book
  deriving DecidableEq, Repr

/-- The book of an alphabet. -/
def Books.get (bk : Books) : Alphabet → Book
  | .T => bk.t
  | .C => bk.c
  | .P => bk.p

/-- Decode the element at a position: the element and the bits after it, or the reason it is none. -/
def decode (bk : Books) (pBit : Nat) (sl : Slot) (b : List Bool) : Except Reject (Instr × List Bool) :=
  match sl.alphabet with
  | none =>
    match decodeRaw pBit sl b with
    | .ok i => .ok (i, b.drop (i.rawBits pBit).length)
    | .error e => .error e
  | some a =>
    match (bk.get a).lookup b with
    | none => .error .noCode
    | some (s, l) =>
      match decodeCoded sl s (b.drop l) with
      | .ok i => .ok (i, b.drop (l + (i.rawBits pBit).length))
      | .error e => .error e

/-- The code part of an element, empty for a RAW or HDR element. -/
def Instr.codeBits (bk : Books) (i : Instr) : List Bool :=
  match i.slot.alphabet, (i.parts 4).sym with
  | some a, some s => (bk.get a).codeBits s
  | _, _ => []

/-- The bits of an element (R92): its code, then its RAW fields. -/
def encode (bk : Books) (pBit : Nat) (i : Instr) : List Bool := i.codeBits bk ++ i.rawBits pBit

/-! ### The opcode table's own words -/

/-- The element for the number a TSYM, CSYM or PSYM row matches on (R106), its operand bits zero. -/
def symbolWord (sl : Slot) (w : Nat) : Option Instr := (decodeCoded sl w []).toOption

/-- The decoder on a word numbered as the opcode table numbers it (R106). The table's coded rows give the symbol value,
not stream bits, and give it without the grammar position that tells a T symbol from a P class: where one number is a
row of both formats this answers the T element (assumption log 12). 64 bits are the header, first byte in bits 7..0. -/
def decodeTableWord (nbits w : Nat) : Option Instr :=
  match nbits with
  | 8 =>
    if w = 254 then (decodeRaw 4 .ptlen (toBits 8 w)).toOption
    else if w < 8 then symbolWord .citem w
    else symbolWord .off w
  | 16 => if 8 ≤ w ∧ w < 16 then symbolWord .citem w else symbolWord .csym w
  | 24 => if w < 19 then symbolWord .citem w else symbolWord .off w
  | 32 => symbolWord .off w
  | 64 => (decodeRaw 4 .hdr ((List.range 8).flatMap fun k => toBits 8 (w / 2 ^ (8 * k)))).toOption
  | _ => none

end Sys2Proof
end

