-- ==== Sys2Proof/Machine/State.lean ====
section
/-! DEFINITION. Everything the spec gives the CORE as state (10_state.md), as plain data, the reasons a step can stop, and
the state after reset. Counters that the spec says never wrap are natural numbers (N6, the spec's D5); their widths are
the invariant of Safety.lean. -/

namespace Sys2Proof.Machine

/-- A byte memory: the bytes that are not 0, by strictly rising index; every other index of the memory holds 0.
Every array of bytes has exactly one such list (assumption log 3). -/
abbrev Memory := List Host.Cell

/-- A table array of fixed length (R36 to R40). -/
abbrev Tab (n : Nat) := Vector Nat n

/-- The host commands (R255). -/
inductive Command where
  | sizeQuery
  | decompress
  deriving DecidableEq, Repr

/-- The causes of `InvalidParameter` (R276). -/
inductive Cause where
  | truncatedHeader
  | corruptTable
  deriving DecidableEq, Repr

/-- The `status` register (R35). -/
inductive Status where
  | success
  | invalidParameter (cause : Cause)
  deriving DecidableEq, Repr

/-- The block decoder's states (R28, R215). -/
inductive Fsm where
  | needNewBlock
  | readExtraLengths
  | buildExtraTable
  | readLiteralLengths
  | buildLiteralTable
  | readOffsetLengths
  | buildOffsetTable
  | decodingBlock
  | failed
  deriving DecidableEq, Repr

/-- Where the CORE stands in a host command: idle between commands (R297), about to read `HDR`, or decoding. -/
inductive Run where
  | idle
  | header (c : Command)
  | decode
  deriving DecidableEq, Repr

/-- The model's own field: the local variables of the pseudocode that live across stream elements.
`entries`: `number` and `idx` of R176 and R183; `skip`: `number`, with `idx = 3` and a `TSKIP` next (R179);
`offset`: `m` of R231, with an `OFF.c` next; `filled`: the alphabet of the Build state is uniformly filled (R215);
`start`: none of them (assumption log 1). -/
inductive Point where
  | start
  | entries (number idx : Nat)
  | skip (number : Nat)
  | offset (m : Nat)
  | filled
  deriving DecidableEq, Repr

/-- What the host provided with a command (R259, R263, R314): the size of DST, and whether each promise the CORE cannot
check holds (R285). Which host action makes which promise is the model's choice (DESIGN CHOICE, assumption log 7). -/
structure Grant where
  /-- bytes of DST -/
  dstLen : Nat
  /-- SCRATCH has `SCRATCH_SIZE` bytes -/
  scratchOk : Bool
  /-- SRC is plain memory (R70) -/
  srcPlain : Bool
  /-- DST is plain memory (R70) -/
  dstPlain : Bool
  /-- SRC, DST and SCRATCH do not overlap (R75, R314) -/
  disjoint : Bool
  /-- nobody else touches them during the command (R326) -/
  exclusive : Bool
  deriving DecidableEq, Repr

/-- The CORE. -/
structure State where
  /-- R21, 32 bits: the next 32 bits of the padded stream -/
  bitBuf : Window
  /-- R22, 8 bits: the last byte taken -/
  subBitBuf : Byte
  /-- R23, 4 bits: low bits of `subBitBuf` not yet in the window -/
  bitCount : Nat
  /-- R24, 32 bits: payload index of the next byte -/
  inPos : Nat
  /-- R25, 32 bits: payload bytes not yet fetched -/
  compRemaining : Nat
  /-- R26, 16 bits, wraps (R214): C symbols left in the block -/
  blockCount : BitVec 16
  /-- R27, 32 bits: destination index of the next byte -/
  outPos : Nat
  /-- R28 -/
  fsm : Fsm
  /-- R29, 1 bit, latched -/
  badTable : Bool
  /-- R32, unbounded, the host's -/
  srcLen : Nat
  /-- R33, 32 bits, header bytes 0..3 -/
  compSize : BitVec 32
  /-- R33, 32 bits, header bytes 4..7 -/
  origSize : BitVec 32
  /-- R31, unbounded -/
  scratchSize : Nat
  /-- R34, 3 bits, hardwired: no operation writes it -/
  pBit : BitVec 3
  /-- R35 -/
  status : Status
  /-- R36: T and P code lengths -/
  ptLen : Tab Config.NPT
  /-- R37: C code lengths -/
  cLen : Tab Config.NC
  /-- R38: T and P direct table -/
  ptTable : Tab Config.PT_TABLE_SIZE
  /-- R39: C direct table -/
  cTable : Tab Config.C_TABLE_SIZE
  /-- R40: children for bit 0 -/
  left : Tab Config.NODECAP
  /-- R40: children for bit 1 -/
  right : Tab Config.NODECAP
  /-- R44, R60: the compressed buffer, `srcLen` bytes -/
  src : Memory
  /-- R44, R63: the destination buffer, `grant.dstLen` bytes -/
  dst : Memory
  /-- the command under way -/
  run : Run
  /-- the model's own field -/
  point : Point
  /-- the host's promises -/
  grant : Grant
  /-- the model's own field: how many free values have been used (assumption log 5) -/
  freeCount : Nat
  deriving DecidableEq, Repr

/-- Why the machine stops with no status and no final state (R15, R283 to R286). -/
inductive Fault where
  /-- R283, raised by `TDEG`, `CDEG` and `PDEG` whose symbol is outside the alphabet. Safe: the spec says stop. -/
  | degenerateSymbolOutOfRange
  /-- R284, raised by `OFF.c` when the copy source lies before DST[0]. Safe: the spec says stop. -/
  | backRefBeforeStart
  /-- Raised where the next access could leave SRC or DST. Safe: R62 and R64 say no run gets there. -/
  | accessOutOfBounds
  /-- Raised where a table walk leaves the window or the arrays. Safe: R159 and R160 say no run gets there. -/
  | lookupOverrun
  deriving DecidableEq, Repr

/-- Why an input has no meaning (R285). -/
inductive Refusal where
  /-- Raised by `exec` for an instruction that has no meaning yet. Safe. -/
  | notModelled (mnemonic : String)
  /-- Raised by a meaning whose element does not stand at the present grammar position (R91). Safe: no fetch gives one. -/
  | outOfPlace
  /-- Raised by a meaning whose term is no stream element (WellFormed.lean). Safe: no fetch gives one. -/
  | illFormed
  /-- Raised by `HDR` for a DECOMPRESS whose DST has not exactly `origSize` bytes (R259, R285). Safe. -/
  | dstSizeMismatch
  /-- Raised by `HDR` for a DECOMPRESS whose SCRATCH is too small (R285). Safe. -/
  | scratchTooSmall
  /-- Raised by `HDR` when a buffer is not plain memory (R70, R285). Safe. -/
  | notPlainMemory
  /-- Raised by `HDR` for a DECOMPRESS whose buffers overlap (R75, R285). Safe. -/
  | buffersOverlap
  /-- Raised by `HDR` for a command whose buffers another agent touches (R285, R326). Safe. -/
  | buffersShared
  deriving DecidableEq, Repr

/-- The outcome of a meaning. -/
abbrev Result := Host.Outcome State Fault Refusal

/-- The state after reset: R48's values with nothing loaded, and before any command. R312 gives no power-on values, so the
values here of registers that R48 does not name are the model's (assumption log 4); `scratchSize` is R31's. No SCRATCH has
been provided; the empty SRC and DST are plain, apart from each other and nobody else's (DESIGN CHOICE, assumption log 7). -/
def State.reset : State where
  bitBuf := 0
  subBitBuf := 0
  bitCount := 0
  inPos := 0
  compRemaining := 0
  blockCount := 0
  outPos := 0
  fsm := .needNewBlock
  badTable := false
  srcLen := 0
  compSize := 0
  origSize := 0
  scratchSize := Config.scratchSize
  pBit := 4
  status := .invalidParameter .truncatedHeader
  ptLen := Vector.replicate _ 0
  cLen := Vector.replicate _ 0
  ptTable := Vector.replicate _ 0
  cTable := Vector.replicate _ 0
  left := Vector.replicate _ 0
  right := Vector.replicate _ 0
  src := []
  dst := []
  run := .idle
  point := .start
  grant := ⟨0, false, true, true, true, true⟩
  freeCount := 0

end Sys2Proof.Machine
end

