-- ==== Sys2Proof/Machine/Memory.lean ====
section
/-! DEFINITION. The memories and the table arrays: one read and one write of each (R14, R65, R68, R70). -/

namespace Sys2Proof.Machine

/-- The byte at an index: the listed one, else 0. -/
def Memory.read (m : Memory) (a : Nat) : Byte :=
  match m with
  | [] => 0
  | (i, b) :: rest => if a < i then 0 else if a = i then b else Memory.read rest a

/-- The memory with one byte stored; storing 0 lists nothing. -/
def Memory.write (m : Memory) (a : Nat) (v : Byte) : Memory :=
  match m with
  | [] => if v = 0 then [] else [(a, v)]
  | (i, b) :: rest =>
    if a < i then (if v = 0 then (i, b) :: rest else (a, v) :: (i, b) :: rest)
    else if a = i then (if v = 0 then rest else (a, v) :: rest)
    else (i, b) :: Memory.write rest a v

/-- Every listed index is at least `lo`, indices strictly rise, and no listed byte is 0. -/
def Memory.wfFrom (lo : Nat) : Memory → Bool
  | [] => true
  | (i, b) :: rest => decide (lo ≤ i) && b != 0 && Memory.wfFrom (i + 1) rest

/-- The canonical form: equal contents are equal data. -/
def Memory.wf (m : Memory) : Bool := Memory.wfFrom 0 m

/-- The memory that holds a list of bytes from an index on. -/
def Memory.ofBytes (at0 : Nat) : List Byte → Memory
  | [] => []
  | b :: bs => if b = 0 then Memory.ofBytes (at0 + 1) bs else (at0, b) :: Memory.ofBytes (at0 + 1) bs

/-- `arr[i]`; no rule reads past the end (R65). -/
def Tab.read {n : Nat} (t : Tab n) (i : Nat) : Nat := t[i]?.getD 0

/-- `arr[i] <- v`; no rule writes past the end (R65). -/
def Tab.write {n : Nat} (t : Tab n) (i v : Nat) : Tab n := Vector.setIfInBounds t i v

/-- A list with `k` cells from cell `a` on set to `v`. -/
def fillList (v : Nat) : Nat → Nat → List Nat → List Nat
  | _, _, [] => []
  | 0, 0, x :: xs => x :: xs
  | 0, k + 1, _ :: xs => v :: fillList v 0 k xs
  | a + 1, k, x :: xs => x :: fillList v a k xs

/-- Filling keeps the length. -/
theorem length_fillList (v a k : Nat) (l : List Nat) : (fillList v a k l).length = l.length := by
  induction l generalizing a k with
  | nil => cases a <;> cases k <;> rfl
  | cons x xs ih => cases a <;> cases k <;> simp [fillList, ih]

/-- `for i in a .. a+k-1: arr[i] <- v`, cut at the end of the array. -/
def Tab.fill {n : Nat} (t : Tab n) (a k v : Nat) : Tab n :=
  ⟨(fillList v a k t.toList).toArray, by simp [length_fillList]⟩

end Sys2Proof.Machine
end

