-- ==== Sys2Proof/Machine/Reader.lean ====
section
/-! DEFINITION. The BitReader (40_bitreader.md): `fillBits`, `peekBits`, `getBits`. It raises nothing (R130). -/

namespace Sys2Proof.Machine

/-- One pass of the loop of R132: move the look-ahead bits in below the gap of `k`, then take the next byte, or a zero byte
once the payload is exhausted (R134). `compRemaining > 0` guards the only SRC read (R62, R324). -/
def State.refill (s : State) (k : Nat) : State :=
  let moved := s.bitBuf ||| ((BitVec.ofNat 32 (s.subBitBuf.toNat % 2 ^ s.bitCount)) <<< k)
  if 0 < s.compRemaining then
    { s with bitBuf := moved, compRemaining := s.compRemaining - 1,
             subBitBuf := s.src.read (Config.HDRLEN + s.inPos), inPos := s.inPos + 1, bitCount := 8 }
  else
    { s with bitBuf := moved, subBitBuf := 0, bitCount := 8 }

/-- The loop of R132 with `k` window bits still to refill; it runs at most `fuel` times. -/
def State.refillLoop (s : State) (k : Nat) : Nat → State × Nat
  | 0 => (s, k)
  | fuel + 1 =>
    if s.bitCount < k then (s.refill (k - s.bitCount)).refillLoop (k - s.bitCount) fuel else (s, k)

/-- `fillBits(n)` (R132): consume `n` bits and refill. The loop runs at most five times. -/
def State.fillBits (s : State) (n : Nat) : State :=
  let r := ({ s with bitBuf := s.bitBuf <<< n }).refillLoop n 5
  let count := r.1.bitCount - r.2
  { r.1 with bitCount := count,
             bitBuf := r.1.bitBuf ||| (BitVec.ofNat 32 (r.1.subBitBuf.toNat >>> count)) }

/-- `peekBits(n)` (R135): the top `n` bits of the window. -/
def State.peekBits (s : State) (n : Nat) : Nat := (s.bitBuf >>> (32 - n)).toNat

/-- `getBits(n)` (R136): peek, then consume. -/
def State.getBits (s : State) (n : Nat) : Nat × State := (s.peekBits n, s.fillBits n)

/-- The window as bits, first to be consumed first. -/
def windowBits (w : Window) : List Bool := toBits 32 w.toNat

/-- Consume the fields of one element, one `fillBits` a field. -/
def State.consume (s : State) (widths : List Nat) : State := widths.foldl State.fillBits s

end Sys2Proof.Machine
end

