-- ==== Sys2Proof/Machine/Tables.lean ====
section
/-! DEFINITION. The HuffmanTableBuilder and the lookup (41_huffman_table.md): `makeTable`, the walk of `decodeSym`,
`fillUniform`. -/

namespace Sys2Proof.Machine

/-- A storage location of a build (R151): a direct-table entry, or a child of a node. -/
inductive Cell where
  | direct (i : Nat)
  | left (id : Nat)
  | right (id : Nat)
  deriving DecidableEq, Repr

/-- The storage a build writes and its working values (R43): `next[l]` and the next free node id. -/
structure Builder (n : Nat) where
  table : Tab n
  left : Tab Config.NODECAP
  right : Tab Config.NODECAP
  next : Tab 17
  avail : Nat
  deriving DecidableEq, Repr

/-- `read(slot)` of R151. -/
def Builder.read {n : Nat} (b : Builder n) : Cell → Nat
  | .direct i => b.table.read i
  | .left id => b.left.read id
  | .right id => b.right.read id

/-- `write(slot, v)` of R151. -/
def Builder.write {n : Nat} (b : Builder n) (c : Cell) (v : Nat) : Builder n :=
  match c with
  | .direct i => { b with table := b.table.write i v }
  | .left id => { b with left := b.left.write id v }
  | .right id => { b with right := b.right.write id v }

/-- A new node in an Empty slot: both children Empty, its id in the slot (R156, R325). -/
def Builder.allocate {n : Nat} (b : Builder n) (c : Cell) : Builder n :=
  { ({ b with left := b.left.write b.avail 0, right := b.right.write b.avail 0 }).write c b.avail with
    avail := b.avail + 1 }

/-- Step (5) of R151: the levels of a long code, `levels` still to go from level `j`; the last slot gets the symbol.
A 1 bit goes right (R156). -/
def Builder.descend {n : Nat} (tb c s : Nat) : Nat → Nat → Cell → Builder n → Builder n
  | 0, _, slot, b => b.write slot s
  | levels + 1, j, slot, b =>
    let b' := if b.read slot = 0 then b.allocate slot else b
    let id := b'.read slot
    Builder.descend tb c s levels (j + 1) (if c.testBit (15 - tb - j) then .right id else .left id) b'

/-- Steps (4) and (5) of R151 for symbol `s` of length `l`; a symbol of length 0 is skipped (R158). -/
def Builder.plant {n : Nat} (tb s l : Nat) (b : Builder n) : Builder n :=
  if l = 0 then b
  else
    let c := b.next.read l
    let b' := { b with next := b.next.write l (c + 2 ^ (16 - l)) }
    let lo := c / 2 ^ (16 - tb)
    if l ≤ tb then
      { b' with table := b'.table.fill lo ((c + 2 ^ (16 - l)) / 2 ^ (16 - tb) - lo) s }
    else Builder.descend tb c s (l - tb) 0 (.direct lo) b'

/-- The symbol loop of R151: symbols `s`, `s+1`, ... with the given lengths. -/
def Builder.plantAll {n : Nat} (tb : Nat) : List Nat → Nat → Builder n → Builder n
  | [], _, b => b
  | l :: ls, s, b => Builder.plantAll tb ls (s + 1) (b.plant tb s l)

/-- `next[l] <- start[l]` for l in 1..16 (R151). -/
def startCodes (lens : List Nat) : Tab 17 :=
  ⟨((List.range 17).map fun l => cumulative lens (l - 1)).toArray, by simp⟩

/-- Step (3b) of R151 (R157): the direct-table entries above the last short code become Empty. -/
def clearHigh {n : Nat} (lens : List Nat) (tb : Nat) (table : Tab n) : Tab n :=
  if cumulative lens tb < Config.FULLCODE then
    table.fill (cumulative lens tb / 2 ^ (16 - tb)) (2 ^ tb - cumulative lens tb / 2 ^ (16 - tb)) 0
  else table

/-- `makeTable` (R150, R151) over the list of the alphabet's lengths; `none` is `BadTable`, raised before anything is
written (R152, R153). -/
def makeTable {n : Nat} (lens : List Nat) (tb : Nat) (table : Tab n) (left right : Tab Config.NODECAP) :
    Option (Builder n) :=
  if lens.any (fun l => decide (16 < l)) then none
  else if cumulative lens 16 ≠ Config.FULLCODE then none
  else some (Builder.plantAll tb lens 0
    { table := clearHigh lens tb table, left := left, right := right, next := startCodes lens, avail := lens.length })

/-- The walk of R159 from entry `v`, with window bits `fuel - 1` downward still unread: the symbol, or none where the walk
would leave the window or the node arrays. -/
def walk (nn : Nat) (left right : Tab Config.NODECAP) (w : Window) : Nat → Nat → Option Nat
  | 0, v => if v < nn then some v else none
  | i + 1, v =>
    if v < nn then some v
    else if v < Config.NODECAP then walk nn left right w i (if w.getLsbD i then right.read v else left.read v)
    else none

/-- The symbol of R159: index the direct table by the top `tb` window bits, then walk. -/
def lookup {n : Nat} (nn tb : Nat) (table : Tab n) (left right : Tab Config.NODECAP) (w : Window) : Option Nat :=
  walk nn left right w (32 - tb) (table.read (w >>> (32 - tb)).toNat)

/-! ### The three alphabets' storage (R42): T and P share `ptLen` and `ptTable`, all share the tree. -/

/-- The number of symbols of an alphabet (R8). -/
def alphabetSize : Alphabet → Nat
  | .T => Config.NT
  | .C => Config.NC
  | .P => Config.NP

/-- `len[s]` of an alphabet. -/
def State.codeLength (s : State) (a : Alphabet) (sym : Nat) : Nat :=
  match a with
  | .T => s.ptLen.read sym
  | .C => s.cLen.read sym
  | .P => s.ptLen.read sym

/-- `len[0..nn-1]` of an alphabet. -/
def State.lengths (s : State) (a : Alphabet) : List Nat :=
  match a with
  | .T => s.ptLen.toList.take Config.NT
  | .C => s.cLen.toList
  | .P => s.ptLen.toList

/-- The symbol the window's code stands for in an alphabet's structure (R159). -/
def State.lookupSym (s : State) (a : Alphabet) : Option Nat :=
  match a with
  | .T => lookup Config.NT Config.TB_PT s.ptTable s.left s.right s.bitBuf
  | .C => lookup Config.NC Config.TB_C s.cTable s.left s.right s.bitBuf
  | .P => lookup Config.NP Config.TB_PT s.ptTable s.left s.right s.bitBuf

/-- `makeTable(nn, len, tb, table)` on an alphabet's storage (R150); `none` is `BadTable` and leaves the state as it was. -/
def State.build (s : State) (a : Alphabet) : Option State :=
  match a with
  | .T => (makeTable (s.lengths .T) Config.TB_PT s.ptTable s.left s.right).map fun b =>
      { s with ptTable := b.table, left := b.left, right := b.right }
  | .C => (makeTable (s.lengths .C) Config.TB_C s.cTable s.left s.right).map fun b =>
      { s with cTable := b.table, left := b.left, right := b.right }
  | .P => (makeTable (s.lengths .P) Config.TB_PT s.ptTable s.left s.right).map fun b =>
      { s with ptTable := b.table, left := b.left, right := b.right }

/-- `fillUniform(nn, len, table, c)` on an alphabet's storage (R161). -/
def State.fillUniform (s : State) (a : Alphabet) (c : Nat) : State :=
  match a with
  | .T => { s with ptTable := s.ptTable.fill 0 Config.PT_TABLE_SIZE c, ptLen := s.ptLen.fill 0 Config.NT 0 }
  | .C => { s with cTable := s.cTable.fill 0 Config.C_TABLE_SIZE c, cLen := s.cLen.fill 0 Config.NC 0 }
  | .P => { s with ptTable := s.ptTable.fill 0 Config.PT_TABLE_SIZE c, ptLen := s.ptLen.fill 0 Config.NP 0 }

end Sys2Proof.Machine
end

