-- ==== Sys2Proof/Machine/Flags.lean ====
section
/-! DEFINITION. The CORE's one flag, `badTable` (R29), the labels of `fsm` (R28, R215), and the tests the rules make on
the state. -/

namespace Sys2Proof.Machine

/-- Latch `badTable` and enter `Failed` (R216, R288 step 1). -/
def State.latchBadTable (s : State) : State := { s with badTable := true, fsm := .failed }

/-- The state in which an alphabet's description is read (R215). -/
def readState : Alphabet → Fsm
  | .T => .readExtraLengths
  | .C => .readLiteralLengths
  | .P => .readOffsetLengths

/-- The state in which an alphabet's table is built (R215). -/
def buildState : Alphabet → Fsm
  | .T => .buildExtraTable
  | .C => .buildLiteralTable
  | .P => .buildOffsetTable

/-- The state after an alphabet's table stands (R215). -/
def afterBuild : Alphabet → Fsm
  | .T => .readLiteralLengths
  | .C => .readOffsetLengths
  | .P => .decodingBlock

/-- The alphabet whose table the present state builds. -/
def State.building (s : State) : Option Alphabet :=
  match s.fsm with
  | .buildExtraTable => some .T
  | .buildLiteralTable => some .C
  | .buildOffsetTable => some .P
  | .needNewBlock => none
  | .readExtraLengths => none
  | .readLiteralLengths => none
  | .readOffsetLengths => none
  | .decodingBlock => none
  | .failed => none

/-- The loop test of R231 comes next: a symbol is about to be asked for. -/
def State.passStart (s : State) : Bool := s.point == .start && (s.fsm == .needNewBlock || s.fsm == .decodingBlock)

/-- `outPos < origSize`, the bound tested before every symbol and every byte written (R231, R323). -/
def State.hasRoom (s : State) : Bool := decide (s.outPos < s.origSize.toNat)

/-- What keeps every access in bounds: the rest of the payload lies in SRC (R62), and DST holds `origSize` bytes (R64). -/
def State.inBounds (s : State) : Bool :=
  decide (Config.HDRLEN + s.inPos + s.compRemaining ≤ s.srcLen) && decide (s.origSize.toNat ≤ s.grant.dstLen)

/-- The grammar position of the next element (R91): from the command, `fsm`, and the loop tests of R176 and R183. -/
def State.slot (s : State) : Option Slot :=
  match s.run with
  | .idle => none
  | .header _ => some .hdr
  | .decode =>
    match s.point with
    | .start =>
      match s.fsm with
      | .needNewBlock => some .blksize
      | .readExtraLengths => some .tcount
      | .readLiteralLengths => some .ccount
      | .readOffsetLengths => some .pcount
      | .decodingBlock => some .csym
      | .buildExtraTable => none
      | .buildLiteralTable => none
      | .buildOffsetTable => none
      | .failed => none
    | .entries number idx =>
      if s.fsm = .readExtraLengths ∨ s.fsm = .readOffsetLengths then
        if idx < number ∧ idx < Config.NPT then some .ptlen else none
      else if s.fsm = .readLiteralLengths then
        if idx < number ∧ idx < Config.NC then some .citem else none
      else none
    | .filled => none
    | .skip _ => if s.fsm = .readExtraLengths then some .tskip else none
    | .offset _ => if s.fsm = .needNewBlock ∨ s.fsm = .decodingBlock then some .off else none

end Sys2Proof.Machine
end

