-- ==== Sys2Proof/Machine/Operands.lean ====
section
/-! DEFINITION. Operand assembly (R100), all unsigned, and the widths an element consumes (R92, R101). -/

namespace Sys2Proof.Machine

/-- The run of `CZS r` (R187): 3..18. -/
def shortRun (r : BitVec 4) : Nat := r.toNat + 3

/-- The run of `CZL r` (R188): 20..531. -/
def longRun (r : BitVec 9) : Nat := r.toNat + 20

/-- The offset value of class `c` with extra bits `x` (R195, R196). -/
def offsetValue (c x : Nat) : Nat := if c ≤ 1 then c else 2 ^ (c - 1) + x

/-- The match length of C symbol `sym` (R234). -/
def matchLength (sym : Nat) : Nat := sym - Config.MATCHBIAS

/-- `PBIT` as a number (R34). -/
def State.pWidth (s : State) : Nat := s.pBit.toNat

/-- The `fillBits` arguments of an element in stream order: the code length of its symbol, then its RAW fields (R101). -/
def State.widths (s : State) (i : Instr) : List Nat :=
  let p := i.parts s.pWidth
  (match p.slot.alphabet, p.sym with
    | some a, some sym => [s.codeLength a sym]
    | _, _ => []) ++ p.fields.map Prod.fst

/-- The length of an element in bits (R92). -/
def State.lengthOf (s : State) (i : Instr) : Nat := (s.widths i).sum

end Sys2Proof.Machine
end

