-- ==== Sys2Proof/Machine/Ops.lean ====
section
/-! DEFINITION. The operations the meanings share: ending a command, the aborts, initialisation, reading the descriptions,
and writing DST. -/

namespace Sys2Proof.Machine

/-! ### Ending a command -/

/-- The command ends with a status; the host may issue another (R263, R290). -/
def State.endCommand (s : State) (st : Status) : State := { s with status := st, run := .idle, point := .start }

/-- The command ends with `Success` (R259, R262). -/
def State.succeed (s : State) : State := s.endCommand .success

/-- `raise InvalidParameter(TruncatedHeader)` (R277): "no other state is defined afterwards", so the header registers carry
free values (R257; assumption log 5). -/
def State.raiseTruncated (s : State) : State :=
  { s.endCommand (.invalidParameter .truncatedHeader) with
    compSize := Config.freeWord s.freeCount, origSize := Config.freeWord (s.freeCount + 1),
    scratchSize := Config.freeSize s.freeCount, freeCount := s.freeCount + 2 }

/-- `raise BadTable` (R288): latch, leave every operation at once, end the command with `CorruptTable`. Nothing else
changes and nothing resumes (R289, R290). -/
def State.raiseBadTable (s : State) : State :=
  s.latchBadTable.endCommand (.invalidParameter .corruptTable)

/-! ### Starting a command -/

/-- The host places a compressed buffer in SRC (R263 (a)), and with it promises that SRC is plain memory (R70) or does not.
That this action makes the promise is a DESIGN CHOICE (assumption log 7). -/
def State.placeSource (s : State) (bytes : List Byte) (plain : Bool := true) : State :=
  { s with src := Memory.ofBytes 0 bytes, srcLen := bytes.length, grant := { s.grant with srcPlain := plain } }

/-- The host provides DST, with what it holds, and SCRATCH (R263 (c)), and with them promises that DST is plain memory (R70), that
the buffers do not overlap (R75) and that SCRATCH is large enough (R259), or does not. That this action makes these promises is
a DESIGN CHOICE (assumption log 7). -/
def State.provide (s : State) (bytes : List Byte) (plain disjoint scratchOk : Bool := true) : State :=
  { s with
    dst := Memory.ofBytes 0 bytes
    grant := { s.grant with dstLen := bytes.length, dstPlain := plain, disjoint := disjoint, scratchOk := scratchOk } }

/-- The host issues a command (R255, R263 (b), (d)), and with it promises to keep off the buffers until the command ends (R263 (e),
R326), or does not. That this action makes the promise is a DESIGN CHOICE (assumption log 7). -/
def State.issue (s : State) (c : Command) (exclusive : Bool := true) : State :=
  { s with run := .header c, grant := { s.grant with exclusive := exclusive } }

/-- The broken promise, if any, that does not depend on the header. SIZE_QUERY needs SRC plain (R70) and its own (R326);
DECOMPRESS needs all of R285. -/
def State.brokenPromise (s : State) (c : Command) : Option Refusal :=
  match c with
  | .sizeQuery =>
    if !s.grant.srcPlain then some .notPlainMemory
    else if !s.grant.exclusive then some .buffersShared
    else none
  | .decompress =>
    if !s.grant.srcPlain || !s.grant.dstPlain then some .notPlainMemory
    else if !s.grant.disjoint then some .buffersOverlap
    else if !s.grant.exclusive then some .buffersShared
    else if !s.grant.scratchOk then some .scratchTooSmall
    else none

/-- DECOMPRESS needs a DST of exactly `origSize` bytes (R259). -/
def State.dstFits (s : State) (c : Command) (orig : BitVec 32) : Bool :=
  match c with
  | .sizeQuery => true
  | .decompress => s.grant.dstLen == orig.toNat

/-- `init()` (R310): every working register and array is zeroed, then `compRemaining <- compSize`. -/
def State.init (s : State) : State :=
  { s with
    bitBuf := 0, subBitBuf := 0, bitCount := 0, inPos := 0, compRemaining := s.compSize.toNat,
    blockCount := 0, outPos := 0, fsm := .needNewBlock, badTable := false,
    ptLen := Vector.replicate _ 0, cLen := Vector.replicate _ 0,
    ptTable := Vector.replicate _ 0, cTable := Vector.replicate _ 0,
    left := Vector.replicate _ 0, right := Vector.replicate _ 0, point := .start }

/-- `init()` and the priming fill (R311), after which decoding runs. -/
def State.startDecoding (s : State) : State := { s.init.fillBits 32 with run := .decode }

/-! ### One element -/

/-- What every payload element's meaning shares: it stands at its grammar position, it is an element, the accesses stay in
bounds; then its bits are consumed (R322: its value was read before) and `k` has the rest of the effect. -/
def State.element (s : State) (i : Instr) (k : State → Result) : Result :=
  if s.slot ≠ some i.slot then .refused .outOfPlace
  else if i.wellFormed s.pWidth = false then .refused .illFormed
  else if s.inBounds = false then .fault .accessOutOfBounds
  else k (s.consume (s.widths i))

/-! ### The length descriptions -/

/-- A non-zero count field: entries follow (R177, R184). -/
def State.startEntries (s : State) (number : Nat) : State := { s with point := .entries number 0 }

/-- A degenerate description (R177, R184): the uniform fill, which enters the Build state (R215), or the fault of R283. -/
def State.degenerate (s : State) (a : Alphabet) (sym : Nat) : Result :=
  if alphabetSize a ≤ sym then .fault .degenerateSymbolOutOfRange
  else .next { s.fillUniform a sym with fsm := buildState a, point := .filled }

/-- After a T or P entry: the next entry, or the tail of R180 and the Build state. -/
def State.nextPTEntry (s : State) (number idx : Nat) : State :=
  if idx < number ∧ idx < Config.NPT then { s with point := .entries number idx }
  else if s.fsm = .readExtraLengths then
    { s with ptLen := s.ptLen.fill idx (Config.NT - idx) 0, fsm := .buildExtraTable, point := .start }
  else
    { s with ptLen := s.ptLen.fill idx (Config.NP - idx) 0, fsm := .buildOffsetTable, point := .start }

/-- `ptLen[idx] <- l; idx <- idx + 1` (R178), then a `TSKIP` where `idx` has become 3 in the T description (R179). -/
def State.storePTLength (s : State) (l : Nat) : State :=
  match s.point with
  | .entries number idx =>
    let s' := { s with ptLen := s.ptLen.write idx l }
    if s.fsm = .readExtraLengths ∧ idx + 1 = Config.SPECIAL_T then { s' with point := .skip number }
    else s'.nextPTEntry number (idx + 1)
  | .start => s
  | .skip _ => s
  | .filled => s
  | .offset _ => s

/-- `TSKIP r` (R179): `r` zero entries from entry 3 on, cut at the end of the array. -/
def State.skipEntries (s : State) (r : Nat) : State :=
  match s.point with
  | .skip number =>
    { s with ptLen := s.ptLen.fill Config.SPECIAL_T r 0 }.nextPTEntry number
      (min (Config.SPECIAL_T + r) Config.NPT)
  | .start => s
  | .entries _ _ => s
  | .offset _ => s
  | .filled => s

/-- After a C item: the next item, or the tail of R190 and the Build state. -/
def State.nextCItem (s : State) (number idx : Nat) : State :=
  if idx < number ∧ idx < Config.NC then { s with point := .entries number idx }
  else { s with cLen := s.cLen.fill idx (Config.NC - idx) 0, fsm := .buildLiteralTable, point := .start }

/-- `cLen[idx] <- l; idx <- idx + 1` (R189). -/
def State.storeCLength (s : State) (l : Nat) : State :=
  match s.point with
  | .entries number idx => { s with cLen := s.cLen.write idx l }.nextCItem number (idx + 1)
  | .start => s
  | .skip _ => s
  | .filled => s
  | .offset _ => s

/-- A run of `r` zero C lengths, cut at entry 509 (R191). -/
def State.zeroRun (s : State) (r : Nat) : State :=
  match s.point with
  | .entries number idx =>
    { s with cLen := s.cLen.fill idx r 0 }.nextCItem number (min (idx + r) Config.NC)
  | .start => s
  | .skip _ => s
  | .filled => s
  | .offset _ => s

/-- The Build state of an alphabet (R180, R190, R215): its table is uniformly filled and the builder not called, or its
table stands, or `BadTable`. -/
def State.buildTable (s : State) (a : Alphabet) : State :=
  if s.point = .filled then { s with fsm := afterBuild a, point := .start }
  else
    match s.build a with
    | some t => { t with fsm := afterBuild a, point := .start }
    | none => s.raiseBadTable

/-! ### Symbols and DST -/

/-- The counter step of `decodeC` (R212, R214): it wraps modulo 2^16; at zero the next request reads a header. -/
def State.countSymbol (s : State) : State :=
  { s with blockCount := s.blockCount - 1,
           fsm := if s.blockCount - 1 = 0 then .needNewBlock else .decodingBlock }

/-- `MemWrite(DST[outPos], 1, v); outPos <- outPos + 1`, behind its bounds check (R233, R236, R323). -/
def State.putByte (s : State) (v : Byte) : State :=
  if s.outPos < s.origSize.toNat then
    { s with dst := s.dst.write s.outPos v, outPos := s.outPos + 1 }
  else s

/-- The copy loop of R236 with `m` bytes to go and source index `src`: one byte a pass, low to high, each read after the
write before it (R320), the bound tested before each (R238). -/
def State.copyLoop : Nat → Nat → State → State
  | 0, _, s => s
  | m + 1, src, s =>
    if s.outPos < s.origSize.toNat then State.copyLoop m (src + 1) (s.putByte (s.dst.read src)) else s

/-- The rest of a match once its offset value is known (R234, R235): the underflow test on unbounded integers, then the
copy. -/
def State.copyMatch (s : State) (off : Nat) : Result :=
  match s.point with
  | .offset m =>
    if s.outPos < off + 1 then .fault .backRefBeforeStart
    else .next { State.copyLoop m (s.outPos - off - 1) s with point := .start }
  | .start => .refused .outOfPlace
  | .entries _ _ => .refused .outOfPlace
  | .skip _ => .refused .outOfPlace
  | .filled => .refused .outOfPlace

end Sys2Proof.Machine
end

