-- ==== Sys2Proof/Machine/BlockHeader.lean ====
section
/-! DEFINITION. The T and P descriptions and the block size (42_alphabet_decoders.md, 43_block_decoder.md): `BLKSIZE`, `TCNT`, `TDEG`,
`PCNT`, `PDEG`, `PTLEN.l`, `TSKIP`. -/

namespace Sys2Proof.Machine

/-- `BLKSIZE n` (R213): the block counter, then the T description (R211). -/
def execBlksize (n : BitVec 16) (s : State) : Result :=
  s.element (.blksize n) fun t => .next { t with blockCount := n, fsm := .readExtraLengths, point := .start }

/-- `TCNT n` (R177). -/
def execTcnt (n : BitVec 5) (s : State) : Result := s.element (.tcnt n) fun t => .next (t.startEntries n.toNat)

/-- `TDEG s` (R177, R283). -/
def execTdeg (sym : BitVec 5) (s : State) : Result := s.element (.tdeg sym) fun t => t.degenerate .T sym.toNat

/-- `PCNT n` (R177). -/
def execPcnt (n : BitVec 5) (s : State) : Result := s.element (.pcnt n) fun t => .next (t.startEntries n.toNat)

/-- `PDEG s` (R177, R283). -/
def execPdeg (sym : BitVec 5) (s : State) : Result := s.element (.pdeg sym) fun t => t.degenerate .P sym.toNat

/-- `TSKIP r` (R179). -/
def execTskip (r : BitVec 2) (s : State) : Result := s.element (.tskip r) fun t => .next (t.skipEntries r.toNat)

/-- `PTLEN.0` (R178). -/
def execPtlen0 (s : State) : Result := s.element .ptlen0 fun t => .next (t.storePTLength 0)

/-- `PTLEN.1` (R178). -/
def execPtlen1 (s : State) : Result := s.element .ptlen1 fun t => .next (t.storePTLength 1)

/-- `PTLEN.2` (R178). -/
def execPtlen2 (s : State) : Result := s.element .ptlen2 fun t => .next (t.storePTLength 2)

/-- `PTLEN.3` (R178). -/
def execPtlen3 (s : State) : Result := s.element .ptlen3 fun t => .next (t.storePTLength 3)

/-- `PTLEN.4` (R178). -/
def execPtlen4 (s : State) : Result := s.element .ptlen4 fun t => .next (t.storePTLength 4)

/-- `PTLEN.5` (R178). -/
def execPtlen5 (s : State) : Result := s.element .ptlen5 fun t => .next (t.storePTLength 5)

/-- `PTLEN.6` (R178). -/
def execPtlen6 (s : State) : Result := s.element .ptlen6 fun t => .next (t.storePTLength 6)

/-- `PTLEN.7` (R178). -/
def execPtlen7 (s : State) : Result := s.element .ptlen7 fun t => .next (t.storePTLength 7)

/-- `PTLEN.8` (R178). -/
def execPtlen8 (s : State) : Result := s.element .ptlen8 fun t => .next (t.storePTLength 8)

/-- `PTLEN.9` (R178). -/
def execPtlen9 (s : State) : Result := s.element .ptlen9 fun t => .next (t.storePTLength 9)

/-- `PTLEN.10` (R178). -/
def execPtlen10 (s : State) : Result := s.element .ptlen10 fun t => .next (t.storePTLength 10)

/-- `PTLEN.11` (R178). -/
def execPtlen11 (s : State) : Result := s.element .ptlen11 fun t => .next (t.storePTLength 11)

/-- `PTLEN.12` (R178). -/
def execPtlen12 (s : State) : Result := s.element .ptlen12 fun t => .next (t.storePTLength 12)

/-- `PTLEN.13` (R178). -/
def execPtlen13 (s : State) : Result := s.element .ptlen13 fun t => .next (t.storePTLength 13)

/-- `PTLEN.14` (R178). -/
def execPtlen14 (s : State) : Result := s.element .ptlen14 fun t => .next (t.storePTLength 14)

/-- `PTLEN.15` (R178). -/
def execPtlen15 (s : State) : Result := s.element .ptlen15 fun t => .next (t.storePTLength 15)

/-- `PTLEN.16` (R178). -/
def execPtlen16 (s : State) : Result := s.element .ptlen16 fun t => .next (t.storePTLength 16)

end Sys2Proof.Machine
end

