-- ==== Sys2Proof/Machine/CodeLengths.lean ====
section
/-! DEFINITION. The C description (42_alphabet_decoders.md): `CCNT`, `CDEG`, `CZ1`, `CZS`, `CZL`, `CL.l`. -/

namespace Sys2Proof.Machine

/-- `CCNT n` (R184). -/
def execCcnt (n : BitVec 9) (s : State) : Result := s.element (.ccnt n) fun t => .next (t.startEntries n.toNat)

/-- `CDEG s` (R184, R283). -/
def execCdeg (sym : BitVec 9) (s : State) : Result := s.element (.cdeg sym) fun t => t.degenerate .C sym.toNat

/-- `CZ1` (R186): a run of 1 zero. -/
def execCz1 (s : State) : Result := s.element .cz1 fun t => .next (t.zeroRun 1)

/-- `CZS r` (R187). -/
def execCzs (r : BitVec 4) (s : State) : Result := s.element (.czs r) fun t => .next (t.zeroRun (shortRun r))

/-- `CZL r` (R188). -/
def execCzl (r : BitVec 9) (s : State) : Result := s.element (.czl r) fun t => .next (t.zeroRun (longRun r))

/-- `CL.1` (R189). -/
def execCl1 (s : State) : Result := s.element .cl1 fun t => .next (t.storeCLength 1)

/-- `CL.2` (R189). -/
def execCl2 (s : State) : Result := s.element .cl2 fun t => .next (t.storeCLength 2)

/-- `CL.3` (R189). -/
def execCl3 (s : State) : Result := s.element .cl3 fun t => .next (t.storeCLength 3)

/-- `CL.4` (R189). -/
def execCl4 (s : State) : Result := s.element .cl4 fun t => .next (t.storeCLength 4)

/-- `CL.5` (R189). -/
def execCl5 (s : State) : Result := s.element .cl5 fun t => .next (t.storeCLength 5)

/-- `CL.6` (R189). -/
def execCl6 (s : State) : Result := s.element .cl6 fun t => .next (t.storeCLength 6)

/-- `CL.7` (R189). -/
def execCl7 (s : State) : Result := s.element .cl7 fun t => .next (t.storeCLength 7)

/-- `CL.8` (R189). -/
def execCl8 (s : State) : Result := s.element .cl8 fun t => .next (t.storeCLength 8)

/-- `CL.9` (R189). -/
def execCl9 (s : State) : Result := s.element .cl9 fun t => .next (t.storeCLength 9)

/-- `CL.10` (R189). -/
def execCl10 (s : State) : Result := s.element .cl10 fun t => .next (t.storeCLength 10)

/-- `CL.11` (R189). -/
def execCl11 (s : State) : Result := s.element .cl11 fun t => .next (t.storeCLength 11)

/-- `CL.12` (R189). -/
def execCl12 (s : State) : Result := s.element .cl12 fun t => .next (t.storeCLength 12)

/-- `CL.13` (R189). -/
def execCl13 (s : State) : Result := s.element .cl13 fun t => .next (t.storeCLength 13)

/-- `CL.14` (R189). -/
def execCl14 (s : State) : Result := s.element .cl14 fun t => .next (t.storeCLength 14)

/-- `CL.15` (R189). -/
def execCl15 (s : State) : Result := s.element .cl15 fun t => .next (t.storeCLength 15)

/-- `CL.16` (R189). -/
def execCl16 (s : State) : Result := s.element .cl16 fun t => .next (t.storeCLength 16)

end Sys2Proof.Machine
end

