-- ==== Sys2Proof/Machine/HostCommands.lean ====
section
/-! DEFINITION. The host commands (45_host_commands.md): `HDR` parsed for SIZE_QUERY or DECOMPRESS. -/

namespace Sys2Proof.Machine

/-- The header check on a source shorter than 8 bytes: no header byte is read (R256, R277). -/
def State.shortHeader (s : State) (c : Command) : Result :=
  match s.brokenPromise c with
  | some r => .refused r
  | none => .next s.raiseTruncated

/-- `compSize <- ...; origSize <- ...` (R256). -/
def State.parseHeader (s : State) (comp orig : BitVec 32) : State := { s with compSize := comp, origSize := orig }

/-- What a command does once its header has passed both checks: SIZE_QUERY reports (R257); DECOMPRESS succeeds trivially
(R260) or initialises, primes and decodes (R259). -/
def State.acceptHeader (s : State) (c : Command) : State :=
  match c with
  | .sizeQuery => { s with scratchSize := Config.scratchSize }.succeed
  | .decompress => if s.origSize = 0 then s.succeed else s.startDecoding

/-- `HDR` (R256 to R261): refusal of a broken promise first (R282), then the two length tests on unbounded integers. -/
def execHdr (comp orig : BitVec 32) (s : State) : Result :=
  match s.run with
  | .header c =>
    if s.srcLen < Config.HDRLEN then s.shortHeader c
    else
      match s.brokenPromise c with
      | some r => .refused r
      | none =>
        if s.dstFits c orig = false then .refused .dstSizeMismatch
        else
          let t := s.parseHeader comp orig
          if s.srcLen < Config.HDRLEN + comp.toNat then .next t.raiseTruncated else .next (t.acceptHeader c)
  | .idle => .refused .outOfPlace
  | .decode => .refused .outOfPlace

end Sys2Proof.Machine
end

