-- ==== Sys2Proof/Machine/Symbols.lean ====
section
/-! DEFINITION. The symbol stream (44_lz_expander.md, 42_alphabet_decoders.md): `LIT`, `MATCH`, `OFF.c`. -/

namespace Sys2Proof.Machine

/-- `LIT b` (R233): the counter step of `decodeC`, then the byte. -/
def execLit (b : Byte) (s : State) : Result := s.element (.lit b) fun t => .next (t.countSymbol.putByte b)

/-- `MATCH m` (R234): the counter step of `decodeC`; the length waits for the `OFF.c` that follows, whose bits come before
the underflow test and the copy. -/
def execMatch (m : Nat) (s : State) : Result :=
  s.element (.matchLen m) fun t => .next { t.countSymbol with point := .offset m }

/-- `OFF.0` (R195): distance 1, then the match's copy (R234 to R236). -/
def execOff0 (s : State) : Result := s.element .off0 fun t => t.copyMatch (offsetValue 0 0)

/-- `OFF.1` (R195): distance 2, then the match's copy. -/
def execOff1 (s : State) : Result := s.element .off1 fun t => t.copyMatch (offsetValue 1 0)

/-- `OFF.2 x` (R196), then the match's copy. -/
def execOff2 (x : BitVec 1) (s : State) : Result :=
  s.element (.off2 x) fun t => t.copyMatch (offsetValue 2 x.toNat)

/-- `OFF.3 x` (R196), then the match's copy. -/
def execOff3 (x : BitVec 2) (s : State) : Result :=
  s.element (.off3 x) fun t => t.copyMatch (offsetValue 3 x.toNat)

/-- `OFF.4 x` (R196), then the match's copy. -/
def execOff4 (x : BitVec 3) (s : State) : Result :=
  s.element (.off4 x) fun t => t.copyMatch (offsetValue 4 x.toNat)

/-- `OFF.5 x` (R196), then the match's copy. -/
def execOff5 (x : BitVec 4) (s : State) : Result :=
  s.element (.off5 x) fun t => t.copyMatch (offsetValue 5 x.toNat)

/-- `OFF.6 x` (R196), then the match's copy. -/
def execOff6 (x : BitVec 5) (s : State) : Result :=
  s.element (.off6 x) fun t => t.copyMatch (offsetValue 6 x.toNat)

/-- `OFF.7 x` (R196), then the match's copy. -/
def execOff7 (x : BitVec 6) (s : State) : Result :=
  s.element (.off7 x) fun t => t.copyMatch (offsetValue 7 x.toNat)

/-- `OFF.8 x` (R196), then the match's copy. -/
def execOff8 (x : BitVec 7) (s : State) : Result :=
  s.element (.off8 x) fun t => t.copyMatch (offsetValue 8 x.toNat)

/-- `OFF.9 x` (R196), then the match's copy. -/
def execOff9 (x : BitVec 8) (s : State) : Result :=
  s.element (.off9 x) fun t => t.copyMatch (offsetValue 9 x.toNat)

/-- `OFF.10 x` (R196), then the match's copy. -/
def execOff10 (x : BitVec 9) (s : State) : Result :=
  s.element (.off10 x) fun t => t.copyMatch (offsetValue 10 x.toNat)

/-- `OFF.11 x` (R196), then the match's copy. -/
def execOff11 (x : BitVec 10) (s : State) : Result :=
  s.element (.off11 x) fun t => t.copyMatch (offsetValue 11 x.toNat)

/-- `OFF.12 x` (R196), then the match's copy. -/
def execOff12 (x : BitVec 11) (s : State) : Result :=
  s.element (.off12 x) fun t => t.copyMatch (offsetValue 12 x.toNat)

/-- `OFF.13 x` (R196), then the match's copy. -/
def execOff13 (x : BitVec 12) (s : State) : Result :=
  s.element (.off13 x) fun t => t.copyMatch (offsetValue 13 x.toNat)

/-- `OFF.14 x` (R196), then the match's copy. -/
def execOff14 (x : BitVec 13) (s : State) : Result :=
  s.element (.off14 x) fun t => t.copyMatch (offsetValue 14 x.toNat)

/-- `OFF.15 x` (R196), then the match's copy. -/
def execOff15 (x : BitVec 14) (s : State) : Result :=
  s.element (.off15 x) fun t => t.copyMatch (offsetValue 15 x.toNat)

/-- `OFF.16 x` (R196), then the match's copy. -/
def execOff16 (x : BitVec 15) (s : State) : Result :=
  s.element (.off16 x) fun t => t.copyMatch (offsetValue 16 x.toNat)

/-- `OFF.17 x` (R196), then the match's copy. -/
def execOff17 (x : BitVec 16) (s : State) : Result :=
  s.element (.off17 x) fun t => t.copyMatch (offsetValue 17 x.toNat)

/-- `OFF.18 x` (R196), then the match's copy. -/
def execOff18 (x : BitVec 17) (s : State) : Result :=
  s.element (.off18 x) fun t => t.copyMatch (offsetValue 18 x.toNat)

/-- `OFF.19 x` (R196), then the match's copy. -/
def execOff19 (x : BitVec 18) (s : State) : Result :=
  s.element (.off19 x) fun t => t.copyMatch (offsetValue 19 x.toNat)

/-- `OFF.20 x` (R196), then the match's copy. -/
def execOff20 (x : BitVec 19) (s : State) : Result :=
  s.element (.off20 x) fun t => t.copyMatch (offsetValue 20 x.toNat)

/-- `OFF.21 x` (R196), then the match's copy. -/
def execOff21 (x : BitVec 20) (s : State) : Result :=
  s.element (.off21 x) fun t => t.copyMatch (offsetValue 21 x.toNat)

/-- `OFF.22 x` (R196), then the match's copy. -/
def execOff22 (x : BitVec 21) (s : State) : Result :=
  s.element (.off22 x) fun t => t.copyMatch (offsetValue 22 x.toNat)

/-- `OFF.23 x` (R196), then the match's copy. -/
def execOff23 (x : BitVec 22) (s : State) : Result :=
  s.element (.off23 x) fun t => t.copyMatch (offsetValue 23 x.toNat)

/-- `OFF.24 x` (R196), then the match's copy. -/
def execOff24 (x : BitVec 23) (s : State) : Result :=
  s.element (.off24 x) fun t => t.copyMatch (offsetValue 24 x.toNat)

/-- `OFF.25 x` (R196), then the match's copy. -/
def execOff25 (x : BitVec 24) (s : State) : Result :=
  s.element (.off25 x) fun t => t.copyMatch (offsetValue 25 x.toNat)

/-- `OFF.26 x` (R196), then the match's copy. -/
def execOff26 (x : BitVec 25) (s : State) : Result :=
  s.element (.off26 x) fun t => t.copyMatch (offsetValue 26 x.toNat)

/-- `OFF.27 x` (R196), then the match's copy. -/
def execOff27 (x : BitVec 26) (s : State) : Result :=
  s.element (.off27 x) fun t => t.copyMatch (offsetValue 27 x.toNat)

/-- `OFF.28 x` (R196), then the match's copy. -/
def execOff28 (x : BitVec 27) (s : State) : Result :=
  s.element (.off28 x) fun t => t.copyMatch (offsetValue 28 x.toNat)

/-- `OFF.29 x` (R196), then the match's copy. -/
def execOff29 (x : BitVec 28) (s : State) : Result :=
  s.element (.off29 x) fun t => t.copyMatch (offsetValue 29 x.toNat)

/-- `OFF.30 x` (R196), then the match's copy. -/
def execOff30 (x : BitVec 29) (s : State) : Result :=
  s.element (.off30 x) fun t => t.copyMatch (offsetValue 30 x.toNat)

end Sys2Proof.Machine
end

