-- ==== Sys2Proof/Machine/Dispatch.lean ====
section
/-! DEFINITION. One arm per stream element: its meaning. -/

namespace Sys2Proof.Machine

def exec (i : Instr) (s : State) : Host.Outcome State Fault Refusal :=
  match i with
  | .hdr comp orig => Sys2Proof.Machine.execHdr comp orig s
  | .blksize n => Sys2Proof.Machine.execBlksize n s
  | .tcnt n => Sys2Proof.Machine.execTcnt n s
  | .tdeg sym => Sys2Proof.Machine.execTdeg sym s
  | .pcnt n => Sys2Proof.Machine.execPcnt n s
  | .pdeg sym => Sys2Proof.Machine.execPdeg sym s
  | .ptlen0 => Sys2Proof.Machine.execPtlen0 s
  | .ptlen1 => Sys2Proof.Machine.execPtlen1 s
  | .ptlen2 => Sys2Proof.Machine.execPtlen2 s
  | .ptlen3 => Sys2Proof.Machine.execPtlen3 s
  | .ptlen4 => Sys2Proof.Machine.execPtlen4 s
  | .ptlen5 => Sys2Proof.Machine.execPtlen5 s
  | .ptlen6 => Sys2Proof.Machine.execPtlen6 s
  | .ptlen7 => Sys2Proof.Machine.execPtlen7 s
  | .ptlen8 => Sys2Proof.Machine.execPtlen8 s
  | .ptlen9 => Sys2Proof.Machine.execPtlen9 s
  | .ptlen10 => Sys2Proof.Machine.execPtlen10 s
  | .ptlen11 => Sys2Proof.Machine.execPtlen11 s
  | .ptlen12 => Sys2Proof.Machine.execPtlen12 s
  | .ptlen13 => Sys2Proof.Machine.execPtlen13 s
  | .ptlen14 => Sys2Proof.Machine.execPtlen14 s
  | .ptlen15 => Sys2Proof.Machine.execPtlen15 s
  | .ptlen16 => Sys2Proof.Machine.execPtlen16 s
  | .tskip r => Sys2Proof.Machine.execTskip r s
  | .ccnt n => Sys2Proof.Machine.execCcnt n s
  | .cdeg sym => Sys2Proof.Machine.execCdeg sym s
  | .cz1 => Sys2Proof.Machine.execCz1 s
  | .czs r => Sys2Proof.Machine.execCzs r s
  | .czl r => Sys2Proof.Machine.execCzl r s
  | .cl1 => Sys2Proof.Machine.execCl1 s
  | .cl2 => Sys2Proof.Machine.execCl2 s
  | .cl3 => Sys2Proof.Machine.execCl3 s
  | .cl4 => Sys2Proof.Machine.execCl4 s
  | .cl5 => Sys2Proof.Machine.execCl5 s
  | .cl6 => Sys2Proof.Machine.execCl6 s
  | .cl7 => Sys2Proof.Machine.execCl7 s
  | .cl8 => Sys2Proof.Machine.execCl8 s
  | .cl9 => Sys2Proof.Machine.execCl9 s
  | .cl10 => Sys2Proof.Machine.execCl10 s
  | .cl11 => Sys2Proof.Machine.execCl11 s
  | .cl12 => Sys2Proof.Machine.execCl12 s
  | .cl13 => Sys2Proof.Machine.execCl13 s
  | .cl14 => Sys2Proof.Machine.execCl14 s
  | .cl15 => Sys2Proof.Machine.execCl15 s
  | .cl16 => Sys2Proof.Machine.execCl16 s
  | .lit b => Sys2Proof.Machine.execLit b s
  | .matchLen m => Sys2Proof.Machine.execMatch m s
  | .off0 => Sys2Proof.Machine.execOff0 s
  | .off1 => Sys2Proof.Machine.execOff1 s
  | .off2 x => Sys2Proof.Machine.execOff2 x s
  | .off3 x => Sys2Proof.Machine.execOff3 x s
  | .off4 x => Sys2Proof.Machine.execOff4 x s
  | .off5 x => Sys2Proof.Machine.execOff5 x s
  | .off6 x => Sys2Proof.Machine.execOff6 x s
  | .off7 x => Sys2Proof.Machine.execOff7 x s
  | .off8 x => Sys2Proof.Machine.execOff8 x s
  | .off9 x => Sys2Proof.Machine.execOff9 x s
  | .off10 x => Sys2Proof.Machine.execOff10 x s
  | .off11 x => Sys2Proof.Machine.execOff11 x s
  | .off12 x => Sys2Proof.Machine.execOff12 x s
  | .off13 x => Sys2Proof.Machine.execOff13 x s
  | .off14 x => Sys2Proof.Machine.execOff14 x s
  | .off15 x => Sys2Proof.Machine.execOff15 x s
  | .off16 x => Sys2Proof.Machine.execOff16 x s
  | .off17 x => Sys2Proof.Machine.execOff17 x s
  | .off18 x => Sys2Proof.Machine.execOff18 x s
  | .off19 x => Sys2Proof.Machine.execOff19 x s
  | .off20 x => Sys2Proof.Machine.execOff20 x s
  | .off21 x => Sys2Proof.Machine.execOff21 x s
  | .off22 x => Sys2Proof.Machine.execOff22 x s
  | .off23 x => Sys2Proof.Machine.execOff23 x s
  | .off24 x => Sys2Proof.Machine.execOff24 x s
  | .off25 x => Sys2Proof.Machine.execOff25 x s
  | .off26 x => Sys2Proof.Machine.execOff26 x s
  | .off27 x => Sys2Proof.Machine.execOff27 x s
  | .off28 x => Sys2Proof.Machine.execOff28 x s
  | .off29 x => Sys2Proof.Machine.execOff29 x s
  | .off30 x => Sys2Proof.Machine.execOff30 x s

end Sys2Proof.Machine
end

