-- ==== Sys2Proof/Machine/Fetch.lean ====
section
/-! DEFINITION. Fetching the next stream element: the decoder of Decode.lean on the bits at the cursor, with the symbol of
a coded element looked up in the present tables (R101, R159). Fetching changes nothing (R322). -/

namespace Sys2Proof.Machine

/-- The eight header bytes as bits (R61, R93). -/
def State.headerBits (s : State) : List Bool :=
  (List.range Config.HDRLEN).flatMap fun k => toBits 8 (s.src.read k).toNat

/-- The bits a RAW element at a position is read from. -/
def State.rawAt (s : State) (sl : Slot) : List Bool :=
  if sl = .hdr then s.headerBits else windowBits s.bitBuf

/-- The next element, or why there is none. -/
def State.fetch (s : State) : Except Reject Instr :=
  match s.slot with
  | none => .error .noElement
  | some sl =>
    match sl.alphabet with
    | none => decodeRaw s.pWidth sl (s.rawAt sl)
    | some a =>
      match s.lookupSym a with
      | none => .error .noCode
      | some sym => decodeCoded sl sym (windowBits (s.fillBits (s.codeLength a sym)).bitBuf)

/-- What the CORE does where no element can be read: a length above 16 is `BadTable` (R178); the rest no run reaches. -/
def State.rejectElement (s : State) (r : Reject) : Result :=
  match r with
  | .lengthAbove16 => .next s.raiseBadTable
  | .notASymbol => .fault .lookupOverrun
  | .noCode => .fault .lookupOverrun
  | .noElement => .refused .outOfPlace

end Sys2Proof.Machine
end

