-- ==== Sys2Proof/Machine/Placing.lean ====
section
/-! DEFINITION. Placing one stream element as the next to be fetched, for the host's check of single elements. -/

namespace Sys2Proof.Machine

/-- Bits, first one most significant, padded with 0 to whole bytes, as 8 payload bytes. -/
def packBits (b : List Bool) : List Byte :=
  (List.range 8).map fun k => BitVec.ofNat 8 (field 8 (b.drop (8 * k)))

/-- The command under way for an element: a DECOMPRESS of 8 payload bytes that open with `b`, decoding from stream bit 0
into a DST with room. -/
def State.placePayload (s : State) (b : List Bool) : State :=
  let orig : BitVec 32 := BitVec.ofNat 32 (2 ^ 32 - 1)
  { { s with src := Memory.ofBytes 0
               ((packBits (toBits 8 8 ++ toBits 24 0 ++ toBits 32 (2 ^ 32 - 1))) ++ packBits b),
             srcLen := 16, compSize := 8, origSize := orig,
             grant := ⟨orig.toNat, true, true, true, true, true⟩ }.startDecoding with status := s.status }

/-- The header as SRC, and the command issued. -/
def State.placeHeader (s : State) (b : List Bool) : State :=
  { s with src := Memory.ofBytes 0 (packBits b), srcLen := Config.HDRLEN,
           grant := ⟨0, true, true, true, true, true⟩ }.issue .sizeQuery

/-- One element placed so that the next step fetches it: a coded element stands in a block whose alphabet is degenerate
with its symbol, so its code has no bits and its operand opens the payload. -/
def State.placeElement (s : State) (i : Instr) : State :=
  let b := i.rawBits 4
  let sym := ((i.parts 4).sym).getD 0
  match i.slot with
  | .hdr => s.placeHeader b
  | .blksize => s.placePayload b
  | .tcount => { s.placePayload b with fsm := .readExtraLengths }
  | .ptlen => { s.placePayload b with fsm := .readExtraLengths, point := .entries 19 0 }
  | .tskip => { s.placePayload b with fsm := .readExtraLengths, point := .skip 19 }
  | .ccount => { s.placePayload b with fsm := .readLiteralLengths }
  | .citem => { (s.placePayload b).fillUniform .T sym with fsm := .readLiteralLengths, point := .entries 510 0 }
  | .pcount => { s.placePayload b with fsm := .readOffsetLengths }
  | .csym => { (s.placePayload b).fillUniform .C sym with fsm := .decodingBlock, blockCount := 2 }
  | .off => { (s.placePayload b).fillUniform .P sym with
      fsm := .decodingBlock, blockCount := 1, point := .offset 3, outPos := 2 ^ 31 }

end Sys2Proof.Machine
end

