-- ==== Sys2Proof/Machine/Step.lean ====
section
/-! DEFINITION. One step of the CORE: idle, the header check, the loop test of `expand`, a table build, or one stream
element fetched and run (assumption log 1). -/

namespace Sys2Proof.Machine

/-- Fetch an element and run it. -/
def runElement (s : State) : Host.Outcome State Fault Refusal :=
  match s.fetch with
  | .ok i => exec i s
  | .error r => s.rejectElement r

/-- One step. Idle: nothing happens until the host issues a command (R297). With a command issued: `HDR`, which is not read
from a source shorter than 8 bytes (R256). Decoding: the loop test of R231 ends the command with `Success` once DST is full
(R238, R239); a Build state builds (R215); else one element. -/
def step (s : State) : Host.Outcome State Fault Refusal :=
  match s.run with
  | .idle => .next s
  | .header c => if s.srcLen < Config.HDRLEN then s.shortHeader c else runElement s
  | .decode =>
    if s.passStart && !s.hasRoom then .next s.succeed
    else if s.inBounds = false then .fault .accessOutOfBounds
    else
      match s.building with
      | some a => .next (s.buildTable a)
      | none => runElement s

/-- The state with one element, as the opcode table numbers it, placed as the next that `step` fetches: its bits open the
payload, and the grammar position and the tables of a block that code its symbol are set (assumption log 11). -/
def State.withFetchWord (s : State) (nbits w : Nat) : State :=
  match decodeTableWord nbits w with
  | some i => s.placeElement i
  | none => s

end Sys2Proof.Machine
end

