-- ==== Sys2Proof/Machine/Procedures.lean ====
section
/-! DEFINITION. The spec's operations at their own grain, as their pseudocode has them: `decodeSym`, `readPTLen`, `readCLen`,
`decodeP`, `decodeC`, and one pass of `expand`, the spec's atomic step (R17). Step.lean runs the same work one stream element
at a time; an obligation states that the two agree. -/

namespace Sys2Proof.Machine

/-- How an operation stops before it returns (R15): `raise BadTable` with the state at the raise, or `raise Fault`. -/
inductive Stop where
  | badTable (s : State)
  | fault (r : Fault)
  deriving DecidableEq, Repr

/-- An operation of the spec. -/
abbrev Op (α : Type) := Except Stop (α × State)

/-- `decodeSym` (R159) on an alphabet's structure. -/
def State.decodeSym (s : State) (a : Alphabet) : Op Nat :=
  match s.lookupSym a with
  | some v => .ok (v, s.fillBits (s.codeLength a v))
  | none => .error (.fault .lookupOverrun)

/-- The build that ends a description (R180, R190). -/
def State.finishLengths (s : State) (a : Alphabet) : Op Unit :=
  match s.build a with
  | some t => .ok ((), t)
  | none => .error (.badTable s)

/-- The degenerate branch of R176 and R183: the symbol field and the uniform fill. -/
def State.readDegenerate (s : State) (a : Alphabet) (nbit : Nat) : Op Unit :=
  let (c, t) := s.getBits nbit
  if alphabetSize a ≤ c then .error (.fault .degenerateSymbolOutOfRange) else .ok ((), t.fillUniform a c)

/-- The entry loop of R176; each pass stores an entry, so `fuel` = 32 passes are enough. -/
def State.readPTEntries (special : Option Nat) (number : Nat) : Nat → Nat → State → Op Nat
  | 0, idx, s => .ok (idx, s)
  | fuel + 1, idx, s =>
    if idx < number ∧ idx < Config.NPT then
      let c := lengthField (windowBits s.bitBuf)
      if 16 < c then .error (.badTable s)
      else
        let t := s.fillBits (if c < 7 then 3 else c - 3)
        let t := { t with ptLen := t.ptLen.write idx c }
        if special = some (idx + 1) then
          let (r, u) := t.getBits 2
          let u := { u with ptLen := u.ptLen.fill (idx + 1) r 0 }
          State.readPTEntries special number fuel (min (idx + 1 + r) Config.NPT) u
        else State.readPTEntries special number fuel (idx + 1) t
    else .ok (idx, s)

/-- `readPTLen(nn, nbit, special)` (R176) for the alphabet `a`. -/
def State.readPTLen (s : State) (a : Alphabet) (nbit : Nat) (special : Option Nat) : Op Unit :=
  let (number, t) := s.getBits nbit
  if number = 0 then t.readDegenerate a nbit
  else
    match State.readPTEntries special number 32 0 t with
    | .error e => .error e
    | .ok (idx, u) => { u with ptLen := u.ptLen.fill idx (alphabetSize a - idx) 0 }.finishLengths a

/-- The item loop of R183; each pass stores an entry, so `fuel` = 511 passes are enough. -/
def State.readCItems (number : Nat) : Nat → Nat → State → Op Nat
  | 0, idx, s => .ok (idx, s)
  | fuel + 1, idx, s =>
    if idx < number ∧ idx < Config.NC then
      match s.decodeSym .T with
      | .error e => .error e
      | .ok (c, t) =>
        if c ≤ 2 then
          let (r, u) := if c = 0 then (1, t) else if c = 1 then ((t.getBits 4).1 + 3, (t.getBits 4).2)
            else ((t.getBits Config.CBIT).1 + 20, (t.getBits Config.CBIT).2)
          State.readCItems number fuel (min (idx + r) Config.NC) { u with cLen := u.cLen.fill idx r 0 }
        else State.readCItems number fuel (idx + 1) { t with cLen := t.cLen.write idx (c - 2) }
    else .ok (idx, s)

/-- `readCLen()` (R183). -/
def State.readCLen (s : State) : Op Unit :=
  let (number, t) := s.getBits Config.CBIT
  if number = 0 then t.readDegenerate .C Config.CBIT
  else
    match State.readCItems number 511 0 t with
    | .error e => .error e
    | .ok (idx, u) => { u with cLen := u.cLen.fill idx (Config.NC - idx) 0 }.finishLengths .C

/-- `decodeP()` (R192): one offset value. -/
def State.decodeP (s : State) : Op Nat :=
  match s.decodeSym .P with
  | .error e => .error e
  | .ok (c, t) =>
    if c ≤ 1 then .ok (c, t)
    else .ok (2 ^ (c - 1) + (t.getBits (c - 1)).1, (t.getBits (c - 1)).2)

/-- The block header of R211 and R212: `BLKSIZE`, then the three descriptions in order (R321). -/
def State.readHeader (s : State) : Op Unit :=
  let (n, t) := s.getBits Config.BLOCKBITS
  match { t with blockCount := BitVec.ofNat 16 n }.readPTLen .T Config.TBIT (some Config.SPECIAL_T) with
  | .error e => .error e
  | .ok (_, u) =>
    match u.readCLen with
    | .error e => .error e
    | .ok (_, v) => v.readPTLen .P v.pWidth none

/-- `decodeC()` (R212): a header when the block is used up, the counter step, one C symbol. -/
def State.decodeC (s : State) : Op Nat :=
  match (if s.blockCount = 0 then s.readHeader else .ok ((), s)) with
  | .error e => .error e
  | .ok (_, t) => t.countSymbol.decodeSym .C

/-- One pass of the loop of `expand()` (R231). -/
def State.expandPass (s : State) : Op Unit :=
  match s.decodeC with
  | .error e => .error e
  | .ok (sym, t) =>
    if sym < 256 then .ok ((), t.putByte (BitVec.ofNat 8 sym))
    else
      match t.decodeP with
      | .error e => .error e
      | .ok (off, u) =>
        if u.outPos < off + 1 then .error (.fault .backRefBeforeStart)
        else .ok ((), State.copyLoop (matchLength sym) (u.outPos - off - 1) u)

/-- `expand()` (R231), at most `fuel` passes; `origSize` passes are always enough (R240). -/
def State.expand : Nat → State → Op Unit
  | 0, s => .ok ((), s)
  | fuel + 1, s =>
    if s.hasRoom then
      match s.expandPass with
      | .error e => .error e
      | .ok (_, t) => State.expand fuel t
    else .ok ((), s)

end Sys2Proof.Machine
end

