-- ==== Sys2Proof/Safety.lean ====
section
/-! DEFINITION. What the statements speak in: the padded stream (R131), where the reader stands in it (R133), the invariants of
a run (R47), the frames, and when an element completes. -/

namespace Sys2Proof.Machine

/-! ### The padded stream -/

/-- `S[t]` of R131: bit 7 of SRC[8] first, zeros after the payload. -/
def State.streamBit (s : State) (t : Nat) : Bool :=
  if t < 8 * s.compSize.toNat then (s.src.read (Config.HDRLEN + t / 8)).getLsbD (7 - t % 8) else false

/-- `S[a .. a+n-1]` as a number, `S[a]` most significant (R131). -/
def State.streamValue (s : State) (a : Nat) : Nat → Nat
  | 0 => 0
  | n + 1 => 2 * s.streamValue a n + (s.streamBit (a + n)).toNat

/-- Consecutive slices of the padded stream from bit `p` on, of the given widths (R137). -/
def State.slices (s : State) (p : Nat) : List Nat → List Nat
  | [] => []
  | n :: ns => s.streamValue p n :: s.slices (p + n) ns

/-- `getBits` called with each width in turn: what the calls return, and the state after them (R137). -/
def State.getAll (s : State) : List Nat → List Nat × State
  | [] => ([], s)
  | n :: ns => ((s.getBits n).1 :: ((s.getBits n).2.getAll ns).1, ((s.getBits n).2.getAll ns).2)

/-- The stream from bit `p` on opens with the bits of `b`. -/
def State.streamOpens (s : State) (p : Nat) (b : List Bool) : Prop :=
  ∀ k, k < b.length → s.streamBit (p + k) = b.getD k false

/-- The reader stands at stream bit `p`, `bitPos` of R30 (R47 (a) to (e), R133); `byte` says of all eight bits of the
look-ahead what R133 says of the low `bitCount`, since the register keeps the last byte whole (R22). -/
structure ReaderAt (s : State) (p : Nat) : Prop where
  window : ∀ i, i < 32 → s.bitBuf.getLsbD (31 - i) = s.streamBit (p + i)
  byte : ∀ j, j < 8 → s.subBitBuf.getLsbD j = s.streamBit (p + 31 + s.bitCount - j)
  count : s.bitCount ≤ 7
  aligned : (p + 32 + s.bitCount) % 8 = 0
  pos : s.inPos = min ((p + 32 + s.bitCount) / 8) s.compSize.toNat
  rest : s.inPos + s.compRemaining = s.compSize.toNat

/-! ### Invariants -/

/-- What holds while a DECOMPRESS decodes, between two steps (R47). -/
structure State.Running (s : State) : Prop where
  reader : ∃ p, ReaderAt s p
  srcFits : Config.HDRLEN + s.compSize.toNat ≤ s.srcLen
  dstFits : s.grant.dstLen = s.origSize.toNat
  promises : s.brokenPromise .decompress = none
  room : s.outPos ≤ s.origSize.toNat
  flag : s.badTable = false
  place : (s.building.isSome = true ∧ (s.point = .start ∨ s.point = .filled)) ∨ (s.building = none ∧ s.slot.isSome = true)
  block : s.fsm = .needNewBlock → s.blockCount = 0
  pending : ∀ m, s.point = .offset m → 3 ≤ m ∧ m ≤ 256 ∧ s.outPos < s.origSize.toNat

/-- The invariant of the machine: canonical memories, `pBit` as wired (R34), code lengths 0..16 (R36, R37), and `Running`
while a DECOMPRESS decodes. -/
structure State.Inv (s : State) : Prop where
  srcWf : s.src.wf = true
  dstWf : s.dst.wf = true
  wired : s.pBit = 4
  ptLens : ∀ i, i < 31 → s.ptLen.read i ≤ 16
  cLens : ∀ i, i < 510 → s.cLen.read i ≤ 16
  running : s.run = .decode → s.Running

/-- The pairs of states of R215's table (its two command ends leave the state as it is). -/
def fsmEdges : List (Fsm × Fsm) :=
  [(.needNewBlock, .readExtraLengths),
   (.readExtraLengths, .buildExtraTable), (.readExtraLengths, .failed),
   (.buildExtraTable, .readLiteralLengths), (.buildExtraTable, .failed),
   (.readLiteralLengths, .buildLiteralTable),
   (.buildLiteralTable, .readOffsetLengths), (.buildLiteralTable, .failed),
   (.readOffsetLengths, .buildOffsetTable), (.readOffsetLengths, .failed),
   (.buildOffsetTable, .decodingBlock), (.buildOffsetTable, .failed),
   (.decodingBlock, .decodingBlock), (.decodingBlock, .needNewBlock)]

/-! ### Frames -/

/-- `t` with the five bit-reader registers of `s`. -/
def State.readerFrom (t s : State) : State :=
  { t with bitBuf := s.bitBuf, subBitBuf := s.subBitBuf, bitCount := s.bitCount, inPos := s.inPos,
           compRemaining := s.compRemaining }

/-- No byte of SRC or DST reads otherwise. -/
def State.sameBytes (s t : State) : Prop := (∀ a, t.src.read a = s.src.read a) ∧ (∀ a, t.dst.read a = s.dst.read a)

/-- The reader has moved by exactly `n` bits (R30). -/
def State.advancedBy (s t : State) (n : Nat) : Prop := ∀ p, ReaderAt s p → ReaderAt t (p + n)

/-! ### Elements -/

/-- When an element's meaning runs: it stands at the present grammar position, it is an element, accesses stay in bounds. -/
def State.ready (s : State) (i : Instr) : Prop :=
  s.slot = some i.slot ∧ i.wellFormed s.pWidth = true ∧ s.inBounds = true

/-- Every code length of the present structures is at most 16, so that every `fillBits` is within its contract (R132). -/
def State.lengthsFit (s : State) : Prop :=
  (∀ i, i < 31 → s.ptLen.read i ≤ 16) ∧ (∀ i, i < 510 → s.cLen.read i ≤ 16)

/-- A built structure decodes every window: the symbol found has a code, and the code opens the window (R160). -/
def Builder.decodes {n : Nat} (b : Builder n) (lens : List Nat) (tb : Nat) : Prop :=
  ∀ w : Window, ∃ sym, lookup lens.length tb b.table b.left b.right w = some sym ∧
    1 ≤ lens.getD sym 0 ∧ w.toNat / 2 ^ (32 - lens.getD sym 0) = codeValue lens sym

end Sys2Proof.Machine

namespace Sys2Proof


/-! ### Codes -/

/-- A length list that passes the builder's checks for an alphabet of `nn` symbols (R152, R153). -/
def completeLengths (nn : Nat) (lens : List Nat) : Prop :=
  lens.length = nn ∧ (∀ l ∈ lens, l ≤ 16) ∧ cumulative lens 16 = Config.FULLCODE

/-- The books a block header can leave. -/
def Book.fits (a : Alphabet) : Book → Prop
  | .degenerate sym => sym < Machine.alphabetSize a
  | .canonical lens => completeLengths (Machine.alphabetSize a) lens

/-- The symbol has a code. -/
def Book.has (bk : Book) (sym : Nat) : Prop :=
  match bk with
  | .degenerate c => sym = c
  | .canonical lens => lens.getD sym 0 ≠ 0

/-- The three books fit their alphabets. -/
def Books.fit (bk : Books) : Prop := ∀ a, (bk.get a).fits a

/-- The code of an element's symbol exists. -/
def Instr.coded (bk : Books) (i : Instr) : Prop :=
  ∀ a sym, i.slot.alphabet = some a → (i.parts 4).sym = some sym → (bk.get a).has sym

end Sys2Proof
end

