-- ==== Sys2Proof/Certificates/Slice0/Obligations.lean ====
section
/-! DEFINITION. The statements for the provers, in the order of the spec's files. That one element is one step, and the
clauses on `point` and on `run`, are the model's grain (assumption log 1). -/

open Sys2Proof Sys2Proof.Machine

/-! ### The bit reader -/

/-- R311: `init()` and `fillBits(32)` leave the window on the first 32 stream bits, `min(4, compSize)` bytes fetched, and no
stream bit consumed. -/
def Obligations.PrimingLoadsFirstFourBytes : Prop :=
  ∀ s : State, ReaderAt s.startDecoding 0 ∧ s.startDecoding.bitCount = 0 ∧
    s.startDecoding.inPos = min 4 s.compSize.toNat ∧
    s.startDecoding.compRemaining = s.compSize.toNat - s.startDecoding.inPos

/-- The contract of `fillBits` (R133, the spec's own inference): `fillBits(n)`, for every `n` it may be given, moves the reader by exactly `n` stream bits. -/
def Obligations.FillBitsMovesTheReader : Prop :=
  ∀ (s : State) (p n : Nat), n ≤ 32 → ReaderAt s p → ReaderAt (s.fillBits n) (p + n)

/-- R136, and R137, the spec's own inference: `getBits` calls in a row return consecutive slices of the padded stream, end where the last slice ends, and
write nothing but the reader. -/
def Obligations.GetBitsReturnsStreamSlices : Prop :=
  ∀ (s : State) (p : Nat) (ns : List Nat), (∀ n ∈ ns, n ≤ 32) → ReaderAt s p →
    (s.getAll ns).1 = s.slices p ns ∧ ReaderAt (s.getAll ns).2 (p + ns.sum) ∧ (s.getAll ns).2.readerFrom s = s

/-! ### Encodings -/

/-- Decode and encode agree for every element, at every operand its encoding admits, with any bits after it (R92, R99). -/
def Obligations.EncodedElementDecodesToItself : Prop :=
  ∀ (bk : Books) (pBit : Nat) (i : Instr) (rest : List Bool), bk.fit → pBit = 4 ∨ pBit = 5 →
    i.wellFormed pBit = true → i.coded bk → decode bk pBit i.slot (encode bk pBit i ++ rest) = .ok (i, rest)

/-- The other direction: on 64 bits or more, what decoding answers is well formed and its encoding is the bits it took. -/
def Obligations.DecodedElementEncodesToItsBits : Prop :=
  ∀ (bk : Books) (pBit : Nat) (sl : Slot) (b rest : List Bool) (i : Instr), bk.fit → pBit = 4 ∨ pBit = 5 →
    64 ≤ b.length → decode bk pBit sl b = .ok (i, rest) →
    i.slot = sl ∧ i.wellFormed pBit = true ∧ encode bk pBit i ++ rest = b

/-- R92, R95 to R98: a few elements written out bit by bit decode to the elements they stand for. The books are those of
program P2 (T symbols 2 and 4; C symbols 65, 66, 67, 262 of length 2; P class 2). -/
def Obligations.SampleWordsDecode : Prop :=
  let bk : Books := ⟨.canonical [0, 0, 1, 0, 1], .canonical (List.replicate 65 0 ++ [2, 2, 2] ++ List.replicate 194 0 ++ [2]),
    .degenerate 2⟩
  (decode bk 4 .blksize [false, false, false, false, false, false, false, false, false, false, false, false, false, true,
    false, false] = .ok (.blksize 4, [])) ∧
  (decode bk 4 .tcount [false, false, true, false, true] = .ok (.tcnt 5, [])) ∧
  (decode bk 4 .ptlen [true, true, true, true, false] = .ok (.ptlen8, [])) ∧
  (decode bk 4 .tskip [true, false] = .ok (.tskip 2, [])) ∧
  (decode bk 4 .citem [false, false, false, false, true, false, true, true, false, true] = .ok (.czl 45, [])) ∧
  (decode bk 4 .citem [true] = .ok (.cl2, [])) ∧
  (decode bk 4 .pcount [false, false, false, false, false, false, true, false] = .ok (.pdeg 2, [])) ∧
  (decode bk 4 .csym [true, true] = .ok (.matchLen 9, [])) ∧
  (decode bk 4 .off [true] = .ok (.off2 1, []))

/-! ### Canonical codes, the builder and the lookup -/

/-- R154, the spec's own inference: for a length list that passes the checks, every 16-bit value begins with exactly one symbol's code. -/
def Obligations.EveryWordBeginsWithOneCode : Prop :=
  ∀ (nn : Nat) (lens : List Nat), completeLengths nn lens → ∀ v, v < 65536 →
    ∃ sym, (sym < nn ∧ lens.getD sym 0 ≠ 0 ∧ v / 2 ^ (16 - lens.getD sym 0) = codeValue lens sym) ∧
      ∀ other, lens.getD other 0 ≠ 0 → v / 2 ^ (16 - lens.getD other 0) = codeValue lens other → other = sym

/-- R152, R153 (the spec's decisions D27 and D16): the builder answers `BadTable` exactly on a length above 16 or a completeness sum other than 65536. -/
def Obligations.BuildAcceptsExactlyCompleteLengths : Prop :=
  ∀ (n : Nat) (lens : List Nat) (tb : Nat) (table : Tab n) (left right : Tab Config.NODECAP),
    (∃ b, makeTable lens tb table left right = some b) ↔ completeLengths lens.length lens

/-- R155, R159 on descriptions without long codes: the built direct table decodes every window. -/
def Obligations.ShortCodeTableDecodesEveryWindow : Prop :=
  ∀ (lens : List Nat) (tb : Nat) (table : Tab (2 ^ tb)) (left right : Tab Config.NODECAP) (b : Builder (2 ^ tb)),
    1 ≤ tb → tb ≤ 12 → lens.length ≤ 510 → (∀ l ∈ lens, l ≤ tb) → makeTable lens tb table left right = some b →
    b.decodes lens tb

/-- R160, the spec's own inference: whatever the storage held before, a structure built without `BadTable` decodes every window to the one symbol
whose code opens it; table, tree and walk together, for each of the three alphabets. -/
def Obligations.BuiltStructureDecodesEveryWindow : Prop :=
  (∀ (lens : List Nat) (table : Tab 256) (left right : Tab Config.NODECAP) (b : Builder 256),
    lens.length = 19 ∨ lens.length = 31 → makeTable lens 8 table left right = some b → b.decodes lens 8) ∧
  (∀ (lens : List Nat) (table : Tab 4096) (left right : Tab Config.NODECAP) (b : Builder 4096),
    lens.length = 510 → makeTable lens 12 table left right = some b → b.decodes lens 12)

/-- R161, R180, R190, R215, R288: a Build state passes on where its alphabet is uniformly filled, without calling the builder;
else it leaves the builder's structure standing and moves on, or takes `BadTable`, which ends the command with `CorruptTable`
and changes nothing else. -/
def Obligations.BuildStateBuildsOrAborts : Prop :=
  ∀ (s : State) (a : Alphabet), s.run = .decode → s.building = some a → s.inBounds = true →
    (s.point = .filled → step s = .next { s with fsm := afterBuild a, point := .start }) ∧
    (s.point ≠ .filled → completeLengths (alphabetSize a) (s.lengths a) →
      ∃ t u, s.build a = some u ∧ step s = .next t ∧ t.fsm = afterBuild a ∧ t.point = .start ∧
        t.ptTable = u.ptTable ∧ t.cTable = u.cTable ∧ t.left = u.left ∧ t.right = u.right ∧
        (a = .C → t.ptTable = s.ptTable) ∧ (a ≠ .C → t.cTable = s.cTable) ∧
        { t with ptTable := s.ptTable, cTable := s.cTable, left := s.left, right := s.right, fsm := s.fsm,
                 point := s.point } = s) ∧
    (s.point ≠ .filled → ¬ completeLengths (alphabetSize a) (s.lengths a) →
      ∃ t, step s = .next t ∧ t.badTable = true ∧ t.fsm = .failed ∧ t.run = .idle ∧
        t.status = .invalidParameter .corruptTable ∧
        { t with badTable := s.badTable, fsm := s.fsm, run := s.run, status := s.status, point := s.point } = s)

/-- R215: the decoder's states follow the table: while decoding, a step leaves `fsm` as it is or takes one of its edges. -/
def Obligations.FsmFollowsItsTable : Prop :=
  ∀ s t : State, s.run = .decode → step s = .next t → t.fsm = s.fsm ∨ (s.fsm, t.fsm) ∈ fsmEdges

/-! ### Block headers -/

/-- R213 (the spec's decision D4): `BLKSIZE n` sets the block counter, consumes 16 bits, and the T description comes next. -/
def Obligations.BlockSizeOpensTheHeader : Prop :=
  ∀ (s : State) (n : BitVec 16), s.ready (.blksize n) →
    ∃ t, exec (.blksize n) s = .next t ∧ t.blockCount = n ∧ t.fsm = .readExtraLengths ∧ t.slot = some .tcount ∧
      s.advancedBy t 16 ∧ s.sameBytes t ∧
      { t.readerFrom s with blockCount := s.blockCount, fsm := s.fsm, point := s.point } = s

/-- R177, R184 (widths by the spec's decision D1): a non-zero count `n` opens `n` entries, and nothing but the reader moves. -/
def Obligations.CountFieldsOpenTheEntries : Prop :=
  (∀ (s : State) (n : BitVec 5), s.ready (.tcnt n) → ∃ t, exec (.tcnt n) s = .next t ∧
    t.point = .entries n.toNat 0 ∧ t.slot = some .ptlen ∧ s.advancedBy t 5 ∧ s.sameBytes t ∧
    { t.readerFrom s with point := s.point } = s) ∧
  (∀ (s : State) (n : BitVec 5), s.ready (.pcnt n) → ∃ t, exec (.pcnt n) s = .next t ∧
    t.point = .entries n.toNat 0 ∧ t.slot = some .ptlen ∧ s.advancedBy t s.pBit.toNat ∧ s.sameBytes t ∧
    { t.readerFrom s with point := s.point } = s) ∧
  (∀ (s : State) (n : BitVec 9), s.ready (.ccnt n) → ∃ t, exec (.ccnt n) s = .next t ∧
    t.point = .entries n.toNat 0 ∧ t.slot = some .citem ∧ s.advancedBy t 9 ∧ s.sameBytes t ∧
    { t.readerFrom s with point := s.point } = s)

/-- R161, R177, R184, R215: a degenerate description makes every window decode to its symbol at no cost in bits, and enters its
Build state, filled. The widths of its two fields are the spec's decisions D1 and D2 (assumption log 14). -/
def Obligations.DegenerateDescriptionIsUniform : Prop :=
  ∀ (s : State) (i : Instr) (a : Alphabet) (c width : Nat),
    ((∃ x, i = .tdeg x ∧ a = .T ∧ c = x.toNat ∧ width = 10) ∨
     (∃ x, i = .pdeg x ∧ a = .P ∧ c = x.toNat ∧ width = 2 * s.pBit.toNat) ∨
     (∃ x, i = .cdeg x ∧ a = .C ∧ c = x.toNat ∧ width = 18)) →
    s.ready i → c < alphabetSize a →
    ∃ t, exec i s = .next t ∧ t.fsm = buildState a ∧ t.point = .filled ∧
      (∀ w : Window, ({ t with bitBuf := w } : State).lookupSym a = some c) ∧
      (∀ j, j < alphabetSize a → t.codeLength a j = 0) ∧
      (if a = .C then
        (∀ j, j < 4096 → t.cTable.read j = c) ∧ t.ptTable = s.ptTable ∧ t.ptLen = s.ptLen
      else
        (∀ j, j < 256 → t.ptTable.read j = c) ∧ t.cTable = s.cTable ∧ t.cLen = s.cLen ∧
          ∀ j, alphabetSize a ≤ j → t.ptLen.read j = s.ptLen.read j) ∧
      s.advancedBy t width ∧ s.sameBytes t ∧
      { t.readerFrom s with ptLen := s.ptLen, cLen := s.cLen, ptTable := s.ptTable, cTable := s.cTable, fsm := s.fsm,
                            point := s.point } = s

/-- R283 (the spec's decision D17): a degenerate symbol at or above its alphabet's size stops the machine. -/
def Obligations.DegenerateSymbolOutOfRangeFaults : Prop :=
  (∀ (s : State) (x : BitVec 5), s.ready (.tdeg x) → 19 ≤ x.toNat →
    exec (.tdeg x) s = .fault .degenerateSymbolOutOfRange) ∧
  (∀ (s : State) (x : BitVec 5), s.ready (.pdeg x) → 31 ≤ x.toNat →
    exec (.pdeg x) s = .fault .degenerateSymbolOutOfRange) ∧
  (∀ (s : State) (x : BitVec 9), s.ready (.cdeg x) → 510 ≤ x.toNat →
    exec (.cdeg x) s = .fault .degenerateSymbolOutOfRange)

/-- R178, R179, R180: each of the seventeen `PTLEN.l` stores its length at `idx`; then a `TSKIP` follows the third T entry,
or the next entry comes, or the tail is zeroed and the table is built. -/
def Obligations.PtLengthEntryIsStored : Prop :=
  ∀ (s : State) (l number idx : Nat) (i : Instr), ptlenInstr l = some i → s.ready i → s.point = .entries number idx →
    ∃ t, exec i s = .next t ∧ t.ptLen.read idx = l ∧ (∀ j, j < idx → t.ptLen.read j = s.ptLen.read j) ∧
      (if s.fsm = .readExtraLengths ∧ idx = 2 then
        t.point = .skip number ∧ t.fsm = s.fsm ∧ ∀ j, idx < j → t.ptLen.read j = s.ptLen.read j
      else if idx + 1 < number ∧ idx + 1 < 31 then
        t.point = .entries number (idx + 1) ∧ t.fsm = s.fsm ∧ ∀ j, idx < j → t.ptLen.read j = s.ptLen.read j
      else
        t.point = .start ∧
        t.building = some (if s.fsm = .readExtraLengths then .T else .P) ∧
        ∀ j, idx < j → t.ptLen.read j = if j < (if s.fsm = .readExtraLengths then 19 else 31) then 0 else s.ptLen.read j) ∧
      s.advancedBy t (if l < 7 then 3 else l - 3) ∧ s.sameBytes t ∧
      { t.readerFrom s with ptLen := s.ptLen, fsm := s.fsm, point := s.point } = s

/-- R179: `TSKIP r` zeroes entries `3 .. 3+r-1`, and the entries go on at `3+r` or end. -/
def Obligations.SkipZeroesEntries : Prop :=
  ∀ (s : State) (r : BitVec 2) (number : Nat), s.ready (.tskip r) → s.point = .skip number →
    ∃ t, exec (.tskip r) s = .next t ∧
      (∀ j, j < 3 → t.ptLen.read j = s.ptLen.read j) ∧ (∀ j, 3 ≤ j → j < 3 + r.toNat → t.ptLen.read j = 0) ∧
      (if 3 + r.toNat < number then
        t.point = .entries number (3 + r.toNat) ∧ t.fsm = s.fsm ∧
          ∀ j, 3 + r.toNat ≤ j → t.ptLen.read j = s.ptLen.read j
      else
        t.point = .start ∧ t.building = some .T ∧
          ∀ j, 3 + r.toNat ≤ j → t.ptLen.read j = if j < 19 then 0 else s.ptLen.read j) ∧
      s.advancedBy t 2 ∧ s.sameBytes t ∧
      { t.readerFrom s with ptLen := s.ptLen, fsm := s.fsm, point := s.point } = s

/-- R189, R190: each of the sixteen `CL.l` stores its length at `idx`; then the next item comes, or the tail is zeroed and
the table is built. -/
def Obligations.CLengthEntryIsStored : Prop :=
  ∀ (s : State) (l number idx : Nat) (i : Instr), clInstr l = some i → s.ready i → s.lengthsFit →
    s.point = .entries number idx →
    ∃ t, exec i s = .next t ∧ t.cLen.read idx = l ∧ (∀ j, j < idx → t.cLen.read j = s.cLen.read j) ∧
      (if idx + 1 < number ∧ idx + 1 < 510 then
        t.point = .entries number (idx + 1) ∧ t.fsm = s.fsm ∧ ∀ j, idx < j → t.cLen.read j = s.cLen.read j
      else
        t.point = .start ∧ t.building = some .C ∧ ∀ j, idx < j → t.cLen.read j = 0) ∧
      s.advancedBy t (s.ptLen.read (l + 2)) ∧ s.sameBytes t ∧
      { t.readerFrom s with cLen := s.cLen, fsm := s.fsm, point := s.point } = s

/-- R186, R187, R188, R191: `CZ1`, `CZS r` and `CZL r` zero 1, `r + 3` and `r + 20` entries from `idx` on, cut at entry 509,
their operand bits consumed in full. -/
def Obligations.ZeroRunStopsAtTheLastEntry : Prop :=
  ∀ (s : State) (number idx run width : Nat) (i : Instr),
    ((i = .cz1 ∧ run = 1 ∧ width = s.ptLen.read 0) ∨
     (∃ r, i = .czs r ∧ run = r.toNat + 3 ∧ width = s.ptLen.read 1 + 4) ∨
     (∃ r, i = .czl r ∧ run = r.toNat + 20 ∧ width = s.ptLen.read 2 + 9)) →
    s.ready i → s.lengthsFit → s.point = .entries number idx →
    ∃ t, exec i s = .next t ∧ (∀ j, j < idx → t.cLen.read j = s.cLen.read j) ∧
      (∀ j, idx ≤ j → j < min (idx + run) 510 → t.cLen.read j = 0) ∧
      (if min (idx + run) 510 < number ∧ min (idx + run) 510 < 510 then
        t.point = .entries number (min (idx + run) 510) ∧ t.fsm = s.fsm ∧
          ∀ j, min (idx + run) 510 ≤ j → t.cLen.read j = s.cLen.read j
      else
        t.point = .start ∧ t.building = some .C ∧ ∀ j, min (idx + run) 510 ≤ j → t.cLen.read j = 0) ∧
      s.advancedBy t width ∧ s.sameBytes t ∧
      { t.readerFrom s with cLen := s.cLen, fsm := s.fsm, point := s.point } = s

/-- R178, R288 (a length above 16 is the spec's decision D16): where thirteen one bits stand at a `PTLEN`, its length would be above 16: `BadTable` at once, no bit consumed,
no entry stored. -/
def Obligations.LengthAboveSixteenAborts : Prop :=
  ∀ s : State, s.run = .decode → s.slot = some .ptlen → s.inBounds = true → s.bitBuf.toNat / 2 ^ 19 = 2 ^ 13 - 1 →
    ∃ t, step s = .next t ∧ t.badTable = true ∧ t.fsm = .failed ∧ t.run = .idle ∧
      t.status = .invalidParameter .corruptTable ∧
      { t with badTable := s.badTable, fsm := s.fsm, run := s.run, status := s.status, point := s.point } = s

/-! ### Symbols -/

/-- R214 (the wrap is the spec's decision D19): the block counter wraps, so a block announced with `n` symbols asks for a new header after exactly `n` of them, and
one announced with 0 after 65536. -/
def Obligations.BlockEndsAfterItsSymbols : Prop :=
  ∀ (s : State) (k : Nat), 1 ≤ k → k ≤ (if s.blockCount = 0 then 65536 else s.blockCount.toNat) →
    ((State.countSymbol^[k] s).fsm = .needNewBlock ↔ k = if s.blockCount = 0 then 65536 else s.blockCount.toNat)

/-- R233: `LIT b` consumes its code, counts one symbol, and writes `b` at `outPos` and nowhere else. -/
def Obligations.LiteralWritesItsByte : Prop :=
  ∀ (s : State) (b : Byte), s.ready (.lit b) → s.lengthsFit → s.dst.wf = true → s.outPos < s.origSize.toNat →
    ∃ t, exec (.lit b) s = .next t ∧ t.dst.read s.outPos = b ∧ t.outPos = s.outPos + 1 ∧
      (∀ a, a ≠ s.outPos → t.dst.read a = s.dst.read a) ∧ (∀ a, t.src.read a = s.src.read a) ∧
      t.blockCount = s.blockCount - 1 ∧ t.fsm = (if s.blockCount = 1 then .needNewBlock else .decodingBlock) ∧
      t.point = .start ∧ s.advancedBy t (s.cLen.read b.toNat) ∧
      { t.readerFrom s with blockCount := s.blockCount, fsm := s.fsm, dst := s.dst, outPos := s.outPos } = s

/-- R234: `MATCH m` consumes its code, counts one symbol, and its offset element comes next; nothing is copied yet. -/
def Obligations.MatchWaitsForItsOffset : Prop :=
  ∀ (s : State) (m : Nat), s.ready (.matchLen m) → s.lengthsFit →
    ∃ t, exec (.matchLen m) s = .next t ∧ t.point = .offset m ∧ t.slot = some .off ∧
      t.blockCount = s.blockCount - 1 ∧ t.fsm = (if s.blockCount = 1 then .needNewBlock else .decodingBlock) ∧
      s.advancedBy t (s.cLen.read (m + 253)) ∧ s.sameBytes t ∧
      { t.readerFrom s with blockCount := s.blockCount, fsm := s.fsm, point := s.point } = s

/-- R195, R196, R234, R236, R238, and the closed form of R237, the spec's own inference: for every class `c` and extra bits `x`, `OFF.c x` ends the match of length `m` with the
last `off + 1` bytes before it repeated, cut at `origSize`, and writes nowhere else. -/
def Obligations.OffsetCopiesTheMatch : Prop :=
  ∀ (s : State) (c x m off : Nat) (i : Instr), offInstr c x = some i → x < 2 ^ (c - 1) →
    off = (if c ≤ 1 then c else 2 ^ (c - 1) + x) → s.ready i → s.lengthsFit → s.dst.wf = true →
    s.point = .offset m → off + 1 ≤ s.outPos → s.outPos ≤ s.origSize.toNat →
    ∃ t, exec i s = .next t ∧ t.outPos = min (s.outPos + m) s.origSize.toNat ∧
      (∀ k, k < m → s.outPos + k < s.origSize.toNat →
        t.dst.read (s.outPos + k) = s.dst.read (s.outPos - (off + 1) + k % (off + 1))) ∧
      (∀ a, (a < s.outPos ∨ t.outPos ≤ a) → t.dst.read a = s.dst.read a) ∧ (∀ a, t.src.read a = s.src.read a) ∧
      t.point = .start ∧ s.advancedBy t (s.ptLen.read c + (c - 1)) ∧
      { t.readerFrom s with dst := s.dst, outPos := s.outPos, point := s.point } = s

/-- R235, R284 (the spec's decision D18): an offset that reaches before DST[0] stops the machine, for every class. -/
def Obligations.BackReferenceBeforeStartFaults : Prop :=
  ∀ (s : State) (c x m off : Nat) (i : Instr), offInstr c x = some i → x < 2 ^ (c - 1) →
    off = (if c ≤ 1 then c else 2 ^ (c - 1) + x) → s.ready i → s.point = .offset m → s.outPos < off + 1 →
    exec i s = .fault .backRefBeforeStart

/-! ### Host commands -/

/-- R33, R256, R257: SIZE_QUERY reads the two header words, least significant byte first, reports, and touches nothing else. -/
def Obligations.SizeQueryReportsTheHeader : Prop :=
  ∀ (s : State) (comp orig : Nat), s.run = .header .sizeQuery → s.brokenPromise .sizeQuery = none → 8 ≤ s.srcLen →
    comp = (s.src.read 0).toNat + 2 ^ 8 * (s.src.read 1).toNat + 2 ^ 16 * (s.src.read 2).toNat +
      2 ^ 24 * (s.src.read 3).toNat →
    orig = (s.src.read 4).toNat + 2 ^ 8 * (s.src.read 5).toNat + 2 ^ 16 * (s.src.read 6).toNat +
      2 ^ 24 * (s.src.read 7).toNat →
    ∃ t, step s = .next t ∧ exec (.hdr (BitVec.ofNat 32 comp) (BitVec.ofNat 32 orig)) s = .next t ∧
      t.run = .idle ∧ s.sameBytes t ∧
      if s.srcLen < 8 + comp then t.status = .invalidParameter .truncatedHeader
      else
        t.status = .success ∧ t.compSize.toNat = comp ∧ t.origSize.toNat = orig ∧ t.scratchSize = Config.scratchSize ∧
        { t with compSize := s.compSize, origSize := s.origSize, scratchSize := s.scratchSize, status := s.status,
                 run := s.run, point := s.point } = s

/-- R258: SIZE_QUERY's answer depends on `srcLen` and SRC[0..7] alone, whatever else the two states hold. -/
def Obligations.SizeQueryDependsOnTheHeaderOnly : Prop :=
  ∀ s u : State, s.run = .header .sizeQuery → u.run = .header .sizeQuery → s.brokenPromise .sizeQuery = none →
    u.brokenPromise .sizeQuery = none → u.srcLen = s.srcLen → (∀ a, a < 8 → u.src.read a = s.src.read a) →
    ∃ t v, step s = .next t ∧ step u = .next v ∧ v.status = t.status ∧
      (t.status = .success → v.origSize = t.origSize ∧ v.compSize = t.compSize ∧ v.scratchSize = t.scratchSize)

/-- R259, R310, R311: an accepted DECOMPRESS header zeroes the working state, primes the reader at stream bit 0, and asks for a
block header; SRC and DST are as they were. That `status` is left alone is the model's reading of R31 (assumption log 8). -/
def Obligations.DecompressInitialisesAndPrimes : Prop :=
  ∀ (s : State) (comp orig : BitVec 32), s.run = .header .decompress → s.brokenPromise .decompress = none →
    s.grant.dstLen = orig.toNat → orig ≠ 0 → 8 + comp.toNat ≤ s.srcLen →
    ∃ t, exec (.hdr comp orig) s = .next t ∧ t.run = .decode ∧ t.fsm = .needNewBlock ∧ t.slot = some .blksize ∧
      t.compSize = comp ∧ t.origSize = orig ∧ ReaderAt t 0 ∧ t.blockCount = 0 ∧ t.outPos = 0 ∧ t.badTable = false ∧
      (∀ j, t.ptLen.read j = 0 ∧ t.cLen.read j = 0 ∧ t.ptTable.read j = 0 ∧ t.cTable.read j = 0 ∧
        t.left.read j = 0 ∧ t.right.read j = 0) ∧
      t.src = s.src ∧ t.dst = s.dst ∧ t.srcLen = s.srcLen ∧ t.pBit = s.pBit ∧ t.status = s.status ∧
      t.scratchSize = s.scratchSize ∧ t.grant = s.grant

/-- R260: with `origSize = 0` DECOMPRESS succeeds after the header check and does nothing else; a truncated header still
fails. -/
def Obligations.EmptyOutputSucceedsAtOnce : Prop :=
  ∀ (s : State) (comp : BitVec 32), s.run = .header .decompress → s.brokenPromise .decompress = none →
    s.grant.dstLen = 0 → 8 ≤ s.srcLen →
    (8 + comp.toNat ≤ s.srcLen →
      ∃ t, exec (.hdr comp 0) s = .next t ∧ t.status = .success ∧ t.run = .idle ∧ t.compSize = comp ∧ t.origSize = 0 ∧
        { t with status := s.status, run := s.run, compSize := s.compSize, origSize := s.origSize, point := s.point } = s) ∧
    (s.srcLen < 8 + comp.toNat →
      ∃ t, exec (.hdr comp 0) s = .next t ∧ t.status = .invalidParameter .truncatedHeader ∧ t.run = .idle)

/-- R277: a source shorter than 8 bytes, or than `8 + compSize`, ends either command with `TruncatedHeader`, and no byte
changes; no other register's value is claimed. -/
def Obligations.ShortSourceIsTruncatedHeader : Prop :=
  (∀ (s : State) (c : Command), s.run = .header c → s.brokenPromise c = none → s.srcLen < 8 →
    ∃ t, step s = .next t ∧ t.status = .invalidParameter .truncatedHeader ∧ t.run = .idle ∧ t.src = s.src ∧
      t.dst = s.dst) ∧
  (∀ (s : State) (c : Command) (comp orig : BitVec 32), s.run = .header c → s.brokenPromise c = none →
    s.dstFits c orig = true → 8 ≤ s.srcLen → s.srcLen < 8 + comp.toNat →
    ∃ t, exec (.hdr comp orig) s = .next t ∧ t.status = .invalidParameter .truncatedHeader ∧ t.run = .idle ∧
      t.src = s.src ∧ t.dst = s.dst)

/-- R70, R285, R326 (the spec's decisions D14, D15, D23; the names are assumption log 7's): a DECOMPRESS with a broken
precondition, and a SIZE_QUERY on a source that is not plain memory or that another agent touches, has no next state and no
fault: it is refused, by the promise broken. -/
def Obligations.BrokenPreconditionsAreRefused : Prop :=
  (∀ (s : State) (comp orig : BitVec 32), s.run = .header .decompress → 8 ≤ s.srcLen →
    (s.grant.srcPlain = false ∨ s.grant.dstPlain = false ∨ s.grant.disjoint = false ∨ s.grant.exclusive = false ∨
      s.grant.scratchOk = false ∨ s.grant.dstLen ≠ orig.toNat) →
    ∃ r, exec (.hdr comp orig) s = .refused r ∧
      r ∈ [Refusal.notPlainMemory, .buffersOverlap, .buffersShared, .scratchTooSmall, .dstSizeMismatch]) ∧
  (∀ (s : State) (comp orig : BitVec 32), s.run = .header .sizeQuery →
    (s.grant.srcPlain = false ∨ s.grant.exclusive = false) →
    ∃ r, exec (.hdr comp orig) s = .refused r ∧ r ∈ [Refusal.notPlainMemory, .buffersShared])

/-- R263, R314: in the host's order no command is refused, whatever state the CORE is in: a SIZE_QUERY once a source is placed,
before DST is provided, and a DECOMPRESS once DST has the size the header names. That placing, providing and issuing make the
promises is the model's choice (assumption log 7). -/
def Obligations.HostsOrderIsAnswered : Prop :=
  ∀ (s : State) (bytes dst : List Byte),
    (∃ t, step ((s.placeSource bytes).issue .sizeQuery) = .next t) ∧
    ((8 ≤ bytes.length →
        dst.length = (bytes.getD 4 0).toNat + 2 ^ 8 * (bytes.getD 5 0).toNat + 2 ^ 16 * (bytes.getD 6 0).toNat +
          2 ^ 24 * (bytes.getD 7 0).toNat) →
      ∃ t, step (((s.placeSource bytes).provide dst).issue .decompress) = .next t)

/-- R290, R312 (the spec's decision D26): what the CORE held before an accepted DECOMPRESS has no effect on it. -/
def Obligations.DecompressForgetsThePast : Prop :=
  ∀ (s u : State) (comp orig : BitVec 32), s.run = .header .decompress → u.run = .header .decompress →
    u.src = s.src → u.srcLen = s.srcLen → u.dst = s.dst → u.grant = s.grant → u.pBit = s.pBit →
    s.brokenPromise .decompress = none → s.grant.dstLen = orig.toNat → orig ≠ 0 → 8 + comp.toNat ≤ s.srcLen →
    ∃ t, exec (.hdr comp orig) s = .next t ∧
      exec (.hdr comp orig) u = .next { t with status := u.status, scratchSize := u.scratchSize, freeCount := u.freeCount }

/-! ### The step -/

/-- A step runs the element the fetch reads: nothing is added around `exec`. -/
def Obligations.StepRunsTheFetchedElement : Prop :=
  (∀ (s : State) (i : Instr), s.run = .decode → (s.passStart = true → s.hasRoom = true) → s.inBounds = true →
    s.building = none → s.fetch = .ok i → step s = exec i s) ∧
  (∀ (s : State) (c : Command) (i : Instr), s.run = .header c → 8 ≤ s.srcLen → s.fetch = .ok i → step s = exec i s)

/-- R101, R159: where the stream at the cursor opens with an element's bits (its RAW bits, or its operand after the code that
the lookup found), the step runs that element. -/
def Obligations.StepRunsTheElementAtTheCursor : Prop :=
  ∀ (s : State) (p : Nat) (i : Instr), s.run = .decode → (s.passStart = true → s.hasRoom = true) → s.building = none →
    s.ready i → s.pBit = 4 ∨ s.pBit = 5 → s.lengthsFit → ReaderAt s p →
    (match i.slot.alphabet, (i.parts s.pBit.toNat).sym with
     | some a, some sym => s.lookupSym a = some sym ∧
         s.streamOpens (p + s.codeLength a sym) (i.rawBits s.pBit.toNat)
     | _, _ => s.streamOpens p (i.rawBits s.pBit.toNat)) →
    step s = exec i s

/-- R238, R239 (the spec's decision D22): once DST is full the next step ends the command with `Success`; nothing is fetched and nothing else changes. -/
def Obligations.NothingIsFetchedOnceFull : Prop :=
  ∀ s : State, s.run = .decode → s.passStart = true → s.outPos = s.origSize.toNat →
    ∃ t, step s = .next t ∧ t.status = .success ∧ t.run = .idle ∧ { t with status := s.status, run := s.run } = s

/-- R34, R44, R60: no step writes SRC, its length, `pBit` or what the host granted. -/
def Obligations.NoStepWritesTheHostsInputs : Prop :=
  ∀ s t : State, step s = .next t → t.src = s.src ∧ t.srcLen = s.srcLen ∧ t.pBit = s.pBit ∧ t.grant = s.grant

/-- R27, R64, R69: while decoding, a step writes DST only from `outPos` up to its new value, which never passes
`origSize`. -/
def Obligations.OutputIsWrittenInOrder : Prop :=
  ∀ s t : State, s.run = .decode → s.dst.wf = true → s.outPos ≤ s.origSize.toNat → step s = .next t →
    s.outPos ≤ t.outPos ∧ t.outPos ≤ s.origSize.toNat ∧ t.origSize = s.origSize ∧
      ∀ a, (a < s.outPos ∨ t.outPos ≤ a) → t.dst.read a = s.dst.read a

/-- R288: whatever step latches `badTable` does it in a decode, enters `Failed`, ends the command with `CorruptTable`, and
leaves everything else as it was. -/
def Obligations.BadTableEndsTheCommand : Prop :=
  ∀ s t : State, step s = .next t → s.badTable = false → t.badTable = true →
    s.run = .decode ∧ t.run = .idle ∧ t.fsm = .failed ∧ t.status = .invalidParameter .corruptTable ∧
      { t with badTable := s.badTable, fsm := s.fsm, run := s.run, status := s.status, point := s.point } = s

/-- R61, U23: SRC bytes at index `8 + compSize` and above have no effect on any step of a decode. -/
def Obligations.SurplusSourceIsNeverRead : Prop :=
  ∀ (s : State) (m : Memory), s.run = .decode → s.inPos + s.compRemaining = s.compSize.toNat →
    (∀ a, a < 8 + s.compSize.toNat → Memory.read m a = s.src.read a) →
    match step s, step { s with src := m } with
    | .next t, .next u => u = { t with src := m }
    | .fault a, .fault b => a = b
    | .refused a, .refused b => a = b
    | _, _ => False

/-! ### Invariants and whole runs -/

/-- The reset state meets the invariant. -/
def Obligations.ResetMeetsTheInvariant : Prop := State.reset.Inv

/-- What the host does between commands keeps the invariant (R263). -/
def Obligations.HostActionsKeepTheInvariant : Prop :=
  ∀ (s : State) (bytes : List Byte) (c : Command) (p d k e : Bool), s.Inv → s.run = .idle →
    (s.placeSource bytes p).Inv ∧ (s.provide bytes p d k).Inv ∧ (s.issue c e).Inv

/-- R47: every step from a state that meets the invariant ends in one that does: the reader stands in the stream, SRC and DST
are in bounds and canonical, `outPos` is at most `origSize`, no flag is set while decoding, and the grammar position stands. -/
def Obligations.EveryStepKeepsTheInvariant : Prop := ∀ s t : State, s.Inv → step s = .next t → t.Inv

/-- R62, R64: under the invariant no step leaves SRC or DST, none meets an element out of place, and none is ill formed. -/
def Obligations.NoStepLeavesTheMemories : Prop :=
  ∀ s : State, s.Inv → step s ≠ .fault .accessOutOfBounds ∧ step s ≠ .refused .outOfPlace ∧
    step s ≠ .refused .illFormed

/-- R262: a decode that ends without `BadTable` ends with `Success` and a full destination. -/
def Obligations.SuccessMeansTheDestinationIsFull : Prop :=
  ∀ s t : State, s.Inv → s.run = .decode → step s = .next t → t.run = .idle → t.badTable = false →
    t.status = .success ∧ t.outPos = t.origSize.toNat ∧ t.dst = s.dst

/-- R17, R212, R231: running element by element does what one pass of the spec's pseudocode does: the same state, the same
`BadTable`, the same fault. -/
def Obligations.ElementStepsRefineOnePass : Prop :=
  ∀ s : State, s.Inv → s.run = .decode → s.passStart = true → (s.fsm = .decodingBlock → s.blockCount ≠ 0) →
    s.hasRoom = true →
    match s.expandPass with
    | .ok (_, t) => ∃ k, Host.Core.run Sys2Proof.core k s = .next t
    | .error (.badTable t) => ∃ k, Host.Core.run Sys2Proof.core k s = .next t.raiseBadTable
    | .error (.fault f) => ∃ k, Host.Core.run Sys2Proof.core k s = .fault f

/-- R240: no input makes the CORE loop for ever: a decode has ended after at most 600 steps for each byte still to write, and
600 more. -/
def Obligations.EveryDecodeEnds : Prop :=
  ∀ s t : State, s.Inv → s.run = .decode →
    Host.Core.run Sys2Proof.core (600 * (s.origSize.toNat - s.outPos) + 600) s = .next t → t.run = .idle
end

