-- ==== Sys2Proof/Laws/Bits.lean ====
section
/-! SUPPORT. Bit lists: `field` reads back what `toBits` wrote, `ones` counts an opening run. -/

namespace Sys2Proof

@[simp] theorem toBits_zero (v : Nat) : toBits 0 v = [] := rfl

@[simp] theorem length_toBits (n v : Nat) : (toBits n v).length = n := by
  induction n with
  | zero => rfl
  | succ n ih => simp [toBits, ih]

@[simp] theorem field_zero (b : List Bool) : field 0 b = 0 := by cases b <;> rfl

@[simp] theorem field_nil (n : Nat) : field n [] = 0 := by cases n <;> rfl

theorem field_cons (n : Nat) (x : Bool) (b : List Bool) :
    field (n + 1) (x :: b) = (if x then 2 ^ n else 0) + field n b := rfl

theorem field_lt (n : Nat) (b : List Bool) : field n b < 2 ^ n := by
  induction n generalizing b with
  | zero => simp
  | succ n ih =>
    cases b with
    | nil => simp
    | cons x b =>
      have h := ih b
      rw [field_cons, Nat.pow_succ]
      split <;> omega

theorem mod_two_pow_succ (v n : Nat) :
    v % 2 ^ (n + 1) = (if v.testBit n then 2 ^ n else 0) + v % 2 ^ n := by
  rw [Nat.mod_pow_succ, Nat.testBit_eq_decide_div_mod_eq]
  rcases Nat.mod_two_eq_zero_or_one (v / 2 ^ n) with h | h <;> simp [h, Nat.add_comm]

/-- Reading `n` bits gives back the low `n` bits written. -/
@[simp] theorem field_toBits_append (n v : Nat) (rest : List Bool) : field n (toBits n v ++ rest) = v % 2 ^ n := by
  induction n with
  | zero => simp [Nat.mod_one]
  | succ n ih => rw [toBits, List.cons_append, field_cons, ih, mod_two_pow_succ]

@[simp] theorem field_toBits (n v : Nat) : field n (toBits n v) = v % 2 ^ n := by
  simpa using field_toBits_append n v []

/-- A shorter field is the top part of a longer one. -/
theorem field_add (m n : Nat) (b : List Bool) : field (m + n) b = 2 ^ n * field m b + field n (b.drop m) := by
  induction m generalizing b with
  | zero => simp
  | succ m ih =>
    cases b with
    | nil => simp
    | cons x b =>
      rw [show m + 1 + n = (m + n) + 1 by omega, field_cons, field_cons, ih, List.drop_succ_cons, Nat.mul_add,
        Nat.pow_add]
      cases x <;> simp [Nat.mul_comm, Nat.add_assoc]

/-- The first `m` of the `n` bits of a number. -/
theorem field_toBits_le {m n : Nat} (h : m ≤ n) (v : Nat) : field m (toBits n v) = v % 2 ^ n / 2 ^ (n - m) := by
  obtain ⟨k, rfl⟩ := Nat.exists_eq_add_of_le h
  have hadd := field_add m k (toBits (m + k) v)
  rw [field_toBits] at hadd
  have hlt := field_lt k ((toBits (m + k) v).drop m)
  rw [hadd, Nat.add_sub_cancel_left, Nat.mul_add_div (Nat.two_pow_pos k), Nat.div_eq_of_lt hlt, Nat.add_zero]

@[simp] theorem drop_toBits_append (n v : Nat) (rest : List Bool) : (toBits n v ++ rest).drop n = rest := by
  conv_lhs => rw [← length_toBits n v]
  simp

end Sys2Proof
end

