-- ==== Sys2Proof/Laws/Memory.lean ====
section
/-! SUPPORT. The memories and arrays: a read after a write, and that every operation keeps the canonical form. -/

namespace Sys2Proof.Machine

/-! ### The canonical form -/

theorem Memory.wfFrom_cons {lo i : Nat} {b : Byte} {m : Memory} :
    Memory.wfFrom lo ((i, b) :: m) = true ↔ lo ≤ i ∧ b ≠ 0 ∧ Memory.wfFrom (i + 1) m = true := by
  simp [Memory.wfFrom, and_assoc]

theorem Memory.wfFrom_mono {lo lo' : Nat} {m : Memory} (h : lo' ≤ lo) (hm : Memory.wfFrom lo m = true) :
    Memory.wfFrom lo' m = true := by
  cases m with
  | nil => rfl
  | cons c m =>
    obtain ⟨i, b⟩ := c
    rw [Memory.wfFrom_cons] at hm ⊢
    exact ⟨by omega, hm.2⟩

theorem Memory.wfFrom_write {lo a : Nat} {v : Byte} {m : Memory} (hlo : lo ≤ a) (hm : Memory.wfFrom lo m = true) :
    Memory.wfFrom lo (Memory.write m a v) = true := by
  induction m generalizing lo with
  | nil =>
    unfold Memory.write
    split
    · rfl
    · exact Memory.wfFrom_cons.2 ⟨hlo, ‹_›, rfl⟩
  | cons c m ih =>
    obtain ⟨i, b⟩ := c
    have hc := Memory.wfFrom_cons.1 hm
    unfold Memory.write
    split
    · split
      · exact hm
      · exact Memory.wfFrom_cons.2 ⟨hlo, ‹_›, Memory.wfFrom_cons.2 ⟨by omega, hc.2⟩⟩
    · split
      · rename_i heq
        split
        · exact Memory.wfFrom_mono (by omega) hc.2.2
        · exact Memory.wfFrom_cons.2 ⟨hlo, ‹_›, heq ▸ hc.2.2⟩
      · exact Memory.wfFrom_cons.2 ⟨hc.1, hc.2.1, ih (by omega) hc.2.2⟩

/-- A store keeps the canonical form. -/
theorem Memory.wf_write {m : Memory} (a : Nat) (v : Byte) (hm : m.wf = true) : (m.write a v).wf = true :=
  Memory.wfFrom_write (Nat.zero_le a) hm

theorem Memory.wfFrom_ofBytes (at0 : Nat) (l : List Byte) : Memory.wfFrom at0 (Memory.ofBytes at0 l) = true := by
  induction l generalizing at0 with
  | nil => rfl
  | cons b l ih =>
    unfold Memory.ofBytes
    split
    · exact Memory.wfFrom_mono (Nat.le_succ at0) (ih _)
    · exact Memory.wfFrom_cons.2 ⟨Nat.le_refl _, ‹_›, ih _⟩

/-- A buffer the host places has the canonical form. -/
theorem Memory.wf_ofBytes (l : List Byte) : (Memory.ofBytes 0 l).wf = true := Memory.wfFrom_ofBytes 0 l

@[simp] theorem Memory.wf_nil : Memory.wf [] = true := rfl

/-! ### Reads -/

@[simp] theorem Memory.read_nil (a : Nat) : Memory.read [] a = 0 := rfl

theorem Memory.read_cons (i : Nat) (b : Byte) (m : Memory) (a : Nat) :
    Memory.read ((i, b) :: m) a = if a < i then 0 else if a = i then b else Memory.read m a := rfl

theorem Memory.read_below {lo a : Nat} {m : Memory} (hm : Memory.wfFrom lo m = true) (h : a < lo) :
    Memory.read m a = 0 := by
  cases m with
  | nil => rfl
  | cons c m =>
    obtain ⟨i, b⟩ := c
    have hc := Memory.wfFrom_cons.1 hm
    rw [Memory.read_cons, if_pos (by omega)]

theorem Memory.read_write_from {lo : Nat} {m : Memory} (hm : Memory.wfFrom lo m = true) (a a' : Nat) (v : Byte) :
    Memory.read (Memory.write m a v) a' = if a' = a then v else Memory.read m a' := by
  induction m generalizing lo with
  | nil =>
    unfold Memory.write
    split
    · next h => subst h; simp
    · rw [Memory.read_cons]
      rcases Nat.lt_trichotomy a' a with h | h | h
      · simp [h, Nat.ne_of_lt h]
      · simp [h]
      · simp [Nat.not_lt.2 (Nat.le_of_lt h), Nat.ne_of_gt h]
  | cons c m ih =>
    obtain ⟨i, b⟩ := c
    have hc := Memory.wfFrom_cons.1 hm
    have below : ∀ {x}, x ≤ i → Memory.read m x = 0 := fun h => Memory.read_below hc.2.2 (by omega)
    unfold Memory.write
    split
    · next hlt =>
      split
      · next hv =>
        subst hv
        split
        · next h => rw [h, Memory.read_cons, if_pos hlt]
        · rfl
      · rw [Memory.read_cons a v]
        rcases Nat.lt_trichotomy a' a with h | h | h
        · rw [if_pos h, if_neg (by omega), Memory.read_cons, if_pos (by omega)]
        · rw [if_neg (by omega), if_pos h]
        · rw [if_neg (by omega), if_neg (by omega)]
    · split
      · next heq =>
        subst heq
        split
        · next hv =>
          subst hv
          split
          · next h => rw [h]; exact below (Nat.le_refl _)
          · next h =>
            rw [Memory.read_cons]
            rcases Nat.lt_trichotomy a' a with h' | h' | h'
            · rw [if_pos h']; exact below (Nat.le_of_lt h')
            · exact absurd h' h
            · rw [if_neg (by omega), if_neg (by omega)]
        · rw [Memory.read_cons, Memory.read_cons]
          rcases Nat.lt_trichotomy a' a with h | h | h
          · rw [if_pos h, if_neg (by omega), if_pos h]
          · rw [if_neg (by omega), if_pos h, if_pos h]
          · rw [if_neg (by omega), if_neg (by omega), if_neg (by omega), if_neg (by omega), if_neg (by omega)]
      · next h1 h2 =>
        rw [Memory.read_cons, Memory.read_cons, ih hc.2.2]
        rcases Nat.lt_trichotomy a' i with h | h | h
        · rw [if_pos h, if_neg (by omega), if_pos h]
        · rw [if_neg (by omega), if_pos h, if_neg (by omega), if_neg (by omega), if_pos h]
        · rw [if_neg (by omega), if_neg (by omega)]
          simp [Nat.not_lt.2 (Nat.le_of_lt h), Nat.ne_of_gt h]

/-- Reading after a store. -/
theorem Memory.read_write {m : Memory} (hm : m.wf = true) (a a' : Nat) (v : Byte) :
    Memory.read (m.write a v) a' = if a' = a then v else m.read a' := Memory.read_write_from hm a a' v

/-- Reading a placed buffer. -/
theorem Memory.read_ofBytes (at0 : Nat) (l : List Byte) (a : Nat) :
    Memory.read (Memory.ofBytes at0 l) a = if at0 ≤ a then l.getD (a - at0) 0 else 0 := by
  induction l generalizing at0 with
  | nil => simp [Memory.ofBytes]
  | cons b l ih =>
    unfold Memory.ofBytes
    rcases Nat.lt_trichotomy a at0 with h | h | h
    · split
      · rw [ih, if_neg (by omega), if_neg (by omega)]
      · rw [Memory.read_cons, if_pos h, if_neg (by omega)]
    · subst h
      split
      · next hb => rw [ih, if_neg (by omega)]; simp [hb]
      · rw [Memory.read_cons, if_neg (by omega), if_pos rfl]; simp
    · have hd : a - at0 = (a - (at0 + 1)) + 1 := by omega
      split
      · rw [ih, if_pos (by omega), if_pos (by omega), hd, List.getD_cons_succ]
      · rw [Memory.read_cons, if_neg (by omega), if_neg (by omega), ih, if_pos (by omega), if_pos (by omega), hd,
          List.getD_cons_succ]

/-! ### Arrays -/

theorem Tab.read_write {n : Nat} (t : Tab n) (i v j : Nat) :
    (t.write i v).read j = if j = i ∧ i < n then v else t.read j := by
  unfold Tab.read Tab.write
  rw [Vector.getElem?_setIfInBounds]
  by_cases h : i = j
  · subst h
    by_cases hi : i < n <;> simp [hi]
  · simp [h, Ne.symm h]

theorem getElem?_fillList (v a k : Nat) (l : List Nat) (j : Nat) :
    (fillList v a k l)[j]? = if j < l.length ∧ a ≤ j ∧ j < a + k then some v else l[j]? := by
  induction l generalizing a k j with
  | nil => cases a <;> cases k <;> simp [fillList]
  | cons x xs ih =>
    cases a with
    | zero =>
      cases k with
      | zero => cases j <;> simp [fillList]
      | succ k =>
        cases j with
        | zero => simp [fillList]
        | succ j => simp [fillList, ih]
    | succ a =>
      cases j with
      | zero => simp [fillList]
      | succ j => simp [fillList, ih, Nat.succ_add]

theorem Tab.read_fill {n : Nat} (t : Tab n) (a k v j : Nat) :
    (t.fill a k v).read j = if j < n ∧ a ≤ j ∧ j < a + k then v else t.read j := by
  have h : (t.fill a k v)[j]? = (fillList v a k t.toList)[j]? := by
    unfold Tab.fill
    simp
  unfold Tab.read
  rw [h, getElem?_fillList]
  simp only [Vector.length_toList, Vector.getElem?_toList]
  split <;> rfl

@[simp] theorem Tab.read_replicate (n v j : Nat) :
    Tab.read (Vector.replicate n v) j = if j < n then v else 0 := by
  unfold Tab.read
  by_cases h : j < n <;> simp [h]

end Sys2Proof.Machine
end

