-- ==== Sys2Proof/Laws/State.lean ====
section
/-! SUPPORT. One lemma per field per named update of State, so that no proof unfolds a record update. -/

namespace Sys2Proof.Machine

/-! ### `latchBadTable` -/

@[simp] theorem latchBadTable_bitBuf (s : State) : s.latchBadTable.bitBuf = s.bitBuf := rfl
@[simp] theorem latchBadTable_subBitBuf (s : State) : s.latchBadTable.subBitBuf = s.subBitBuf := rfl
@[simp] theorem latchBadTable_bitCount (s : State) : s.latchBadTable.bitCount = s.bitCount := rfl
@[simp] theorem latchBadTable_inPos (s : State) : s.latchBadTable.inPos = s.inPos := rfl
@[simp] theorem latchBadTable_compRemaining (s : State) : s.latchBadTable.compRemaining = s.compRemaining := rfl
@[simp] theorem latchBadTable_blockCount (s : State) : s.latchBadTable.blockCount = s.blockCount := rfl
@[simp] theorem latchBadTable_outPos (s : State) : s.latchBadTable.outPos = s.outPos := rfl
@[simp] theorem latchBadTable_fsm (s : State) : s.latchBadTable.fsm = .failed := rfl
@[simp] theorem latchBadTable_badTable (s : State) : s.latchBadTable.badTable = true := rfl
@[simp] theorem latchBadTable_srcLen (s : State) : s.latchBadTable.srcLen = s.srcLen := rfl
@[simp] theorem latchBadTable_compSize (s : State) : s.latchBadTable.compSize = s.compSize := rfl
@[simp] theorem latchBadTable_origSize (s : State) : s.latchBadTable.origSize = s.origSize := rfl
@[simp] theorem latchBadTable_scratchSize (s : State) : s.latchBadTable.scratchSize = s.scratchSize := rfl
@[simp] theorem latchBadTable_pBit (s : State) : s.latchBadTable.pBit = s.pBit := rfl
@[simp] theorem latchBadTable_status (s : State) : s.latchBadTable.status = s.status := rfl
@[simp] theorem latchBadTable_ptLen (s : State) : s.latchBadTable.ptLen = s.ptLen := rfl
@[simp] theorem latchBadTable_cLen (s : State) : s.latchBadTable.cLen = s.cLen := rfl
@[simp] theorem latchBadTable_ptTable (s : State) : s.latchBadTable.ptTable = s.ptTable := rfl
@[simp] theorem latchBadTable_cTable (s : State) : s.latchBadTable.cTable = s.cTable := rfl
@[simp] theorem latchBadTable_left (s : State) : s.latchBadTable.left = s.left := rfl
@[simp] theorem latchBadTable_right (s : State) : s.latchBadTable.right = s.right := rfl
@[simp] theorem latchBadTable_src (s : State) : s.latchBadTable.src = s.src := rfl
@[simp] theorem latchBadTable_dst (s : State) : s.latchBadTable.dst = s.dst := rfl
@[simp] theorem latchBadTable_run (s : State) : s.latchBadTable.run = s.run := rfl
@[simp] theorem latchBadTable_point (s : State) : s.latchBadTable.point = s.point := rfl
@[simp] theorem latchBadTable_grant (s : State) : s.latchBadTable.grant = s.grant := rfl
@[simp] theorem latchBadTable_freeCount (s : State) : s.latchBadTable.freeCount = s.freeCount := rfl

/-! ### `endCommand` -/

@[simp] theorem endCommand_bitBuf (s : State) (st : Status) : (s.endCommand st).bitBuf = s.bitBuf := rfl
@[simp] theorem endCommand_subBitBuf (s : State) (st : Status) : (s.endCommand st).subBitBuf = s.subBitBuf := rfl
@[simp] theorem endCommand_bitCount (s : State) (st : Status) : (s.endCommand st).bitCount = s.bitCount := rfl
@[simp] theorem endCommand_inPos (s : State) (st : Status) : (s.endCommand st).inPos = s.inPos := rfl
@[simp] theorem endCommand_compRemaining (s : State) (st : Status) : (s.endCommand st).compRemaining = s.compRemaining := rfl
@[simp] theorem endCommand_blockCount (s : State) (st : Status) : (s.endCommand st).blockCount = s.blockCount := rfl
@[simp] theorem endCommand_outPos (s : State) (st : Status) : (s.endCommand st).outPos = s.outPos := rfl
@[simp] theorem endCommand_fsm (s : State) (st : Status) : (s.endCommand st).fsm = s.fsm := rfl
@[simp] theorem endCommand_badTable (s : State) (st : Status) : (s.endCommand st).badTable = s.badTable := rfl
@[simp] theorem endCommand_srcLen (s : State) (st : Status) : (s.endCommand st).srcLen = s.srcLen := rfl
@[simp] theorem endCommand_compSize (s : State) (st : Status) : (s.endCommand st).compSize = s.compSize := rfl
@[simp] theorem endCommand_origSize (s : State) (st : Status) : (s.endCommand st).origSize = s.origSize := rfl
@[simp] theorem endCommand_scratchSize (s : State) (st : Status) : (s.endCommand st).scratchSize = s.scratchSize := rfl
@[simp] theorem endCommand_pBit (s : State) (st : Status) : (s.endCommand st).pBit = s.pBit := rfl
@[simp] theorem endCommand_status (s : State) (st : Status) : (s.endCommand st).status = st := rfl
@[simp] theorem endCommand_ptLen (s : State) (st : Status) : (s.endCommand st).ptLen = s.ptLen := rfl
@[simp] theorem endCommand_cLen (s : State) (st : Status) : (s.endCommand st).cLen = s.cLen := rfl
@[simp] theorem endCommand_ptTable (s : State) (st : Status) : (s.endCommand st).ptTable = s.ptTable := rfl
@[simp] theorem endCommand_cTable (s : State) (st : Status) : (s.endCommand st).cTable = s.cTable := rfl
@[simp] theorem endCommand_left (s : State) (st : Status) : (s.endCommand st).left = s.left := rfl
@[simp] theorem endCommand_right (s : State) (st : Status) : (s.endCommand st).right = s.right := rfl
@[simp] theorem endCommand_src (s : State) (st : Status) : (s.endCommand st).src = s.src := rfl
@[simp] theorem endCommand_dst (s : State) (st : Status) : (s.endCommand st).dst = s.dst := rfl
@[simp] theorem endCommand_run (s : State) (st : Status) : (s.endCommand st).run = .idle := rfl
@[simp] theorem endCommand_point (s : State) (st : Status) : (s.endCommand st).point = .start := rfl
@[simp] theorem endCommand_grant (s : State) (st : Status) : (s.endCommand st).grant = s.grant := rfl
@[simp] theorem endCommand_freeCount (s : State) (st : Status) : (s.endCommand st).freeCount = s.freeCount := rfl

/-! ### `succeed` -/

@[simp] theorem succeed_bitBuf (s : State) : s.succeed.bitBuf = s.bitBuf := rfl
@[simp] theorem succeed_subBitBuf (s : State) : s.succeed.subBitBuf = s.subBitBuf := rfl
@[simp] theorem succeed_bitCount (s : State) : s.succeed.bitCount = s.bitCount := rfl
@[simp] theorem succeed_inPos (s : State) : s.succeed.inPos = s.inPos := rfl
@[simp] theorem succeed_compRemaining (s : State) : s.succeed.compRemaining = s.compRemaining := rfl
@[simp] theorem succeed_blockCount (s : State) : s.succeed.blockCount = s.blockCount := rfl
@[simp] theorem succeed_outPos (s : State) : s.succeed.outPos = s.outPos := rfl
@[simp] theorem succeed_fsm (s : State) : s.succeed.fsm = s.fsm := rfl
@[simp] theorem succeed_badTable (s : State) : s.succeed.badTable = s.badTable := rfl
@[simp] theorem succeed_srcLen (s : State) : s.succeed.srcLen = s.srcLen := rfl
@[simp] theorem succeed_compSize (s : State) : s.succeed.compSize = s.compSize := rfl
@[simp] theorem succeed_origSize (s : State) : s.succeed.origSize = s.origSize := rfl
@[simp] theorem succeed_scratchSize (s : State) : s.succeed.scratchSize = s.scratchSize := rfl
@[simp] theorem succeed_pBit (s : State) : s.succeed.pBit = s.pBit := rfl
@[simp] theorem succeed_status (s : State) : s.succeed.status = .success := rfl
@[simp] theorem succeed_ptLen (s : State) : s.succeed.ptLen = s.ptLen := rfl
@[simp] theorem succeed_cLen (s : State) : s.succeed.cLen = s.cLen := rfl
@[simp] theorem succeed_ptTable (s : State) : s.succeed.ptTable = s.ptTable := rfl
@[simp] theorem succeed_cTable (s : State) : s.succeed.cTable = s.cTable := rfl
@[simp] theorem succeed_left (s : State) : s.succeed.left = s.left := rfl
@[simp] theorem succeed_right (s : State) : s.succeed.right = s.right := rfl
@[simp] theorem succeed_src (s : State) : s.succeed.src = s.src := rfl
@[simp] theorem succeed_dst (s : State) : s.succeed.dst = s.dst := rfl
@[simp] theorem succeed_run (s : State) : s.succeed.run = .idle := rfl
@[simp] theorem succeed_point (s : State) : s.succeed.point = .start := rfl
@[simp] theorem succeed_grant (s : State) : s.succeed.grant = s.grant := rfl
@[simp] theorem succeed_freeCount (s : State) : s.succeed.freeCount = s.freeCount := rfl

/-! ### `raiseTruncated` -/

@[simp] theorem raiseTruncated_bitBuf (s : State) : s.raiseTruncated.bitBuf = s.bitBuf := rfl
@[simp] theorem raiseTruncated_subBitBuf (s : State) : s.raiseTruncated.subBitBuf = s.subBitBuf := rfl
@[simp] theorem raiseTruncated_bitCount (s : State) : s.raiseTruncated.bitCount = s.bitCount := rfl
@[simp] theorem raiseTruncated_inPos (s : State) : s.raiseTruncated.inPos = s.inPos := rfl
@[simp] theorem raiseTruncated_compRemaining (s : State) : s.raiseTruncated.compRemaining = s.compRemaining := rfl
@[simp] theorem raiseTruncated_blockCount (s : State) : s.raiseTruncated.blockCount = s.blockCount := rfl
@[simp] theorem raiseTruncated_outPos (s : State) : s.raiseTruncated.outPos = s.outPos := rfl
@[simp] theorem raiseTruncated_fsm (s : State) : s.raiseTruncated.fsm = s.fsm := rfl
@[simp] theorem raiseTruncated_badTable (s : State) : s.raiseTruncated.badTable = s.badTable := rfl
@[simp] theorem raiseTruncated_srcLen (s : State) : s.raiseTruncated.srcLen = s.srcLen := rfl
@[simp] theorem raiseTruncated_compSize (s : State) : s.raiseTruncated.compSize = Config.freeWord s.freeCount := rfl
@[simp] theorem raiseTruncated_origSize (s : State) : s.raiseTruncated.origSize = Config.freeWord (s.freeCount + 1) := rfl
@[simp] theorem raiseTruncated_scratchSize (s : State) : s.raiseTruncated.scratchSize = Config.freeSize s.freeCount := rfl
@[simp] theorem raiseTruncated_pBit (s : State) : s.raiseTruncated.pBit = s.pBit := rfl
@[simp] theorem raiseTruncated_status (s : State) : s.raiseTruncated.status = .invalidParameter .truncatedHeader := rfl
@[simp] theorem raiseTruncated_ptLen (s : State) : s.raiseTruncated.ptLen = s.ptLen := rfl
@[simp] theorem raiseTruncated_cLen (s : State) : s.raiseTruncated.cLen = s.cLen := rfl
@[simp] theorem raiseTruncated_ptTable (s : State) : s.raiseTruncated.ptTable = s.ptTable := rfl
@[simp] theorem raiseTruncated_cTable (s : State) : s.raiseTruncated.cTable = s.cTable := rfl
@[simp] theorem raiseTruncated_left (s : State) : s.raiseTruncated.left = s.left := rfl
@[simp] theorem raiseTruncated_right (s : State) : s.raiseTruncated.right = s.right := rfl
@[simp] theorem raiseTruncated_src (s : State) : s.raiseTruncated.src = s.src := rfl
@[simp] theorem raiseTruncated_dst (s : State) : s.raiseTruncated.dst = s.dst := rfl
@[simp] theorem raiseTruncated_run (s : State) : s.raiseTruncated.run = .idle := rfl
@[simp] theorem raiseTruncated_point (s : State) : s.raiseTruncated.point = .start := rfl
@[simp] theorem raiseTruncated_grant (s : State) : s.raiseTruncated.grant = s.grant := rfl
@[simp] theorem raiseTruncated_freeCount (s : State) : s.raiseTruncated.freeCount = s.freeCount + 2 := rfl

/-! ### `raiseBadTable` -/

@[simp] theorem raiseBadTable_bitBuf (s : State) : s.raiseBadTable.bitBuf = s.bitBuf := rfl
@[simp] theorem raiseBadTable_subBitBuf (s : State) : s.raiseBadTable.subBitBuf = s.subBitBuf := rfl
@[simp] theorem raiseBadTable_bitCount (s : State) : s.raiseBadTable.bitCount = s.bitCount := rfl
@[simp] theorem raiseBadTable_inPos (s : State) : s.raiseBadTable.inPos = s.inPos := rfl
@[simp] theorem raiseBadTable_compRemaining (s : State) : s.raiseBadTable.compRemaining = s.compRemaining := rfl
@[simp] theorem raiseBadTable_blockCount (s : State) : s.raiseBadTable.blockCount = s.blockCount := rfl
@[simp] theorem raiseBadTable_outPos (s : State) : s.raiseBadTable.outPos = s.outPos := rfl
@[simp] theorem raiseBadTable_fsm (s : State) : s.raiseBadTable.fsm = .failed := rfl
@[simp] theorem raiseBadTable_badTable (s : State) : s.raiseBadTable.badTable = true := rfl
@[simp] theorem raiseBadTable_srcLen (s : State) : s.raiseBadTable.srcLen = s.srcLen := rfl
@[simp] theorem raiseBadTable_compSize (s : State) : s.raiseBadTable.compSize = s.compSize := rfl
@[simp] theorem raiseBadTable_origSize (s : State) : s.raiseBadTable.origSize = s.origSize := rfl
@[simp] theorem raiseBadTable_scratchSize (s : State) : s.raiseBadTable.scratchSize = s.scratchSize := rfl
@[simp] theorem raiseBadTable_pBit (s : State) : s.raiseBadTable.pBit = s.pBit := rfl
@[simp] theorem raiseBadTable_status (s : State) : s.raiseBadTable.status = .invalidParameter .corruptTable := rfl
@[simp] theorem raiseBadTable_ptLen (s : State) : s.raiseBadTable.ptLen = s.ptLen := rfl
@[simp] theorem raiseBadTable_cLen (s : State) : s.raiseBadTable.cLen = s.cLen := rfl
@[simp] theorem raiseBadTable_ptTable (s : State) : s.raiseBadTable.ptTable = s.ptTable := rfl
@[simp] theorem raiseBadTable_cTable (s : State) : s.raiseBadTable.cTable = s.cTable := rfl
@[simp] theorem raiseBadTable_left (s : State) : s.raiseBadTable.left = s.left := rfl
@[simp] theorem raiseBadTable_right (s : State) : s.raiseBadTable.right = s.right := rfl
@[simp] theorem raiseBadTable_src (s : State) : s.raiseBadTable.src = s.src := rfl
@[simp] theorem raiseBadTable_dst (s : State) : s.raiseBadTable.dst = s.dst := rfl
@[simp] theorem raiseBadTable_run (s : State) : s.raiseBadTable.run = .idle := rfl
@[simp] theorem raiseBadTable_point (s : State) : s.raiseBadTable.point = .start := rfl
@[simp] theorem raiseBadTable_grant (s : State) : s.raiseBadTable.grant = s.grant := rfl
@[simp] theorem raiseBadTable_freeCount (s : State) : s.raiseBadTable.freeCount = s.freeCount := rfl

/-! ### `issue` -/

@[simp] theorem issue_bitBuf (s : State) (c : Command) (e : Bool) : (s.issue c e).bitBuf = s.bitBuf := rfl
@[simp] theorem issue_subBitBuf (s : State) (c : Command) (e : Bool) : (s.issue c e).subBitBuf = s.subBitBuf := rfl
@[simp] theorem issue_bitCount (s : State) (c : Command) (e : Bool) : (s.issue c e).bitCount = s.bitCount := rfl
@[simp] theorem issue_inPos (s : State) (c : Command) (e : Bool) : (s.issue c e).inPos = s.inPos := rfl
@[simp] theorem issue_compRemaining (s : State) (c : Command) (e : Bool) : (s.issue c e).compRemaining = s.compRemaining := rfl
@[simp] theorem issue_blockCount (s : State) (c : Command) (e : Bool) : (s.issue c e).blockCount = s.blockCount := rfl
@[simp] theorem issue_outPos (s : State) (c : Command) (e : Bool) : (s.issue c e).outPos = s.outPos := rfl
@[simp] theorem issue_fsm (s : State) (c : Command) (e : Bool) : (s.issue c e).fsm = s.fsm := rfl
@[simp] theorem issue_badTable (s : State) (c : Command) (e : Bool) : (s.issue c e).badTable = s.badTable := rfl
@[simp] theorem issue_srcLen (s : State) (c : Command) (e : Bool) : (s.issue c e).srcLen = s.srcLen := rfl
@[simp] theorem issue_compSize (s : State) (c : Command) (e : Bool) : (s.issue c e).compSize = s.compSize := rfl
@[simp] theorem issue_origSize (s : State) (c : Command) (e : Bool) : (s.issue c e).origSize = s.origSize := rfl
@[simp] theorem issue_scratchSize (s : State) (c : Command) (e : Bool) : (s.issue c e).scratchSize = s.scratchSize := rfl
@[simp] theorem issue_pBit (s : State) (c : Command) (e : Bool) : (s.issue c e).pBit = s.pBit := rfl
@[simp] theorem issue_status (s : State) (c : Command) (e : Bool) : (s.issue c e).status = s.status := rfl
@[simp] theorem issue_ptLen (s : State) (c : Command) (e : Bool) : (s.issue c e).ptLen = s.ptLen := rfl
@[simp] theorem issue_cLen (s : State) (c : Command) (e : Bool) : (s.issue c e).cLen = s.cLen := rfl
@[simp] theorem issue_ptTable (s : State) (c : Command) (e : Bool) : (s.issue c e).ptTable = s.ptTable := rfl
@[simp] theorem issue_cTable (s : State) (c : Command) (e : Bool) : (s.issue c e).cTable = s.cTable := rfl
@[simp] theorem issue_left (s : State) (c : Command) (e : Bool) : (s.issue c e).left = s.left := rfl
@[simp] theorem issue_right (s : State) (c : Command) (e : Bool) : (s.issue c e).right = s.right := rfl
@[simp] theorem issue_src (s : State) (c : Command) (e : Bool) : (s.issue c e).src = s.src := rfl
@[simp] theorem issue_dst (s : State) (c : Command) (e : Bool) : (s.issue c e).dst = s.dst := rfl
@[simp] theorem issue_run (s : State) (c : Command) (e : Bool) : (s.issue c e).run = .header c := rfl
@[simp] theorem issue_point (s : State) (c : Command) (e : Bool) : (s.issue c e).point = s.point := rfl
@[simp] theorem issue_grant (s : State) (c : Command) (e : Bool) : (s.issue c e).grant = { s.grant with exclusive := e } := rfl
@[simp] theorem issue_freeCount (s : State) (c : Command) (e : Bool) : (s.issue c e).freeCount = s.freeCount := rfl

/-! ### `parseHeader` -/

@[simp] theorem parseHeader_bitBuf (s : State) (comp orig : BitVec 32) : (s.parseHeader comp orig).bitBuf = s.bitBuf := rfl
@[simp] theorem parseHeader_subBitBuf (s : State) (comp orig : BitVec 32) : (s.parseHeader comp orig).subBitBuf = s.subBitBuf := rfl
@[simp] theorem parseHeader_bitCount (s : State) (comp orig : BitVec 32) : (s.parseHeader comp orig).bitCount = s.bitCount := rfl
@[simp] theorem parseHeader_inPos (s : State) (comp orig : BitVec 32) : (s.parseHeader comp orig).inPos = s.inPos := rfl
@[simp] theorem parseHeader_compRemaining (s : State) (comp orig : BitVec 32) : (s.parseHeader comp orig).compRemaining = s.compRemaining := rfl
@[simp] theorem parseHeader_blockCount (s : State) (comp orig : BitVec 32) : (s.parseHeader comp orig).blockCount = s.blockCount := rfl
@[simp] theorem parseHeader_outPos (s : State) (comp orig : BitVec 32) : (s.parseHeader comp orig).outPos = s.outPos := rfl
@[simp] theorem parseHeader_fsm (s : State) (comp orig : BitVec 32) : (s.parseHeader comp orig).fsm = s.fsm := rfl
@[simp] theorem parseHeader_badTable (s : State) (comp orig : BitVec 32) : (s.parseHeader comp orig).badTable = s.badTable := rfl
@[simp] theorem parseHeader_srcLen (s : State) (comp orig : BitVec 32) : (s.parseHeader comp orig).srcLen = s.srcLen := rfl
@[simp] theorem parseHeader_compSize (s : State) (comp orig : BitVec 32) : (s.parseHeader comp orig).compSize = comp := rfl
@[simp] theorem parseHeader_origSize (s : State) (comp orig : BitVec 32) : (s.parseHeader comp orig).origSize = orig := rfl
@[simp] theorem parseHeader_scratchSize (s : State) (comp orig : BitVec 32) : (s.parseHeader comp orig).scratchSize = s.scratchSize := rfl
@[simp] theorem parseHeader_pBit (s : State) (comp orig : BitVec 32) : (s.parseHeader comp orig).pBit = s.pBit := rfl
@[simp] theorem parseHeader_status (s : State) (comp orig : BitVec 32) : (s.parseHeader comp orig).status = s.status := rfl
@[simp] theorem parseHeader_ptLen (s : State) (comp orig : BitVec 32) : (s.parseHeader comp orig).ptLen = s.ptLen := rfl
@[simp] theorem parseHeader_cLen (s : State) (comp orig : BitVec 32) : (s.parseHeader comp orig).cLen = s.cLen := rfl
@[simp] theorem parseHeader_ptTable (s : State) (comp orig : BitVec 32) : (s.parseHeader comp orig).ptTable = s.ptTable := rfl
@[simp] theorem parseHeader_cTable (s : State) (comp orig : BitVec 32) : (s.parseHeader comp orig).cTable = s.cTable := rfl
@[simp] theorem parseHeader_left (s : State) (comp orig : BitVec 32) : (s.parseHeader comp orig).left = s.left := rfl
@[simp] theorem parseHeader_right (s : State) (comp orig : BitVec 32) : (s.parseHeader comp orig).right = s.right := rfl
@[simp] theorem parseHeader_src (s : State) (comp orig : BitVec 32) : (s.parseHeader comp orig).src = s.src := rfl
@[simp] theorem parseHeader_dst (s : State) (comp orig : BitVec 32) : (s.parseHeader comp orig).dst = s.dst := rfl
@[simp] theorem parseHeader_run (s : State) (comp orig : BitVec 32) : (s.parseHeader comp orig).run = s.run := rfl
@[simp] theorem parseHeader_point (s : State) (comp orig : BitVec 32) : (s.parseHeader comp orig).point = s.point := rfl
@[simp] theorem parseHeader_grant (s : State) (comp orig : BitVec 32) : (s.parseHeader comp orig).grant = s.grant := rfl
@[simp] theorem parseHeader_freeCount (s : State) (comp orig : BitVec 32) : (s.parseHeader comp orig).freeCount = s.freeCount := rfl

/-! ### `startEntries` -/

@[simp] theorem startEntries_bitBuf (s : State) (number : Nat) : (s.startEntries number).bitBuf = s.bitBuf := rfl
@[simp] theorem startEntries_subBitBuf (s : State) (number : Nat) : (s.startEntries number).subBitBuf = s.subBitBuf := rfl
@[simp] theorem startEntries_bitCount (s : State) (number : Nat) : (s.startEntries number).bitCount = s.bitCount := rfl
@[simp] theorem startEntries_inPos (s : State) (number : Nat) : (s.startEntries number).inPos = s.inPos := rfl
@[simp] theorem startEntries_compRemaining (s : State) (number : Nat) : (s.startEntries number).compRemaining = s.compRemaining := rfl
@[simp] theorem startEntries_blockCount (s : State) (number : Nat) : (s.startEntries number).blockCount = s.blockCount := rfl
@[simp] theorem startEntries_outPos (s : State) (number : Nat) : (s.startEntries number).outPos = s.outPos := rfl
@[simp] theorem startEntries_fsm (s : State) (number : Nat) : (s.startEntries number).fsm = s.fsm := rfl
@[simp] theorem startEntries_badTable (s : State) (number : Nat) : (s.startEntries number).badTable = s.badTable := rfl
@[simp] theorem startEntries_srcLen (s : State) (number : Nat) : (s.startEntries number).srcLen = s.srcLen := rfl
@[simp] theorem startEntries_compSize (s : State) (number : Nat) : (s.startEntries number).compSize = s.compSize := rfl
@[simp] theorem startEntries_origSize (s : State) (number : Nat) : (s.startEntries number).origSize = s.origSize := rfl
@[simp] theorem startEntries_scratchSize (s : State) (number : Nat) : (s.startEntries number).scratchSize = s.scratchSize := rfl
@[simp] theorem startEntries_pBit (s : State) (number : Nat) : (s.startEntries number).pBit = s.pBit := rfl
@[simp] theorem startEntries_status (s : State) (number : Nat) : (s.startEntries number).status = s.status := rfl
@[simp] theorem startEntries_ptLen (s : State) (number : Nat) : (s.startEntries number).ptLen = s.ptLen := rfl
@[simp] theorem startEntries_cLen (s : State) (number : Nat) : (s.startEntries number).cLen = s.cLen := rfl
@[simp] theorem startEntries_ptTable (s : State) (number : Nat) : (s.startEntries number).ptTable = s.ptTable := rfl
@[simp] theorem startEntries_cTable (s : State) (number : Nat) : (s.startEntries number).cTable = s.cTable := rfl
@[simp] theorem startEntries_left (s : State) (number : Nat) : (s.startEntries number).left = s.left := rfl
@[simp] theorem startEntries_right (s : State) (number : Nat) : (s.startEntries number).right = s.right := rfl
@[simp] theorem startEntries_src (s : State) (number : Nat) : (s.startEntries number).src = s.src := rfl
@[simp] theorem startEntries_dst (s : State) (number : Nat) : (s.startEntries number).dst = s.dst := rfl
@[simp] theorem startEntries_run (s : State) (number : Nat) : (s.startEntries number).run = s.run := rfl
@[simp] theorem startEntries_point (s : State) (number : Nat) : (s.startEntries number).point = .entries number 0 := rfl
@[simp] theorem startEntries_grant (s : State) (number : Nat) : (s.startEntries number).grant = s.grant := rfl
@[simp] theorem startEntries_freeCount (s : State) (number : Nat) : (s.startEntries number).freeCount = s.freeCount := rfl

/-! ### `countSymbol` -/

@[simp] theorem countSymbol_bitBuf (s : State) : s.countSymbol.bitBuf = s.bitBuf := rfl
@[simp] theorem countSymbol_subBitBuf (s : State) : s.countSymbol.subBitBuf = s.subBitBuf := rfl
@[simp] theorem countSymbol_bitCount (s : State) : s.countSymbol.bitCount = s.bitCount := rfl
@[simp] theorem countSymbol_inPos (s : State) : s.countSymbol.inPos = s.inPos := rfl
@[simp] theorem countSymbol_compRemaining (s : State) : s.countSymbol.compRemaining = s.compRemaining := rfl
@[simp] theorem countSymbol_blockCount (s : State) : s.countSymbol.blockCount = s.blockCount - 1 := rfl
@[simp] theorem countSymbol_outPos (s : State) : s.countSymbol.outPos = s.outPos := rfl
@[simp] theorem countSymbol_fsm (s : State) : s.countSymbol.fsm = if s.blockCount - 1 = 0 then .needNewBlock else .decodingBlock := rfl
@[simp] theorem countSymbol_badTable (s : State) : s.countSymbol.badTable = s.badTable := rfl
@[simp] theorem countSymbol_srcLen (s : State) : s.countSymbol.srcLen = s.srcLen := rfl
@[simp] theorem countSymbol_compSize (s : State) : s.countSymbol.compSize = s.compSize := rfl
@[simp] theorem countSymbol_origSize (s : State) : s.countSymbol.origSize = s.origSize := rfl
@[simp] theorem countSymbol_scratchSize (s : State) : s.countSymbol.scratchSize = s.scratchSize := rfl
@[simp] theorem countSymbol_pBit (s : State) : s.countSymbol.pBit = s.pBit := rfl
@[simp] theorem countSymbol_status (s : State) : s.countSymbol.status = s.status := rfl
@[simp] theorem countSymbol_ptLen (s : State) : s.countSymbol.ptLen = s.ptLen := rfl
@[simp] theorem countSymbol_cLen (s : State) : s.countSymbol.cLen = s.cLen := rfl
@[simp] theorem countSymbol_ptTable (s : State) : s.countSymbol.ptTable = s.ptTable := rfl
@[simp] theorem countSymbol_cTable (s : State) : s.countSymbol.cTable = s.cTable := rfl
@[simp] theorem countSymbol_left (s : State) : s.countSymbol.left = s.left := rfl
@[simp] theorem countSymbol_right (s : State) : s.countSymbol.right = s.right := rfl
@[simp] theorem countSymbol_src (s : State) : s.countSymbol.src = s.src := rfl
@[simp] theorem countSymbol_dst (s : State) : s.countSymbol.dst = s.dst := rfl
@[simp] theorem countSymbol_run (s : State) : s.countSymbol.run = s.run := rfl
@[simp] theorem countSymbol_point (s : State) : s.countSymbol.point = s.point := rfl
@[simp] theorem countSymbol_grant (s : State) : s.countSymbol.grant = s.grant := rfl
@[simp] theorem countSymbol_freeCount (s : State) : s.countSymbol.freeCount = s.freeCount := rfl

/-! ### The bit reader writes its five registers only (R130) -/

@[simp] theorem refill_blockCount (s : State) (k : Nat) : (s.refill k).blockCount = s.blockCount := by
  unfold State.refill
  split <;> rfl

@[simp] theorem refillLoop_blockCount (fuel k : Nat) (s : State) : (s.refillLoop k fuel).1.blockCount = s.blockCount := by
  induction fuel generalizing s k with
  | zero => rfl
  | succ n ih =>
    unfold State.refillLoop
    split
    · rw [ih, refill_blockCount]
    · rfl

@[simp] theorem fillBits_blockCount (s : State) (n : Nat) : (s.fillBits n).blockCount = s.blockCount := by
  unfold State.fillBits
  simp

@[simp] theorem consume_blockCount (s : State) (ws : List Nat) : (s.consume ws).blockCount = s.blockCount := by
  induction ws generalizing s with
  | nil => rfl
  | cons w ws ih => exact (ih _).trans (fillBits_blockCount s w)

@[simp] theorem refill_outPos (s : State) (k : Nat) : (s.refill k).outPos = s.outPos := by
  unfold State.refill
  split <;> rfl

@[simp] theorem refillLoop_outPos (fuel k : Nat) (s : State) : (s.refillLoop k fuel).1.outPos = s.outPos := by
  induction fuel generalizing s k with
  | zero => rfl
  | succ n ih =>
    unfold State.refillLoop
    split
    · rw [ih, refill_outPos]
    · rfl

@[simp] theorem fillBits_outPos (s : State) (n : Nat) : (s.fillBits n).outPos = s.outPos := by
  unfold State.fillBits
  simp

@[simp] theorem consume_outPos (s : State) (ws : List Nat) : (s.consume ws).outPos = s.outPos := by
  induction ws generalizing s with
  | nil => rfl
  | cons w ws ih => exact (ih _).trans (fillBits_outPos s w)

@[simp] theorem refill_fsm (s : State) (k : Nat) : (s.refill k).fsm = s.fsm := by
  unfold State.refill
  split <;> rfl

@[simp] theorem refillLoop_fsm (fuel k : Nat) (s : State) : (s.refillLoop k fuel).1.fsm = s.fsm := by
  induction fuel generalizing s k with
  | zero => rfl
  | succ n ih =>
    unfold State.refillLoop
    split
    · rw [ih, refill_fsm]
    · rfl

@[simp] theorem fillBits_fsm (s : State) (n : Nat) : (s.fillBits n).fsm = s.fsm := by
  unfold State.fillBits
  simp

@[simp] theorem consume_fsm (s : State) (ws : List Nat) : (s.consume ws).fsm = s.fsm := by
  induction ws generalizing s with
  | nil => rfl
  | cons w ws ih => exact (ih _).trans (fillBits_fsm s w)

@[simp] theorem refill_badTable (s : State) (k : Nat) : (s.refill k).badTable = s.badTable := by
  unfold State.refill
  split <;> rfl

@[simp] theorem refillLoop_badTable (fuel k : Nat) (s : State) : (s.refillLoop k fuel).1.badTable = s.badTable := by
  induction fuel generalizing s k with
  | zero => rfl
  | succ n ih =>
    unfold State.refillLoop
    split
    · rw [ih, refill_badTable]
    · rfl

@[simp] theorem fillBits_badTable (s : State) (n : Nat) : (s.fillBits n).badTable = s.badTable := by
  unfold State.fillBits
  simp

@[simp] theorem consume_badTable (s : State) (ws : List Nat) : (s.consume ws).badTable = s.badTable := by
  induction ws generalizing s with
  | nil => rfl
  | cons w ws ih => exact (ih _).trans (fillBits_badTable s w)

@[simp] theorem refill_srcLen (s : State) (k : Nat) : (s.refill k).srcLen = s.srcLen := by
  unfold State.refill
  split <;> rfl

@[simp] theorem refillLoop_srcLen (fuel k : Nat) (s : State) : (s.refillLoop k fuel).1.srcLen = s.srcLen := by
  induction fuel generalizing s k with
  | zero => rfl
  | succ n ih =>
    unfold State.refillLoop
    split
    · rw [ih, refill_srcLen]
    · rfl

@[simp] theorem fillBits_srcLen (s : State) (n : Nat) : (s.fillBits n).srcLen = s.srcLen := by
  unfold State.fillBits
  simp

@[simp] theorem consume_srcLen (s : State) (ws : List Nat) : (s.consume ws).srcLen = s.srcLen := by
  induction ws generalizing s with
  | nil => rfl
  | cons w ws ih => exact (ih _).trans (fillBits_srcLen s w)

@[simp] theorem refill_compSize (s : State) (k : Nat) : (s.refill k).compSize = s.compSize := by
  unfold State.refill
  split <;> rfl

@[simp] theorem refillLoop_compSize (fuel k : Nat) (s : State) : (s.refillLoop k fuel).1.compSize = s.compSize := by
  induction fuel generalizing s k with
  | zero => rfl
  | succ n ih =>
    unfold State.refillLoop
    split
    · rw [ih, refill_compSize]
    · rfl

@[simp] theorem fillBits_compSize (s : State) (n : Nat) : (s.fillBits n).compSize = s.compSize := by
  unfold State.fillBits
  simp

@[simp] theorem consume_compSize (s : State) (ws : List Nat) : (s.consume ws).compSize = s.compSize := by
  induction ws generalizing s with
  | nil => rfl
  | cons w ws ih => exact (ih _).trans (fillBits_compSize s w)

@[simp] theorem refill_origSize (s : State) (k : Nat) : (s.refill k).origSize = s.origSize := by
  unfold State.refill
  split <;> rfl

@[simp] theorem refillLoop_origSize (fuel k : Nat) (s : State) : (s.refillLoop k fuel).1.origSize = s.origSize := by
  induction fuel generalizing s k with
  | zero => rfl
  | succ n ih =>
    unfold State.refillLoop
    split
    · rw [ih, refill_origSize]
    · rfl

@[simp] theorem fillBits_origSize (s : State) (n : Nat) : (s.fillBits n).origSize = s.origSize := by
  unfold State.fillBits
  simp

@[simp] theorem consume_origSize (s : State) (ws : List Nat) : (s.consume ws).origSize = s.origSize := by
  induction ws generalizing s with
  | nil => rfl
  | cons w ws ih => exact (ih _).trans (fillBits_origSize s w)

@[simp] theorem refill_scratchSize (s : State) (k : Nat) : (s.refill k).scratchSize = s.scratchSize := by
  unfold State.refill
  split <;> rfl

@[simp] theorem refillLoop_scratchSize (fuel k : Nat) (s : State) : (s.refillLoop k fuel).1.scratchSize = s.scratchSize := by
  induction fuel generalizing s k with
  | zero => rfl
  | succ n ih =>
    unfold State.refillLoop
    split
    · rw [ih, refill_scratchSize]
    · rfl

@[simp] theorem fillBits_scratchSize (s : State) (n : Nat) : (s.fillBits n).scratchSize = s.scratchSize := by
  unfold State.fillBits
  simp

@[simp] theorem consume_scratchSize (s : State) (ws : List Nat) : (s.consume ws).scratchSize = s.scratchSize := by
  induction ws generalizing s with
  | nil => rfl
  | cons w ws ih => exact (ih _).trans (fillBits_scratchSize s w)

@[simp] theorem refill_pBit (s : State) (k : Nat) : (s.refill k).pBit = s.pBit := by
  unfold State.refill
  split <;> rfl

@[simp] theorem refillLoop_pBit (fuel k : Nat) (s : State) : (s.refillLoop k fuel).1.pBit = s.pBit := by
  induction fuel generalizing s k with
  | zero => rfl
  | succ n ih =>
    unfold State.refillLoop
    split
    · rw [ih, refill_pBit]
    · rfl

@[simp] theorem fillBits_pBit (s : State) (n : Nat) : (s.fillBits n).pBit = s.pBit := by
  unfold State.fillBits
  simp

@[simp] theorem consume_pBit (s : State) (ws : List Nat) : (s.consume ws).pBit = s.pBit := by
  induction ws generalizing s with
  | nil => rfl
  | cons w ws ih => exact (ih _).trans (fillBits_pBit s w)

@[simp] theorem refill_status (s : State) (k : Nat) : (s.refill k).status = s.status := by
  unfold State.refill
  split <;> rfl

@[simp] theorem refillLoop_status (fuel k : Nat) (s : State) : (s.refillLoop k fuel).1.status = s.status := by
  induction fuel generalizing s k with
  | zero => rfl
  | succ n ih =>
    unfold State.refillLoop
    split
    · rw [ih, refill_status]
    · rfl

@[simp] theorem fillBits_status (s : State) (n : Nat) : (s.fillBits n).status = s.status := by
  unfold State.fillBits
  simp

@[simp] theorem consume_status (s : State) (ws : List Nat) : (s.consume ws).status = s.status := by
  induction ws generalizing s with
  | nil => rfl
  | cons w ws ih => exact (ih _).trans (fillBits_status s w)

@[simp] theorem refill_ptLen (s : State) (k : Nat) : (s.refill k).ptLen = s.ptLen := by
  unfold State.refill
  split <;> rfl

@[simp] theorem refillLoop_ptLen (fuel k : Nat) (s : State) : (s.refillLoop k fuel).1.ptLen = s.ptLen := by
  induction fuel generalizing s k with
  | zero => rfl
  | succ n ih =>
    unfold State.refillLoop
    split
    · rw [ih, refill_ptLen]
    · rfl

@[simp] theorem fillBits_ptLen (s : State) (n : Nat) : (s.fillBits n).ptLen = s.ptLen := by
  unfold State.fillBits
  simp

@[simp] theorem consume_ptLen (s : State) (ws : List Nat) : (s.consume ws).ptLen = s.ptLen := by
  induction ws generalizing s with
  | nil => rfl
  | cons w ws ih => exact (ih _).trans (fillBits_ptLen s w)

@[simp] theorem refill_cLen (s : State) (k : Nat) : (s.refill k).cLen = s.cLen := by
  unfold State.refill
  split <;> rfl

@[simp] theorem refillLoop_cLen (fuel k : Nat) (s : State) : (s.refillLoop k fuel).1.cLen = s.cLen := by
  induction fuel generalizing s k with
  | zero => rfl
  | succ n ih =>
    unfold State.refillLoop
    split
    · rw [ih, refill_cLen]
    · rfl

@[simp] theorem fillBits_cLen (s : State) (n : Nat) : (s.fillBits n).cLen = s.cLen := by
  unfold State.fillBits
  simp

@[simp] theorem consume_cLen (s : State) (ws : List Nat) : (s.consume ws).cLen = s.cLen := by
  induction ws generalizing s with
  | nil => rfl
  | cons w ws ih => exact (ih _).trans (fillBits_cLen s w)

@[simp] theorem refill_ptTable (s : State) (k : Nat) : (s.refill k).ptTable = s.ptTable := by
  unfold State.refill
  split <;> rfl

@[simp] theorem refillLoop_ptTable (fuel k : Nat) (s : State) : (s.refillLoop k fuel).1.ptTable = s.ptTable := by
  induction fuel generalizing s k with
  | zero => rfl
  | succ n ih =>
    unfold State.refillLoop
    split
    · rw [ih, refill_ptTable]
    · rfl

@[simp] theorem fillBits_ptTable (s : State) (n : Nat) : (s.fillBits n).ptTable = s.ptTable := by
  unfold State.fillBits
  simp

@[simp] theorem consume_ptTable (s : State) (ws : List Nat) : (s.consume ws).ptTable = s.ptTable := by
  induction ws generalizing s with
  | nil => rfl
  | cons w ws ih => exact (ih _).trans (fillBits_ptTable s w)

@[simp] theorem refill_cTable (s : State) (k : Nat) : (s.refill k).cTable = s.cTable := by
  unfold State.refill
  split <;> rfl

@[simp] theorem refillLoop_cTable (fuel k : Nat) (s : State) : (s.refillLoop k fuel).1.cTable = s.cTable := by
  induction fuel generalizing s k with
  | zero => rfl
  | succ n ih =>
    unfold State.refillLoop
    split
    · rw [ih, refill_cTable]
    · rfl

@[simp] theorem fillBits_cTable (s : State) (n : Nat) : (s.fillBits n).cTable = s.cTable := by
  unfold State.fillBits
  simp

@[simp] theorem consume_cTable (s : State) (ws : List Nat) : (s.consume ws).cTable = s.cTable := by
  induction ws generalizing s with
  | nil => rfl
  | cons w ws ih => exact (ih _).trans (fillBits_cTable s w)

@[simp] theorem refill_left (s : State) (k : Nat) : (s.refill k).left = s.left := by
  unfold State.refill
  split <;> rfl

@[simp] theorem refillLoop_left (fuel k : Nat) (s : State) : (s.refillLoop k fuel).1.left = s.left := by
  induction fuel generalizing s k with
  | zero => rfl
  | succ n ih =>
    unfold State.refillLoop
    split
    · rw [ih, refill_left]
    · rfl

@[simp] theorem fillBits_left (s : State) (n : Nat) : (s.fillBits n).left = s.left := by
  unfold State.fillBits
  simp

@[simp] theorem consume_left (s : State) (ws : List Nat) : (s.consume ws).left = s.left := by
  induction ws generalizing s with
  | nil => rfl
  | cons w ws ih => exact (ih _).trans (fillBits_left s w)

@[simp] theorem refill_right (s : State) (k : Nat) : (s.refill k).right = s.right := by
  unfold State.refill
  split <;> rfl

@[simp] theorem refillLoop_right (fuel k : Nat) (s : State) : (s.refillLoop k fuel).1.right = s.right := by
  induction fuel generalizing s k with
  | zero => rfl
  | succ n ih =>
    unfold State.refillLoop
    split
    · rw [ih, refill_right]
    · rfl

@[simp] theorem fillBits_right (s : State) (n : Nat) : (s.fillBits n).right = s.right := by
  unfold State.fillBits
  simp

@[simp] theorem consume_right (s : State) (ws : List Nat) : (s.consume ws).right = s.right := by
  induction ws generalizing s with
  | nil => rfl
  | cons w ws ih => exact (ih _).trans (fillBits_right s w)

@[simp] theorem refill_src (s : State) (k : Nat) : (s.refill k).src = s.src := by
  unfold State.refill
  split <;> rfl

@[simp] theorem refillLoop_src (fuel k : Nat) (s : State) : (s.refillLoop k fuel).1.src = s.src := by
  induction fuel generalizing s k with
  | zero => rfl
  | succ n ih =>
    unfold State.refillLoop
    split
    · rw [ih, refill_src]
    · rfl

@[simp] theorem fillBits_src (s : State) (n : Nat) : (s.fillBits n).src = s.src := by
  unfold State.fillBits
  simp

@[simp] theorem consume_src (s : State) (ws : List Nat) : (s.consume ws).src = s.src := by
  induction ws generalizing s with
  | nil => rfl
  | cons w ws ih => exact (ih _).trans (fillBits_src s w)

@[simp] theorem refill_dst (s : State) (k : Nat) : (s.refill k).dst = s.dst := by
  unfold State.refill
  split <;> rfl

@[simp] theorem refillLoop_dst (fuel k : Nat) (s : State) : (s.refillLoop k fuel).1.dst = s.dst := by
  induction fuel generalizing s k with
  | zero => rfl
  | succ n ih =>
    unfold State.refillLoop
    split
    · rw [ih, refill_dst]
    · rfl

@[simp] theorem fillBits_dst (s : State) (n : Nat) : (s.fillBits n).dst = s.dst := by
  unfold State.fillBits
  simp

@[simp] theorem consume_dst (s : State) (ws : List Nat) : (s.consume ws).dst = s.dst := by
  induction ws generalizing s with
  | nil => rfl
  | cons w ws ih => exact (ih _).trans (fillBits_dst s w)

@[simp] theorem refill_run (s : State) (k : Nat) : (s.refill k).run = s.run := by
  unfold State.refill
  split <;> rfl

@[simp] theorem refillLoop_run (fuel k : Nat) (s : State) : (s.refillLoop k fuel).1.run = s.run := by
  induction fuel generalizing s k with
  | zero => rfl
  | succ n ih =>
    unfold State.refillLoop
    split
    · rw [ih, refill_run]
    · rfl

@[simp] theorem fillBits_run (s : State) (n : Nat) : (s.fillBits n).run = s.run := by
  unfold State.fillBits
  simp

@[simp] theorem consume_run (s : State) (ws : List Nat) : (s.consume ws).run = s.run := by
  induction ws generalizing s with
  | nil => rfl
  | cons w ws ih => exact (ih _).trans (fillBits_run s w)

@[simp] theorem refill_point (s : State) (k : Nat) : (s.refill k).point = s.point := by
  unfold State.refill
  split <;> rfl

@[simp] theorem refillLoop_point (fuel k : Nat) (s : State) : (s.refillLoop k fuel).1.point = s.point := by
  induction fuel generalizing s k with
  | zero => rfl
  | succ n ih =>
    unfold State.refillLoop
    split
    · rw [ih, refill_point]
    · rfl

@[simp] theorem fillBits_point (s : State) (n : Nat) : (s.fillBits n).point = s.point := by
  unfold State.fillBits
  simp

@[simp] theorem consume_point (s : State) (ws : List Nat) : (s.consume ws).point = s.point := by
  induction ws generalizing s with
  | nil => rfl
  | cons w ws ih => exact (ih _).trans (fillBits_point s w)

@[simp] theorem refill_grant (s : State) (k : Nat) : (s.refill k).grant = s.grant := by
  unfold State.refill
  split <;> rfl

@[simp] theorem refillLoop_grant (fuel k : Nat) (s : State) : (s.refillLoop k fuel).1.grant = s.grant := by
  induction fuel generalizing s k with
  | zero => rfl
  | succ n ih =>
    unfold State.refillLoop
    split
    · rw [ih, refill_grant]
    · rfl

@[simp] theorem fillBits_grant (s : State) (n : Nat) : (s.fillBits n).grant = s.grant := by
  unfold State.fillBits
  simp

@[simp] theorem consume_grant (s : State) (ws : List Nat) : (s.consume ws).grant = s.grant := by
  induction ws generalizing s with
  | nil => rfl
  | cons w ws ih => exact (ih _).trans (fillBits_grant s w)

@[simp] theorem refill_freeCount (s : State) (k : Nat) : (s.refill k).freeCount = s.freeCount := by
  unfold State.refill
  split <;> rfl

@[simp] theorem refillLoop_freeCount (fuel k : Nat) (s : State) : (s.refillLoop k fuel).1.freeCount = s.freeCount := by
  induction fuel generalizing s k with
  | zero => rfl
  | succ n ih =>
    unfold State.refillLoop
    split
    · rw [ih, refill_freeCount]
    · rfl

@[simp] theorem fillBits_freeCount (s : State) (n : Nat) : (s.fillBits n).freeCount = s.freeCount := by
  unfold State.fillBits
  simp

@[simp] theorem consume_freeCount (s : State) (ws : List Nat) : (s.consume ws).freeCount = s.freeCount := by
  induction ws generalizing s with
  | nil => rfl
  | cons w ws ih => exact (ih _).trans (fillBits_freeCount s w)

end Sys2Proof.Machine
end

