-- ==== Sys2Proof/Laws/Ops.lean ====
section
/-! SUPPORT. What each shared operation can do, once: the element guard, the descriptions' stores, DST's writes. -/

namespace Sys2Proof.Machine

/-! ### The reader -/

/-- The reader writes nothing but its five registers. -/
theorem fillBits_frame (s : State) (n : Nat) : (s.fillBits n).readerFrom s = s := by
  simp [State.readerFrom]

/-- Consuming an element writes nothing but the reader. -/
theorem consume_frame (s : State) (ws : List Nat) : (s.consume ws).readerFrom s = s := by
  simp [State.readerFrom]

@[simp] theorem consume_nil (s : State) : s.consume [] = s := rfl

@[simp] theorem consume_cons (s : State) (w : Nat) (ws : List Nat) :
    s.consume (w :: ws) = (s.fillBits w).consume ws := rfl

theorem consume_append (s : State) (ws vs : List Nat) : s.consume (ws ++ vs) = (s.consume ws).consume vs := by
  simp [State.consume, List.foldl_append]

/-- A refill pass keeps the sum of the payload bytes fetched and left. -/
theorem refill_payload (s : State) (k : Nat) :
    (s.refill k).inPos + (s.refill k).compRemaining = s.inPos + s.compRemaining := by
  unfold State.refill
  split
  · simp
    omega
  · simp

theorem refillLoop_payload (fuel k : Nat) (s : State) :
    (s.refillLoop k fuel).1.inPos + (s.refillLoop k fuel).1.compRemaining = s.inPos + s.compRemaining := by
  induction fuel generalizing s k with
  | zero => rfl
  | succ n ih =>
    unfold State.refillLoop
    split
    · rw [ih, refill_payload]
    · rfl

theorem fillBits_payload (s : State) (n : Nat) :
    (s.fillBits n).inPos + (s.fillBits n).compRemaining = s.inPos + s.compRemaining := by
  unfold State.fillBits
  simpa using refillLoop_payload 5 n { s with bitBuf := s.bitBuf <<< n }

theorem consume_payload (s : State) (ws : List Nat) :
    (s.consume ws).inPos + (s.consume ws).compRemaining = s.inPos + s.compRemaining := by
  induction ws generalizing s with
  | nil => rfl
  | cons w ws ih => rw [consume_cons, ih, fillBits_payload]

/-- Consuming bits keeps every access in bounds. -/
@[simp] theorem fillBits_inBounds (s : State) (n : Nat) : (s.fillBits n).inBounds = s.inBounds := by
  simp [State.inBounds, Nat.add_assoc, fillBits_payload]

@[simp] theorem consume_inBounds (s : State) (ws : List Nat) : (s.consume ws).inBounds = s.inBounds := by
  simp [State.inBounds, Nat.add_assoc, consume_payload]

@[simp] theorem fillBits_slot (s : State) (n : Nat) : (s.fillBits n).slot = s.slot := by
  simp [State.slot]

@[simp] theorem consume_slot (s : State) (ws : List Nat) : (s.consume ws).slot = s.slot := by
  simp [State.slot]

/-! ### The element guard -/

/-- A ready element runs. -/
theorem element_ready {s : State} {i : Instr} (k : State → Result) (h : s.ready i) :
    s.element i k = k (s.consume (s.widths i)) := by
  obtain ⟨h1, h2, h3⟩ := h
  simp [State.element, h1, h2, h3]

/-- All an element's meaning can do: one of the three stops of the guard, or `k`'s outcome. -/
theorem element_cases (s : State) (i : Instr) (k : State → Result) :
    (s.ready i ∧ s.element i k = k (s.consume (s.widths i))) ∨
    (s.slot ≠ some i.slot ∧ s.element i k = .refused .outOfPlace) ∨
    (s.slot = some i.slot ∧ i.wellFormed s.pWidth = false ∧ s.element i k = .refused .illFormed) ∨
    (s.slot = some i.slot ∧ i.wellFormed s.pWidth = true ∧ s.inBounds = false ∧
      s.element i k = .fault .accessOutOfBounds) := by
  by_cases h1 : s.slot = some i.slot
  · cases h2 : i.wellFormed s.pWidth with
    | false => exact .inr (.inr (.inl ⟨h1, rfl, by simp [State.element, h1, h2]⟩))
    | true =>
      cases h3 : s.inBounds with
      | false => exact .inr (.inr (.inr ⟨h1, rfl, rfl, by simp [State.element, h1, h2, h3]⟩))
      | true => exact .inl ⟨⟨h1, h2, h3⟩, element_ready k ⟨h1, h2, h3⟩⟩
  · exact .inr (.inl ⟨h1, by simp [State.element, h1]⟩)

/-- If an element's meaning answers a next state, it was ready and `k` gave that state. -/
theorem element_next {s t : State} {i : Instr} {k : State → Result} (h : s.element i k = .next t) :
    s.ready i ∧ k (s.consume (s.widths i)) = .next t := by
  obtain ⟨hr, he⟩ | ⟨_, he⟩ | ⟨_, _, he⟩ | ⟨_, _, _, he⟩ := element_cases s i k <;> rw [he] at h
  · exact ⟨hr, h⟩
  all_goals cases h

/-! ### The descriptions -/

/-- A T or P entry, and what ends the entry loop, write `ptLen`, `fsm` and `point` only. -/
theorem nextPTEntry_frame (s : State) (number idx : Nat) :
    { s.nextPTEntry number idx with ptLen := s.ptLen, fsm := s.fsm, point := s.point } = s := by
  unfold State.nextPTEntry
  split
  · rfl
  · split <;> rfl

theorem storePTLength_frame (s : State) (l : Nat) :
    { s.storePTLength l with ptLen := s.ptLen, fsm := s.fsm, point := s.point } = s := by
  unfold State.storePTLength
  split
  · next number idx _ =>
    split
    · rfl
    · exact congrArg (fun u : State => { u with ptLen := s.ptLen })
        (nextPTEntry_frame { s with ptLen := s.ptLen.write idx l } number (idx + 1))
  all_goals rfl

theorem skipEntries_frame (s : State) (r : Nat) :
    { s.skipEntries r with ptLen := s.ptLen, fsm := s.fsm, point := s.point } = s := by
  unfold State.skipEntries
  split
  · next number _ =>
    exact congrArg (fun u : State => { u with ptLen := s.ptLen })
      (nextPTEntry_frame { s with ptLen := s.ptLen.fill Config.SPECIAL_T r 0 } number _)
  all_goals rfl

/-- A C item, and what ends the item loop, write `cLen`, `fsm` and `point` only. -/
theorem storeCLength_frame (s : State) (l : Nat) :
    { s.storeCLength l with cLen := s.cLen, fsm := s.fsm, point := s.point } = s := by
  unfold State.storeCLength
  split
  · unfold State.nextCItem
    split <;> rfl
  all_goals rfl

theorem zeroRun_frame (s : State) (r : Nat) :
    { s.zeroRun r with cLen := s.cLen, fsm := s.fsm, point := s.point } = s := by
  unfold State.zeroRun
  split
  · unfold State.nextCItem
    split <;> rfl
  all_goals rfl

/-- A uniform fill writes one table and one length array. -/
theorem fillUniform_frame (s : State) (a : Alphabet) (c : Nat) :
    { s.fillUniform a c with ptLen := s.ptLen, cLen := s.cLen, ptTable := s.ptTable, cTable := s.cTable } = s := by
  cases a <;> rfl

/-- A build writes one direct table and the tree. -/
theorem build_frame {s t : State} {a : Alphabet} (h : s.build a = some t) :
    { t with ptTable := s.ptTable, cTable := s.cTable, left := s.left, right := s.right } = s := by
  cases a <;> simp only [State.build, Option.map_eq_some_iff] at h <;> obtain ⟨b, -, rfl⟩ := h <;> rfl

/-- All a degenerate description can do (R177, R283). -/
theorem degenerate_cases (s : State) (a : Alphabet) (sym : Nat) :
    (alphabetSize a ≤ sym ∧ s.degenerate a sym = .fault .degenerateSymbolOutOfRange) ∨
    (sym < alphabetSize a ∧
      s.degenerate a sym = .next { s.fillUniform a sym with fsm := buildState a, point := .filled }) := by
  by_cases h : alphabetSize a ≤ sym
  · exact .inl ⟨h, if_pos h⟩
  · exact .inr ⟨Nat.lt_of_not_le h, if_neg h⟩

/-- All a Build state can do (R215). -/
theorem buildTable_cases (s : State) (a : Alphabet) :
    (s.point = .filled ∧ s.buildTable a = { s with fsm := afterBuild a, point := .start }) ∨
    (s.point ≠ .filled ∧ ∃ t, s.build a = some t ∧ s.buildTable a = { t with fsm := afterBuild a, point := .start }) ∨
    (s.point ≠ .filled ∧ s.build a = none ∧ s.buildTable a = s.raiseBadTable) := by
  by_cases hp : s.point = .filled
  · exact .inl ⟨hp, if_pos hp⟩
  · cases h : s.build a with
    | none => exact .inr (.inr ⟨hp, rfl, by simp [State.buildTable, hp, h]⟩)
    | some t => exact .inr (.inl ⟨hp, t, rfl, by simp [State.buildTable, hp, h]⟩)

/-- A table build is under way in the Build state of an alphabet, and only there (R215). -/
theorem building_of_buildState (s : State) (a : Alphabet) (h : s.fsm = buildState a) : s.building = some a := by
  cases a <;> simp [State.building, h, buildState]

/-! ### The host's actions (R263) -/

/-- Placing a source makes SRC's promise and leaves the others. -/
@[simp] theorem placeSource_grant (s : State) (bytes : List Byte) (plain : Bool) :
    (s.placeSource bytes plain).grant = { s.grant with srcPlain := plain } := rfl

/-- Providing the other buffers leaves SRC's promise and that of the command. -/
@[simp] theorem provide_grant (s : State) (bytes : List Byte) (p d k : Bool) :
    (s.provide bytes p d k).grant =
      { s.grant with dstLen := bytes.length, dstPlain := p, disjoint := d, scratchOk := k } := rfl

/-- In the host's order a SIZE_QUERY has no broken promise, whatever has been provided of DST and SCRATCH. -/
theorem brokenPromise_sizeQuery (s : State) (bytes : List Byte) :
    ((s.placeSource bytes).issue .sizeQuery).brokenPromise .sizeQuery = none := rfl

/-- Nor has a DECOMPRESS once they are provided. -/
theorem brokenPromise_decompress (s : State) (bytes dst : List Byte) :
    (((s.placeSource bytes).provide dst).issue .decompress).brokenPromise .decompress = none := rfl

/-! ### DST -/

/-- A byte is written where there is room, else nothing happens. -/
theorem putByte_of_room {s : State} (v : Byte) (h : s.outPos < s.origSize.toNat) :
    s.putByte v = { s with dst := s.dst.write s.outPos v, outPos := s.outPos + 1 } := if_pos h

theorem putByte_of_full {s : State} (v : Byte) (h : ¬ s.outPos < s.origSize.toNat) : s.putByte v = s := if_neg h

theorem putByte_frame (s : State) (v : Byte) : { s.putByte v with dst := s.dst, outPos := s.outPos } = s := by
  unfold State.putByte
  split <;> rfl

@[simp] theorem putByte_origSize (s : State) (v : Byte) : (s.putByte v).origSize = s.origSize := by
  unfold State.putByte
  split <;> rfl

theorem copyLoop_frame (m src : Nat) (s : State) :
    { State.copyLoop m src s with dst := s.dst, outPos := s.outPos } = s := by
  induction m generalizing src s with
  | zero => rfl
  | succ m ih =>
    unfold State.copyLoop
    split
    · next h =>
      have hp := ih (src + 1) (s.putByte (s.dst.read src))
      rw [putByte_of_room _ h] at hp ⊢
      exact congrArg (fun u : State => { u with dst := s.dst, outPos := s.outPos }) hp
    · rfl

theorem putByte_dstWf {s : State} (v : Byte) (h : s.dst.wf = true) : (s.putByte v).dst.wf = true := by
  unfold State.putByte
  split
  · exact Memory.wf_write _ _ h
  · exact h

/-- A copy keeps DST's canonical form. -/
theorem copyLoop_dstWf (m src : Nat) {s : State} (h : s.dst.wf = true) : (State.copyLoop m src s).dst.wf = true := by
  induction m generalizing src s with
  | zero => exact h
  | succ m ih =>
    unfold State.copyLoop
    split
    · exact ih _ (putByte_dstWf _ h)
    · exact h

/-- All the end of a match can do (R235, R236). -/
theorem copyMatch_next {s t : State} {off : Nat} (h : s.copyMatch off = .next t) :
    ∃ m, s.point = .offset m ∧ off + 1 ≤ s.outPos ∧
      t = { State.copyLoop m (s.outPos - off - 1) s with point := .start } := by
  unfold State.copyMatch at h
  split at h
  · next m hm =>
    split at h
    · cases h
    · next hlt => exact ⟨m, hm, by omega, by cases h; rfl⟩
  all_goals cases h

end Sys2Proof.Machine
end

