-- ==== Sys2Proof/Laws/PerInstr.lean ====
section
/-! SUPPORT. One lemma per stream element: its RAW bits, with any bits after them, decode back to it at its position, given the
symbol its code stands for. -/

namespace Sys2Proof.Laws.OperandRoundTrip

/-- The RAW bits of a well-formed element decode back to it, at both values of `PBIT` (R34). -/
def Statement (i : Instr) : Prop :=
  ∀ (pBit : Nat) (rest : List Bool), pBit = 4 ∨ pBit = 5 → i.wellFormed pBit = true →
    match (i.parts pBit).sym with
    | none => decodeRaw pBit i.slot (i.rawBits pBit ++ rest) = .ok i
    | some sym => decodeCoded i.slot sym (i.rawBits pBit ++ rest) = .ok i

theorem rawBits_one {pBit n v : Nat} {i : Instr} {sl : Slot} {sym : Option Nat}
    (h : i.parts pBit = ⟨sl, sym, [(n, v)]⟩) : i.rawBits pBit = toBits n v := by
  simp [Instr.rawBits, h]

theorem rawBits_two {pBit n v m w : Nat} {i : Instr} {sl : Slot} {sym : Option Nat}
    (h : i.parts pBit = ⟨sl, sym, [(n, v), (m, w)]⟩) : i.rawBits pBit = toBits n v ++ toBits m w := by
  simp [Instr.rawBits, h]

/-- Four bytes of a word, least significant first, read back as the word. -/
theorem leWord_bytes (w : BitVec 32) (rest : List Bool) :
    leWord (toBits 8 (wordByte w 0) ++ (toBits 8 (wordByte w 1) ++ (toBits 8 (wordByte w 2) ++
      (toBits 8 (wordByte w 3) ++ rest)))) = w := by
  have h1 : ∀ (v : Nat) (r : List Bool), (toBits 8 v ++ r).drop 8 = r := drop_toBits_append 8
  have h2 : ∀ (v u : Nat) (r : List Bool), (toBits 8 v ++ (toBits 8 u ++ r)).drop 16 = r := by
    intro v u r
    rw [← List.drop_drop (i := 8) (j := 8), h1, h1]
  have h3 : ∀ (v u x : Nat) (r : List Bool), (toBits 8 v ++ (toBits 8 u ++ (toBits 8 x ++ r))).drop 24 = r := by
    intro v u x r
    rw [← List.drop_drop (i := 16) (j := 8), h1, h2]
  have hw := w.isLt
  apply BitVec.eq_of_toNat_eq
  simp only [leWord, h1, h2, h3, field_toBits_append, wordByte, BitVec.toNat_ofNat]
  omega

theorem hdr (comp orig : BitVec 32) : Statement (.hdr comp orig) := by
  intro pBit rest _ _
  have h : ∀ (a b c d : Nat) (r : List Bool),
      (toBits 8 a ++ (toBits 8 b ++ (toBits 8 c ++ (toBits 8 d ++ r)))).drop 32 = r := by
    intro a b c d r
    rw [← List.append_assoc, ← List.append_assoc, ← List.append_assoc]
    exact List.drop_left' (by simp)
  show decodeRaw pBit .hdr (Instr.rawBits pBit (.hdr comp orig) ++ rest) = _
  simp only [Instr.rawBits, Instr.parts, List.flatMap_cons, List.flatMap_nil, List.append_nil, List.append_assoc,
    decodeRaw, h, leWord_bytes]

theorem blksize (n : BitVec 16) : Statement (.blksize n) := by
  intro pBit rest _ _
  show decodeRaw pBit .blksize (Instr.rawBits pBit (.blksize n) ++ rest) = _
  rw [rawBits_one rfl, decodeRaw, field_toBits_append, Nat.mod_eq_of_lt n.isLt, BitVec.ofNat_toNat, BitVec.setWidth_eq]

theorem tcnt (n : BitVec 5) : Statement (.tcnt n) := by
  intro pBit rest hp hw
  show decodeRaw pBit .tcount (Instr.rawBits pBit (.tcnt n) ++ rest) = _
  have hn : n.toNat ≠ 0 := by
    intro h
    have : n = 0 := BitVec.eq_of_toNat_eq (by simpa using h)
    subst this
    simp [Instr.wellFormed] at hw
  have hlt : n.toNat < 2 ^ 5 := n.isLt
  rw [rawBits_one rfl, decodeRaw, field_toBits_append, Nat.mod_eq_of_lt hlt, if_neg hn, BitVec.ofNat_toNat,
    BitVec.setWidth_eq]

theorem tdeg (sym : BitVec 5) : Statement (.tdeg sym) := by
  intro pBit rest hp hw
  show decodeRaw pBit .tcount (Instr.rawBits pBit (.tdeg sym) ++ rest) = _
  have hlt : sym.toNat < 2 ^ 5 := sym.isLt
  rw [rawBits_two rfl, List.append_assoc, decodeRaw, field_toBits_append, Nat.zero_mod, if_pos rfl, drop_toBits_append,
    field_toBits_append, Nat.mod_eq_of_lt hlt, BitVec.ofNat_toNat, BitVec.setWidth_eq]

theorem pcnt (n : BitVec 5) : Statement (.pcnt n) := by
  intro pBit rest hp hw
  show decodeRaw pBit .pcount (Instr.rawBits pBit (.pcnt n) ++ rest) = _
  have hn : n.toNat ≠ 0 := by
    intro h
    have : n = 0 := BitVec.eq_of_toNat_eq (by simpa using h)
    subst this
    simp [Instr.wellFormed] at hw
  have hlt : n.toNat < 2 ^ pBit := by simp [Instr.wellFormed] at hw; exact hw.2
  rw [rawBits_one rfl, decodeRaw, field_toBits_append, Nat.mod_eq_of_lt hlt, if_neg hn, BitVec.ofNat_toNat,
    BitVec.setWidth_eq]

theorem pdeg (sym : BitVec 5) : Statement (.pdeg sym) := by
  intro pBit rest hp hw
  show decodeRaw pBit .pcount (Instr.rawBits pBit (.pdeg sym) ++ rest) = _
  have hlt : sym.toNat < 2 ^ pBit := by simpa [Instr.wellFormed] using hw
  rw [rawBits_two rfl, List.append_assoc, decodeRaw, field_toBits_append, Nat.zero_mod, if_pos rfl, drop_toBits_append,
    field_toBits_append, Nat.mod_eq_of_lt hlt, BitVec.ofNat_toNat, BitVec.setWidth_eq]

theorem ptlen0 : Statement .ptlen0 := fun _ _ _ _ => rfl

theorem ptlen1 : Statement .ptlen1 := fun _ _ _ _ => rfl

theorem ptlen2 : Statement .ptlen2 := fun _ _ _ _ => rfl

theorem ptlen3 : Statement .ptlen3 := fun _ _ _ _ => rfl

theorem ptlen4 : Statement .ptlen4 := fun _ _ _ _ => rfl

theorem ptlen5 : Statement .ptlen5 := fun _ _ _ _ => rfl

theorem ptlen6 : Statement .ptlen6 := fun _ _ _ _ => rfl

theorem ptlen7 : Statement .ptlen7 := fun _ _ _ _ => rfl

theorem ptlen8 : Statement .ptlen8 := fun _ _ _ _ => rfl

theorem ptlen9 : Statement .ptlen9 := fun _ _ _ _ => rfl

theorem ptlen10 : Statement .ptlen10 := fun _ _ _ _ => rfl

theorem ptlen11 : Statement .ptlen11 := fun _ _ _ _ => rfl

theorem ptlen12 : Statement .ptlen12 := fun _ _ _ _ => rfl

theorem ptlen13 : Statement .ptlen13 := fun _ _ _ _ => rfl

theorem ptlen14 : Statement .ptlen14 := fun _ _ _ _ => rfl

theorem ptlen15 : Statement .ptlen15 := fun _ _ _ _ => rfl

theorem ptlen16 : Statement .ptlen16 := fun _ _ _ _ => rfl

theorem tskip (r : BitVec 2) : Statement (.tskip r) := by
  intro pBit rest _ _
  show decodeRaw pBit .tskip (Instr.rawBits pBit (.tskip r) ++ rest) = _
  rw [rawBits_one rfl, decodeRaw, field_toBits_append, Nat.mod_eq_of_lt r.isLt, BitVec.ofNat_toNat, BitVec.setWidth_eq]

theorem ccnt (n : BitVec 9) : Statement (.ccnt n) := by
  intro pBit rest hp hw
  show decodeRaw pBit .ccount (Instr.rawBits pBit (.ccnt n) ++ rest) = _
  have hn : n.toNat ≠ 0 := by
    intro h
    have : n = 0 := BitVec.eq_of_toNat_eq (by simpa using h)
    subst this
    simp [Instr.wellFormed] at hw
  have hlt : n.toNat < 2 ^ 9 := n.isLt
  rw [rawBits_one rfl, decodeRaw, field_toBits_append, Nat.mod_eq_of_lt hlt, if_neg hn, BitVec.ofNat_toNat,
    BitVec.setWidth_eq]

theorem cdeg (sym : BitVec 9) : Statement (.cdeg sym) := by
  intro pBit rest hp hw
  show decodeRaw pBit .ccount (Instr.rawBits pBit (.cdeg sym) ++ rest) = _
  have hlt : sym.toNat < 2 ^ 9 := sym.isLt
  rw [rawBits_two rfl, List.append_assoc, decodeRaw, field_toBits_append, Nat.zero_mod, if_pos rfl, drop_toBits_append,
    field_toBits_append, Nat.mod_eq_of_lt hlt, BitVec.ofNat_toNat, BitVec.setWidth_eq]

theorem cz1 : Statement .cz1 := fun _ _ _ _ => rfl

theorem czs (r : BitVec 4) : Statement (.czs r) := by
  intro pBit rest _ _
  show decodeCoded .citem 1 (Instr.rawBits pBit (.czs r) ++ rest) = _
  rw [rawBits_one rfl]
  simp only [decodeCoded, field_toBits_append, Nat.mod_eq_of_lt r.isLt, BitVec.ofNat_toNat, BitVec.setWidth_eq]
  rfl

theorem czl (r : BitVec 9) : Statement (.czl r) := by
  intro pBit rest _ _
  show decodeCoded .citem 2 (Instr.rawBits pBit (.czl r) ++ rest) = _
  rw [rawBits_one rfl]
  simp only [decodeCoded, field_toBits_append, Nat.mod_eq_of_lt r.isLt, BitVec.ofNat_toNat, BitVec.setWidth_eq]
  rfl

theorem cl1 : Statement .cl1 := fun _ _ _ _ => rfl

theorem cl2 : Statement .cl2 := fun _ _ _ _ => rfl

theorem cl3 : Statement .cl3 := fun _ _ _ _ => rfl

theorem cl4 : Statement .cl4 := fun _ _ _ _ => rfl

theorem cl5 : Statement .cl5 := fun _ _ _ _ => rfl

theorem cl6 : Statement .cl6 := fun _ _ _ _ => rfl

theorem cl7 : Statement .cl7 := fun _ _ _ _ => rfl

theorem cl8 : Statement .cl8 := fun _ _ _ _ => rfl

theorem cl9 : Statement .cl9 := fun _ _ _ _ => rfl

theorem cl10 : Statement .cl10 := fun _ _ _ _ => rfl

theorem cl11 : Statement .cl11 := fun _ _ _ _ => rfl

theorem cl12 : Statement .cl12 := fun _ _ _ _ => rfl

theorem cl13 : Statement .cl13 := fun _ _ _ _ => rfl

theorem cl14 : Statement .cl14 := fun _ _ _ _ => rfl

theorem cl15 : Statement .cl15 := fun _ _ _ _ => rfl

theorem cl16 : Statement .cl16 := fun _ _ _ _ => rfl

theorem lit (b : Byte) : Statement (.lit b) := by
  intro pBit rest _ _
  show decodeCoded .csym b.toNat (Instr.rawBits pBit (.lit b) ++ rest) = _
  rw [decodeCoded, if_pos b.isLt, BitVec.ofNat_toNat, BitVec.setWidth_eq]

theorem matchLen (m : Nat) : Statement (.matchLen m) := by
  intro pBit rest _ hw
  have hm : 3 ≤ m ∧ m ≤ 256 := by simpa [Instr.wellFormed] using hw
  show decodeCoded .csym (m + 253) (Instr.rawBits pBit (.matchLen m) ++ rest) = _
  rw [decodeCoded, if_neg (by omega), if_pos (by omega), Nat.add_sub_cancel]

theorem off0 : Statement .off0 := fun _ _ _ _ => rfl

theorem off1 : Statement .off1 := fun _ _ _ _ => rfl

/-- The shape the classes with extra bits share. -/
theorem off_extra {w sym : Nat} {i : Instr} {x : BitVec w} (hs : ∀ pBit, i.parts pBit = ⟨.off, some sym, [(w, x.toNat)]⟩)
    (hw : sym - 1 = w) (hd : offInstr sym x.toNat = some i) : Statement i := by
  intro pBit rest _ _
  have hslot : i.slot = .off := by rw [Instr.slot, hs]
  rw [hs, hslot, rawBits_one (hs pBit)]
  show decodeCoded .off sym _ = _
  rw [decodeCoded, hw, field_toBits_append, Nat.mod_eq_of_lt x.isLt, hd]

theorem off2 (x : BitVec 1) : Statement (.off2 x) :=
  off_extra (fun _ => rfl) rfl (by simp [offInstr])

theorem off3 (x : BitVec 2) : Statement (.off3 x) :=
  off_extra (fun _ => rfl) rfl (by simp [offInstr])

theorem off4 (x : BitVec 3) : Statement (.off4 x) :=
  off_extra (fun _ => rfl) rfl (by simp [offInstr])

theorem off5 (x : BitVec 4) : Statement (.off5 x) :=
  off_extra (fun _ => rfl) rfl (by simp [offInstr])

theorem off6 (x : BitVec 5) : Statement (.off6 x) :=
  off_extra (fun _ => rfl) rfl (by simp [offInstr])

theorem off7 (x : BitVec 6) : Statement (.off7 x) :=
  off_extra (fun _ => rfl) rfl (by simp [offInstr])

theorem off8 (x : BitVec 7) : Statement (.off8 x) :=
  off_extra (fun _ => rfl) rfl (by simp [offInstr])

theorem off9 (x : BitVec 8) : Statement (.off9 x) :=
  off_extra (fun _ => rfl) rfl (by simp [offInstr])

theorem off10 (x : BitVec 9) : Statement (.off10 x) :=
  off_extra (fun _ => rfl) rfl (by simp [offInstr])

theorem off11 (x : BitVec 10) : Statement (.off11 x) :=
  off_extra (fun _ => rfl) rfl (by simp [offInstr])

theorem off12 (x : BitVec 11) : Statement (.off12 x) :=
  off_extra (fun _ => rfl) rfl (by simp [offInstr])

theorem off13 (x : BitVec 12) : Statement (.off13 x) :=
  off_extra (fun _ => rfl) rfl (by simp [offInstr])

theorem off14 (x : BitVec 13) : Statement (.off14 x) :=
  off_extra (fun _ => rfl) rfl (by simp [offInstr])

theorem off15 (x : BitVec 14) : Statement (.off15 x) :=
  off_extra (fun _ => rfl) rfl (by simp [offInstr])

theorem off16 (x : BitVec 15) : Statement (.off16 x) :=
  off_extra (fun _ => rfl) rfl (by simp [offInstr])

theorem off17 (x : BitVec 16) : Statement (.off17 x) :=
  off_extra (fun _ => rfl) rfl (by simp [offInstr])

theorem off18 (x : BitVec 17) : Statement (.off18 x) :=
  off_extra (fun _ => rfl) rfl (by simp [offInstr])

theorem off19 (x : BitVec 18) : Statement (.off19 x) :=
  off_extra (fun _ => rfl) rfl (by simp [offInstr])

theorem off20 (x : BitVec 19) : Statement (.off20 x) :=
  off_extra (fun _ => rfl) rfl (by simp [offInstr])

theorem off21 (x : BitVec 20) : Statement (.off21 x) :=
  off_extra (fun _ => rfl) rfl (by simp [offInstr])

theorem off22 (x : BitVec 21) : Statement (.off22 x) :=
  off_extra (fun _ => rfl) rfl (by simp [offInstr])

theorem off23 (x : BitVec 22) : Statement (.off23 x) :=
  off_extra (fun _ => rfl) rfl (by simp [offInstr])

theorem off24 (x : BitVec 23) : Statement (.off24 x) :=
  off_extra (fun _ => rfl) rfl (by simp [offInstr])

theorem off25 (x : BitVec 24) : Statement (.off25 x) :=
  off_extra (fun _ => rfl) rfl (by simp [offInstr])

theorem off26 (x : BitVec 25) : Statement (.off26 x) :=
  off_extra (fun _ => rfl) rfl (by simp [offInstr])

theorem off27 (x : BitVec 26) : Statement (.off27 x) :=
  off_extra (fun _ => rfl) rfl (by simp [offInstr])

theorem off28 (x : BitVec 27) : Statement (.off28 x) :=
  off_extra (fun _ => rfl) rfl (by simp [offInstr])

theorem off29 (x : BitVec 28) : Statement (.off29 x) :=
  off_extra (fun _ => rfl) rfl (by simp [offInstr])

theorem off30 (x : BitVec 29) : Statement (.off30 x) :=
  off_extra (fun _ => rfl) rfl (by simp [offInstr])

end Sys2Proof.Laws.OperandRoundTrip
end

