-- ==== Sys2Proof/Tests/Slice0.lean ====
section
/-! SUPPORT. Tests. Part 1: the well-formedness checks, words written out from the spec's encodings, and single steps on values
of the spec's examples. Part 2: for each statement with hypotheses, states and operands that meet them. -/

namespace Sys2Proof.Tests

-- The theorems are checked one after another: as waiting threads they would pass the check's memory limit.
set_option Elab.async false

open Sys2Proof Sys2Proof.Machine

/-! ## Part 1 -/

/-- What a field of the next state holds. -/
def after {α : Type} (r : Result) (f : State → α) : Option α :=
  match r with
  | .next t => some (f t)
  | .fault _ => none
  | .refused _ => none

/-- A state whose next element is `i`. -/
def placed (i : Instr) : State := State.reset.placeElement i

/-- A decode of the given payload, primed at stream bit 0, with `orig` bytes to write. -/
def decoding (payload : List Byte) (orig : Nat) : State :=
  { ({ State.reset with
        src := Memory.ofBytes 8 payload, srcLen := 8 + payload.length, compSize := BitVec.ofNat 32 payload.length,
        origSize := BitVec.ofNat 32 orig, grant := ⟨orig, true, true, true, true, true⟩ } : State) with
    status := .success }.startDecoding

/-! ### Well-formedness: each check refuses -/

theorem test_tcnt_zero_is_ill_formed : (Instr.tcnt 0).wellFormed 4 = false := by decide
theorem test_ccnt_zero_is_ill_formed : (Instr.ccnt 0).wellFormed 4 = false := by decide
theorem test_pcnt_zero_is_ill_formed : (Instr.pcnt 0).wellFormed 4 = false := by decide
theorem test_pcnt_wider_than_pbit_is_ill_formed : (Instr.pcnt 16).wellFormed 4 = false := by decide
theorem test_pdeg_wider_than_pbit_is_ill_formed : (Instr.pdeg 16).wellFormed 4 = false := by decide
theorem test_match_too_short_is_ill_formed : (Instr.matchLen 2).wellFormed 4 = false := by decide
theorem test_match_too_long_is_ill_formed : (Instr.matchLen 257).wellFormed 4 = false := by decide
theorem test_boundaries_are_well_formed :
    [Instr.tcnt 1, .ccnt 511, .pcnt 15, .pdeg 15, .matchLen 3, .matchLen 256, .tdeg 31, .cdeg 511].all
      (Instr.wellFormed 4) = true := by decide

/-! ### Decoding, bit by bit (R92 to R98; the examples of R177, R178, R179, R184, R196, R213) -/

theorem test_decode_blksize_4 : (decodeRaw 4 .blksize
    [false, false, false, false, false, false, false, false, false, false, false, false, false, true, false, false]).toOption
    = some (.blksize 4) := by decide
theorem test_decode_tcnt_17 : (decodeRaw 4 .tcount [true, false, false, false, true]).toOption = some (.tcnt 17) := by decide
theorem test_decode_tdeg_9 : (decodeRaw 4 .tcount
    [false, false, false, false, false, false, true, false, false, true]).toOption = some (.tdeg 9) := by decide
theorem test_decode_pcnt_10 : (decodeRaw 4 .pcount [true, false, true, false]).toOption = some (.pcnt 10) := by decide
theorem test_decode_pdeg_2 : (decodeRaw 4 .pcount [false, false, false, false, false, false, true, false]).toOption
    = some (.pdeg 2) := by decide
theorem test_decode_ptlen_6 : (decodeRaw 4 .ptlen [true, true, false]).toOption = some .ptlen6 := by decide
theorem test_decode_ptlen_7 : (decodeRaw 4 .ptlen [true, true, true, false]).toOption = some .ptlen7 := by decide
theorem test_decode_ptlen_11 : (decodeRaw 4 .ptlen [true, true, true, true, true, true, true, false]).toOption
    = some .ptlen11 := by decide
theorem test_decode_ptlen_16 : (decodeRaw 4 .ptlen
    [true, true, true, true, true, true, true, true, true, true, true, true, false]).toOption = some .ptlen16 := by decide
theorem test_decode_length_17_is_rejected : decodeRaw 4 .ptlen
    [true, true, true, true, true, true, true, true, true, true, true, true, true, false] = .error .lengthAbove16 := by decide
theorem test_decode_tskip_2 : (decodeRaw 4 .tskip [true, false]).toOption = some (.tskip 2) := by decide
theorem test_decode_ccnt_264 : (decodeRaw 4 .ccount [true, false, false, false, false, true, false, false, false]).toOption
    = some (.ccnt 264) := by decide
theorem test_decode_cdeg_65 : (decodeRaw 4 .ccount
    [false, false, false, false, false, false, false, false, false, false, false, true, false, false, false, false, false,
     true]).toOption = some (.cdeg 65) := by decide
theorem test_decode_header : (decodeRaw 4 .hdr
    ([0x07, 0, 0, 0, 0x05, 1, 0, 0].flatMap (toBits 8))).toOption = some (.hdr 7 261) := by decide
theorem test_decode_t_symbols : ([0, 1, 2, 3, 18].map fun c => (decodeCoded .citem c [true, false, true, true]).toOption)
    = [some .cz1, some (.czs 11), some (.czl 352), some .cl1, some .cl16] := by decide
theorem test_decode_c_symbols : ([0, 65, 255, 256, 262, 509, 510].map fun c => (decodeCoded .csym c []).toOption)
    = [some (.lit 0), some (.lit 65), some (.lit 255), some (.matchLen 3), some (.matchLen 9), some (.matchLen 256), none]
    := by decide
theorem test_decode_p_classes : ([0, 1, 2, 3, 31].map fun c => (decodeCoded .off c [true, false]).toOption)
    = [some .off0, some .off1, some (.off2 1), some (.off3 2), none] := by decide
/-- Bits written as 0 and 1, first to be consumed first. -/
def bits (l : List Nat) : List Bool := l.map fun x => x == 1

/-- R95's seventeen codes. -/
def ptlenWords : List (List Nat × Instr) := [
    ([0, 0, 0], .ptlen0), ([0, 0, 1], .ptlen1), ([0, 1, 0], .ptlen2), ([0, 1, 1], .ptlen3), ([1, 0, 0], .ptlen4),
    ([1, 0, 1], .ptlen5), ([1, 1, 0], .ptlen6), ([1, 1, 1, 0], .ptlen7), ([1, 1, 1, 1, 0], .ptlen8),
    ([1, 1, 1, 1, 1, 0], .ptlen9), ([1, 1, 1, 1, 1, 1, 0], .ptlen10), ([1, 1, 1, 1, 1, 1, 1, 0], .ptlen11),
    ([1, 1, 1, 1, 1, 1, 1, 1, 0], .ptlen12), ([1, 1, 1, 1, 1, 1, 1, 1, 1, 0], .ptlen13),
    ([1, 1, 1, 1, 1, 1, 1, 1, 1, 1, 0], .ptlen14), ([1, 1, 1, 1, 1, 1, 1, 1, 1, 1, 1, 0], .ptlen15),
    ([1, 1, 1, 1, 1, 1, 1, 1, 1, 1, 1, 1, 0], .ptlen16)]

theorem test_decode_every_ptlen : ptlenWords.all (fun p => (decodeRaw 4 .ptlen (bits p.1)).toOption == some p.2) = true := by
  decide +kernel

/-- R96: the T symbol `l + 2` is `CL.l`. -/
def clSymbols : List (Nat × Instr) := [
    (3, .cl1), (4, .cl2), (5, .cl3), (6, .cl4), (7, .cl5), (8, .cl6), (9, .cl7), (10, .cl8), (11, .cl9), (12, .cl10),
    (13, .cl11), (14, .cl12), (15, .cl13), (16, .cl14), (17, .cl15), (18, .cl16)]

theorem test_decode_every_cl : clSymbols.all (fun p => (decodeCoded .citem p.1 []).toOption == some p.2) = true := by
  decide +kernel

/-- R98: class `c` with `c - 1` extra bits, here a one and then zeros. -/
def offWords : List (Nat × List Nat × Instr) := [
    (0, [], .off0), (1, [], .off1), (2, [1], .off2 1), (3, [1, 0], .off3 2), (4, [1, 0, 0], .off4 4),
    (5, [1, 0, 0, 0], .off5 8), (6, [1, 0, 0, 0, 0], .off6 16), (7, [1, 0, 0, 0, 0, 0], .off7 32),
    (8, [1, 0, 0, 0, 0, 0, 0], .off8 64), (9, [1, 0, 0, 0, 0, 0, 0, 0], .off9 128),
    (10, [1, 0, 0, 0, 0, 0, 0, 0, 0], .off10 256), (11, [1, 0, 0, 0, 0, 0, 0, 0, 0, 0], .off11 512),
    (12, [1, 0, 0, 0, 0, 0, 0, 0, 0, 0, 0], .off12 1024), (13, [1, 0, 0, 0, 0, 0, 0, 0, 0, 0, 0, 0], .off13 2048),
    (14, [1, 0, 0, 0, 0, 0, 0, 0, 0, 0, 0, 0, 0], .off14 4096),
    (15, [1, 0, 0, 0, 0, 0, 0, 0, 0, 0, 0, 0, 0, 0], .off15 8192),
    (16, [1, 0, 0, 0, 0, 0, 0, 0, 0, 0, 0, 0, 0, 0, 0], .off16 16384),
    (17, [1, 0, 0, 0, 0, 0, 0, 0, 0, 0, 0, 0, 0, 0, 0, 0], .off17 32768),
    (18, [1, 0, 0, 0, 0, 0, 0, 0, 0, 0, 0, 0, 0, 0, 0, 0, 0], .off18 65536),
    (19, [1, 0, 0, 0, 0, 0, 0, 0, 0, 0, 0, 0, 0, 0, 0, 0, 0, 0], .off19 131072),
    (20, [1, 0, 0, 0, 0, 0, 0, 0, 0, 0, 0, 0, 0, 0, 0, 0, 0, 0, 0], .off20 262144),
    (21, [1, 0, 0, 0, 0, 0, 0, 0, 0, 0, 0, 0, 0, 0, 0, 0, 0, 0, 0, 0], .off21 524288),
    (22, [1, 0, 0, 0, 0, 0, 0, 0, 0, 0, 0, 0, 0, 0, 0, 0, 0, 0, 0, 0, 0], .off22 1048576),
    (23, [1, 0, 0, 0, 0, 0, 0, 0, 0, 0, 0, 0, 0, 0, 0, 0, 0, 0, 0, 0, 0, 0], .off23 2097152),
    (24, [1, 0, 0, 0, 0, 0, 0, 0, 0, 0, 0, 0, 0, 0, 0, 0, 0, 0, 0, 0, 0, 0, 0], .off24 4194304),
    (25, [1, 0, 0, 0, 0, 0, 0, 0, 0, 0, 0, 0, 0, 0, 0, 0, 0, 0, 0, 0, 0, 0, 0, 0], .off25 8388608),
    (26, [1, 0, 0, 0, 0, 0, 0, 0, 0, 0, 0, 0, 0, 0, 0, 0, 0, 0, 0, 0, 0, 0, 0, 0, 0], .off26 16777216),
    (27, [1, 0, 0, 0, 0, 0, 0, 0, 0, 0, 0, 0, 0, 0, 0, 0, 0, 0, 0, 0, 0, 0, 0, 0, 0, 0], .off27 33554432),
    (28, [1, 0, 0, 0, 0, 0, 0, 0, 0, 0, 0, 0, 0, 0, 0, 0, 0, 0, 0, 0, 0, 0, 0, 0, 0, 0, 0], .off28 67108864),
    (29, [1, 0, 0, 0, 0, 0, 0, 0, 0, 0, 0, 0, 0, 0, 0, 0, 0, 0, 0, 0, 0, 0, 0, 0, 0, 0, 0, 0], .off29 134217728),
    (30, [1, 0, 0, 0, 0, 0, 0, 0, 0, 0, 0, 0, 0, 0, 0, 0, 0, 0, 0, 0, 0, 0, 0, 0, 0, 0, 0, 0, 0], .off30 268435456)]

theorem test_decode_every_off : offWords.all (fun p =>
    (decodeCoded .off p.1 (bits p.2.1)).toOption == some p.2.2 && p.2.1.length == p.1 - 1) = true := by decide +kernel

/-- R99's codes for the lengths of R165: symbol 2 is '110', symbol 9 is nine ones. -/
theorem test_canonical_codes : codeValue [1, 2, 3, 4, 5, 6, 7, 8, 9, 9] 2 = 6 ∧
    codeValue [1, 2, 3, 4, 5, 6, 7, 8, 9, 9] 9 = 511 := by decide
theorem test_table_words : ([(8, 254), (8, 0), (16, 65), (16, 262), (24, 2), (24, 20), (32, 29)].map fun p =>
    decodeTableWord p.1 p.2) = [some .ptlen11, some .cz1, some (.lit 65), some (.matchLen 9), some (.czl 0),
      some (.off20 0), some (.off29 0)] := by decide

/-! ### The reader: vectors V1 and V3 -/

def readerOf (s : State) : Window × Byte × Nat × Nat × Nat := (s.bitBuf, s.subBitBuf, s.bitCount, s.inPos, s.compRemaining)

theorem test_priming_v1 : readerOf (decoding [0xA5, 0xC3, 0x7E] 1) = (0xA5C37E00, 0, 0, 3, 0) := by decide +kernel
theorem test_priming_v3 : readerOf (decoding [1, 0x23, 0x45, 0x67, 0x89, 0xAB, 0xCD, 0xEF, 0x11, 0x22] 1)
    = (0x01234567, 0x67, 0, 4, 6) := by decide +kernel
theorem test_getBits_v3 :
    let s := ((decoding [1, 0x23, 0x45, 0x67, 0x89, 0xAB, 0xCD, 0xEF, 0x11, 0x22] 1).fillBits 4).fillBits 0
    (s.getBits 32).1 = 0x12345678 ∧ readerOf (s.getBits 32).2 = (0x9ABCDEF1, 0x11, 4, 9, 1) := by decide +kernel
theorem test_getBits_v1 : ((decoding [0xA5, 0xC3, 0x7E] 1).getAll [3, 7, 12, 1, 32]).1 = [5, 0x17, 0xDF, 1, 0] := by
  decide +kernel

/-! ### The builder and the lookup: vector V5 -/

def lensV5 : List Nat := [1, 2, 3, 4, 5, 6, 7, 8, 9, 9, 0, 0, 0, 0, 0, 0, 0, 0, 0]

theorem test_build_v5 :
    (makeTable lensV5 8 (Vector.replicate 256 77) (Vector.replicate _ 77) (Vector.replicate _ 77)).map (fun b =>
      ([0, 127, 128, 192, 224, 240, 248, 252, 254, 255].map b.table.read, b.left.read 19, b.right.read 19, b.avail))
    = some ([0, 0, 1, 2, 3, 4, 5, 6, 7, 19], 8, 9, 20) := by decide +kernel
theorem test_lookup_v5 :
    (makeTable lensV5 8 (Vector.replicate 256 77) (Vector.replicate _ 77) (Vector.replicate _ 77)).map (fun b =>
      [0xFF000000, 0xFF800000, 0xFE000000].map (lookup 19 8 b.table b.left b.right))
    = some [some 8, some 9, some 7] := by decide +kernel
theorem test_oversubscribed_v8 : (makeTable (n := 256) ([1, 1, 1] ++ List.replicate 16 0) 8 (Vector.replicate _ 0)
    (Vector.replicate _ 0) (Vector.replicate _ 0)).isNone = true := by decide +kernel

/-! ### One step each -/

/-- R256, R257: the example of R256, reported; with one byte less, rejected. -/
theorem test_size_query : after (step { placed (.hdr 7 5) with srcLen := 15 }) (fun t => (t.status, t.compSize, t.origSize, t.run))
    = some (.success, 7, 5, .idle) := by decide +kernel
theorem test_size_query_truncated : after (step { placed (.hdr 7 5) with srcLen := 14 }) (fun t => (t.status, t.run))
    = some (.invalidParameter .truncatedHeader, .idle) := by decide +kernel

/-- R263's order from reset: SRC placed and queried before DST exists; then DST provided and DECOMPRESS accepted. -/
def sourceP1 : List Byte := [7, 0, 0, 0, 5, 0, 0, 0, 0, 5, 0, 0, 4, 0x10, 0]

theorem test_query_before_provide : after (step ((State.reset.placeSource sourceP1).issue .sizeQuery)) (fun t => (t.status, t.origSize))
    = some (.success, 5) := by decide +kernel
theorem test_decompress_in_order :
    after (step (((State.reset.placeSource sourceP1).provide (List.replicate 5 0xEE)).issue .decompress)) (fun t => (t.run, t.slot))
    = some (.decode, some .blksize) := by decide +kernel
theorem test_device_memory_is_refused : step ((State.reset.placeSource sourceP1 false).issue .sizeQuery) = .refused .notPlainMemory := rfl
theorem test_shared_source_is_refused : step ((State.reset.placeSource sourceP1).issue .sizeQuery false) = .refused .buffersShared := rfl

/-- V20 (R214): a block size of 0 counts down to 65535 at the first symbol. -/
theorem test_blksize : after (step (placed (.blksize 4))) (fun t => (t.blockCount, t.fsm)) = some (4, .readExtraLengths) := by
  decide +kernel
theorem test_block_counter_wraps : after (step { placed (.lit 65) with blockCount := 0 }) (fun t => (t.blockCount, t.fsm))
    = some (65535, .decodingBlock) := by decide +kernel

theorem test_tcnt : after (step (placed (.tcnt 17))) (fun t => (t.point, t.slot)) = some (.entries 17 0, some .ptlen) := by
  decide +kernel
theorem test_tdeg_19_faults : step (placed (.tdeg 19)) = .fault .degenerateSymbolOutOfRange := by rfl
theorem test_cdeg_510_faults : step (placed (.cdeg 510)) = .fault .degenerateSymbolOutOfRange := by rfl
/-- V24: after `PDEG 2` every P lookup gives class 2 at no cost. -/
theorem test_pdeg : after (step (placed (.pdeg 2))) (fun t => (t.fsm, t.lookupSym .P, t.codeLength .P 2))
    = some (.buildOffsetTable, some 2, 0) := by decide +kernel
/-- R215: a filled Build state passes on although its lengths, all 0, would be `BadTable`. -/
theorem test_filled_build_state : after (step { placed (.blksize 0) with fsm := .buildOffsetTable, point := .filled })
    (fun t => (t.fsm, t.point, t.badTable)) = some (.decodingBlock, .start, false) := by decide +kernel
/-- R178's example: length 11 takes 8 bits. -/
theorem test_ptlen : after (step (placed .ptlen11)) (fun t => (t.ptLen.read 0, t.point)) = some (11, .entries 19 1) := by
  decide +kernel
theorem test_third_length_opens_tskip : after (step { placed .ptlen1 with point := .entries 5 2 })
    (fun t => (t.ptLen.read 2, t.point)) = some (1, .skip 5) := by decide +kernel
/-- R179's example: `TSKIP 2` zeroes entries 3 and 4. -/
theorem test_tskip : after (step { placed (.tskip 2) with ptLen := Vector.replicate _ 9 })
    (fun t => ([2, 3, 4, 5].map t.ptLen.read, t.point)) = some ([9, 0, 0, 9], .entries 19 5) := by decide +kernel
theorem test_cl : after (step { placed .cl16 with point := .entries 510 7 }) (fun t => (t.cLen.read 7, t.point))
    = some (16, .entries 510 8) := by decide +kernel
/-- R191's example: at entry 500 a run of 20 stops at entry 509. -/
theorem test_run_is_capped : after (step { placed (.czl 0) with point := .entries 511 500, cLen := Vector.replicate _ 1 })
    (fun t => (t.cLen.read 499, t.cLen.read 500, t.cLen.read 509, t.fsm)) = some (1, 0, 0, .buildLiteralTable) := by
  decide +kernel

/-- R233's example. -/
theorem test_lit : after (step (placed (.lit 65))) (fun t => (t.dst.read 0, t.outPos)) = some (0x41, 1) := by decide +kernel

/-- The copy of R234's example and of V13 and V14: DST `41 42 43`, or `5A`, before the match. -/
def copying (i : Instr) (m out : Nat) (dst : List Byte) (orig : Nat) : State :=
  { placed i with point := .offset m, outPos := out, dst := Memory.ofBytes 0 dst, origSize := BitVec.ofNat 32 orig }

theorem test_match_waits : after (step (placed (.matchLen 9))) (fun t => (t.point, t.outPos)) = some (.offset 9, 0) := by
  decide +kernel
theorem test_copy_of_r234 : after (step (copying (.off2 0) 9 3 [0x41, 0x42, 0x43] 12))
    (fun t => ((List.range 13).map t.dst.read, t.outPos))
    = some ([0x41, 0x42, 0x43, 0x41, 0x42, 0x43, 0x41, 0x42, 0x43, 0x41, 0x42, 0x43, 0], 12) := by decide +kernel
theorem test_copy_stops_at_the_end_v13 : after (step (copying (.off2 0) 9 3 [0x41, 0x42, 0x43] 5))
    (fun t => ((List.range 6).map t.dst.read, t.outPos)) = some ([0x41, 0x42, 0x43, 0x41, 0x42, 0], 5) := by decide +kernel
theorem test_overlap_v14 : after (step (copying .off0 10 1 [0x5A] 11))
    (fun t => ((List.range 12).map t.dst.read, t.outPos)) = some (List.replicate 11 0x5A ++ [0], 11) := by decide +kernel
theorem test_before_start_v16 : step (copying .off1 10 1 [0x5A] 11) = .fault .backRefBeforeStart := by rfl
/-- V23: class 9 with extra bits `10101010` is offset 426, distance 427. -/
theorem test_extra_bits_v23 : after (step { copying (.off9 0xAA) 3 500 [] 501 with dst := [(73, 0x7B)] })
    (fun t => (t.dst.read 500, t.outPos)) = some (0x7B, 501) := by decide +kernel

theorem test_bad_table : after (step { placed (.blksize 0) with fsm := .buildExtraTable })
    (fun t => (t.badTable, t.fsm, t.status, t.run)) = some (true, .failed, .invalidParameter .corruptTable, .idle) := by
  decide +kernel
theorem test_idle_waits : step State.reset = .next State.reset := rfl

/-! ## Part 2: no statement has empty hypotheses -/

/-! ### The reader and the encodings -/

theorem witness_reader : ReaderAt (placed (.blksize 4)) 0 := by
  constructor <;> decide +kernel

/-- `FillBitsMovesTheReader`, at both ends of its range. -/
theorem witness_FillBits : (∃ (s : State) (p : Nat), 0 ≤ 32 ∧ ReaderAt s p) ∧ ∃ (s : State) (p : Nat), 32 ≤ 32 ∧ ReaderAt s p :=
  ⟨⟨_, _, by decide, witness_reader⟩, ⟨_, _, by decide, witness_reader⟩⟩

theorem witness_GetBits : ∃ (s : State) (p : Nat) (ns : List Nat), (∀ n ∈ ns, n ≤ 32) ∧ ReaderAt s p ∧ ns = [0, 16, 32] :=
  ⟨_, _, _, by decide, witness_reader, rfl⟩

/-- The books of program P2 at full length. -/
def booksP2 : Books where
  t := .canonical ([0, 0, 1, 0, 1] ++ List.replicate 14 0)
  c := .canonical (List.replicate 65 0 ++ [2, 2, 2] ++ List.replicate 194 0 ++ [2] ++ List.replicate 247 0)
  p := .degenerate 2

theorem witness_books : booksP2.fit := by
  intro a
  cases a
  · exact ⟨by decide +kernel, by decide +kernel, by decide +kernel⟩
  · exact ⟨by decide +kernel, by decide +kernel, by decide +kernel⟩
  · exact (by decide : 2 < 31)

/-- `EncodedElementDecodesToItself`: one element of each format, both widths of `PBIT`. -/
theorem witness_Encoded : booksP2.fit ∧ (4 = 4 ∨ 4 = 5) ∧ (5 = 4 ∨ 5 = 5) ∧
    (∀ i ∈ [Instr.hdr 7 5, .blksize 0, .tcnt 31, .tdeg 31, .pcnt 15, .pdeg 15, .ptlen16, .tskip 3, .ccnt 511, .cdeg 511,
      .czl 511, .cl2, .lit 65, .matchLen 9, .off2 1], i.wellFormed 4 = true ∧ i.coded booksP2) ∧
    (Instr.pdeg 31).wellFormed 5 = true := by
  refine ⟨witness_books, by decide, by decide, ?_, by decide⟩
  intro i hi
  simp only [List.mem_cons, List.not_mem_nil, or_false] at hi
  rcases hi with rfl | rfl | rfl | rfl | rfl | rfl | rfl | rfl | rfl | rfl | rfl | rfl | rfl | rfl | rfl <;>
    refine ⟨by decide, ?_⟩ <;> intro a sym ha hs <;> cases ha <;> cases hs <;>
    first | rfl | (simp only [Books.get, booksP2, Book.has]; decide +kernel)

/-- `DecodedElementEncodesToItsBits`. -/
theorem witness_Decoded : booksP2.fit ∧ (4 = 4 ∨ 4 = 5) ∧
    ∃ (b rest : List Bool) (i : Instr), 64 ≤ b.length ∧ decode booksP2 4 .csym b = .ok (i, rest) :=
  ⟨witness_books, by decide, List.replicate 64 true, List.replicate 62 true, .matchLen 9, by decide, by decide +kernel⟩

/-! ### The builder -/

theorem witness_EveryWord : completeLengths 19 lensV5 ∧ 65535 < 65536 :=
  ⟨⟨by decide, by decide, by decide +kernel⟩, by decide⟩

/-- `ShortCodeTableDecodesEveryWindow`, at the narrowest and the widest table. -/
theorem witness_ShortCode :
    (∃ b, makeTable (n := 2 ^ 1) [1, 1] 1 (Vector.replicate _ 0) (Vector.replicate _ 0) (Vector.replicate _ 0) = some b) ∧
    (∀ l ∈ [1, 1], l ≤ 1) ∧
    (∃ b, makeTable (n := 2 ^ 12) [1, 2, 3, 4, 5, 6, 7, 8, 9, 10, 11, 12, 12] 12 (Vector.replicate _ 0) (Vector.replicate _ 0)
      (Vector.replicate _ 0) = some b) ∧ ∀ l ∈ [1, 2, 3, 4, 5, 6, 7, 8, 9, 10, 11, 12, 12], l ≤ 12 :=
  ⟨Option.isSome_iff_exists.mp (by decide +kernel), by decide, Option.isSome_iff_exists.mp (by decide +kernel), by decide⟩

/-- `BuiltStructureDecodesEveryWindow`: each alphabet, with long codes. -/
theorem witness_BuiltStructure :
    (∃ b, makeTable (n := 256) lensV5 8 (Vector.replicate _ 77) (Vector.replicate _ 77) (Vector.replicate _ 77) = some b) ∧
    (∃ b, makeTable (n := 256) (lensV5 ++ List.replicate 12 0) 8 (Vector.replicate _ 77) (Vector.replicate _ 77)
      (Vector.replicate _ 77) = some b) ∧
    (∃ b, makeTable (n := 4096) ([1, 2, 3, 4, 5, 6, 7, 8, 9, 10, 11, 12, 13, 14, 15, 16, 16] ++ List.replicate 493 0) 12
      (Vector.replicate _ 77) (Vector.replicate _ 77) (Vector.replicate _ 77) = some b) ∧
    lensV5.length = 19 ∧ (lensV5 ++ List.replicate 12 0).length = 31 ∧
    ([1, 2, 3, 4, 5, 6, 7, 8, 9, 10, 11, 12, 13, 14, 15, 16, 16] ++ List.replicate 493 0).length = 510 :=
  ⟨Option.isSome_iff_exists.mp (by decide +kernel), Option.isSome_iff_exists.mp (by decide +kernel),
    Option.isSome_iff_exists.mp (by decide +kernel), by decide, by decide, by decide +kernel⟩

/-- Build states with T lengths that pass the checks, with none, and filled. -/
def buildingGood : State := { placed (.blksize 0) with fsm := .buildExtraTable, ptLen := (Vector.replicate _ 0).set 0 1 |>.set 1 1 }
def buildingBad : State := { placed (.blksize 0) with fsm := .buildOffsetTable }
def buildingFilled : State := { placed (.blksize 0) with fsm := .buildLiteralTable, point := .filled }

theorem witness_BuildState :
    (buildingFilled.run = .decode ∧ buildingFilled.building = some .C ∧ buildingFilled.inBounds = true ∧
      buildingFilled.point = .filled) ∧
    (buildingGood.run = .decode ∧ buildingGood.building = some .T ∧ buildingGood.inBounds = true ∧ buildingGood.point ≠ .filled ∧
      completeLengths (alphabetSize .T) (buildingGood.lengths .T)) ∧
    (buildingBad.run = .decode ∧ buildingBad.building = some .P ∧ buildingBad.inBounds = true ∧ buildingBad.point ≠ .filled ∧
      ¬ completeLengths (alphabetSize .P) (buildingBad.lengths .P)) := by
  refine ⟨⟨rfl, rfl, by decide +kernel, rfl⟩,
    ⟨rfl, rfl, by decide +kernel, by decide +kernel, ⟨by decide +kernel, by decide +kernel, by decide +kernel⟩⟩,
    ⟨rfl, rfl, by decide +kernel, by decide +kernel, fun h => absurd h.2.2 (by decide +kernel)⟩⟩

/-! ### Elements: each is ready somewhere -/

/-- `State.ready` and `State.lengthsFit` as tests. -/
def isReady (s : State) (i : Instr) : Bool := decide (s.slot = some i.slot) && i.wellFormed s.pWidth && s.inBounds

def doLengthsFit (s : State) : Bool := s.ptLen.toList.all (fun l => decide (l ≤ 16)) && s.cLen.toList.all (fun l => decide (l ≤ 16))

theorem ready_of_isReady {s : State} {i : Instr} (h : isReady s i = true) : s.ready i := by
  simpa [isReady, State.ready, and_assoc] using h

theorem read_le_of_all {n : Nat} {t : Tab n} (h : t.toList.all (fun l => decide (l ≤ 16)) = true) (j : Nat) : t.read j ≤ 16 := by
  unfold Tab.read
  cases hj : t[j]? with
  | none => exact Nat.zero_le _
  | some v =>
    have hm : v ∈ t.toList := Vector.mem_toList_iff.mpr (Vector.mem_of_getElem? hj)
    exact of_decide_eq_true (List.all_eq_true.mp h v hm)

theorem lengthsFit_of_doLengthsFit {s : State} (h : doLengthsFit s = true) : s.lengthsFit := by
  obtain ⟨h1, h2⟩ := Bool.and_eq_true_iff.mp h
  exact ⟨fun i _ => read_le_of_all h1 i, fun i _ => read_le_of_all h2 i⟩

/-- Elements of every format but the offsets, at the ends of their operand ranges. -/
def headerElements : List Instr := [.blksize 0, .tcnt 1, .tcnt 31, .pcnt 1, .pcnt 15, .ccnt 1, .ccnt 511, .tdeg 0, .tdeg 18,
  .pdeg 0, .pdeg 15, .cdeg 0, .cdeg 509, .tdeg 19, .tdeg 31, .cdeg 510, .cdeg 511, .tskip 0, .tskip 3]

def lengthElements : List Instr := [.ptlen0, .ptlen1, .ptlen2, .ptlen3, .ptlen4, .ptlen5, .ptlen6, .ptlen7, .ptlen8, .ptlen9,
  .ptlen10, .ptlen11, .ptlen12, .ptlen13, .ptlen14, .ptlen15, .ptlen16]

def itemElements : List Instr := [.cz1, .czs 0, .czs 15, .czl 0, .czl 511, .cl1, .cl2, .cl3, .cl4, .cl5, .cl6, .cl7, .cl8, .cl9,
  .cl10, .cl11, .cl12, .cl13, .cl14, .cl15, .cl16, .lit 0, .lit 255, .matchLen 3, .matchLen 256]

def elements : List Instr := List.append headerElements (List.append lengthElements itemElements)

theorem witness_ready : ∀ i ∈ elements, (placed i).ready i := by
  have h : ∀ i ∈ elements, isReady (placed i) i = true := by decide +kernel
  exact fun i hi => ready_of_isReady (h i hi)

/-- The same of the thirty-one offset elements, each at the largest operand, with DST long enough for its distance. -/
theorem witness_ready_off : ∀ c, c < 31 → ∃ i, offInstr c (2 ^ (c - 1) - 1) = some i ∧ (placed i).ready i ∧
    (placed i).point = .offset 3 ∧ (placed i).outPos = 2 ^ 31 ∧ (placed i).origSize.toNat = 2 ^ 32 - 1 := by
  have h : ∀ c, c < 31 → ((offInstr c (2 ^ (c - 1) - 1)).map fun i => decide ((placed i).slot = some i.slot ∧
      i.wellFormed (placed i).pWidth = true ∧ (placed i).inBounds = true ∧ (placed i).point = .offset 3 ∧
      (placed i).outPos = 2 ^ 31 ∧ (placed i).origSize.toNat = 2 ^ 32 - 1)) = some true := by decide +kernel
  intro c hc
  obtain ⟨i, hi, hd⟩ := Option.map_eq_some_iff.mp (h c hc)
  obtain ⟨h1, h2, h3, h4, h5, h6⟩ := of_decide_eq_true hd
  exact ⟨i, hi, ⟨h1, h2, h3⟩, h4, h5, h6⟩

/-- `DegenerateDescriptionIsUniform` and `DegenerateSymbolOutOfRangeFaults` with the sister format's `PBIT`: the last P symbol, and
the value past it. -/
def pdegFive (x : BitVec 5) : State := { placed (.pdeg x) with pBit := 5 }

theorem witness_pdeg_five : (pdegFive 30).ready (.pdeg 30) ∧ 30 < alphabetSize .P ∧ (pdegFive 31).ready (.pdeg 31) ∧
    31 ≤ (31 : BitVec 5).toNat :=
  ⟨ready_of_isReady (by decide +kernel), by decide, ready_of_isReady (by decide +kernel), by decide⟩

/-- An element placed at an entry of a description. -/
def atEntry (i : Instr) (fsm : Fsm) (number idx : Nat) : State := { placed i with fsm := fsm, point := .entries number idx }

/-- `PtLengthEntryIsStored`: the third T entry, an entry with more to come, and a last one, T and P, at lengths 0 and 16. -/
theorem witness_PtLengthEntry : ∀ i ∈ [Instr.ptlen0, .ptlen16],
    (atEntry i .readExtraLengths 5 2).ready i ∧ (atEntry i .readExtraLengths 5 0).ready i ∧
    (atEntry i .readExtraLengths 31 30).ready i ∧ (atEntry i .readExtraLengths 1 0).ready i ∧
    (atEntry i .readOffsetLengths 5 2).ready i ∧ (atEntry i .readOffsetLengths 15 14).ready i := by
  have h : ∀ i ∈ [Instr.ptlen0, .ptlen16], (isReady (atEntry i .readExtraLengths 5 2) i && isReady (atEntry i .readExtraLengths 5 0) i &&
      isReady (atEntry i .readExtraLengths 31 30) i && isReady (atEntry i .readExtraLengths 1 0) i &&
      isReady (atEntry i .readOffsetLengths 5 2) i && isReady (atEntry i .readOffsetLengths 15 14) i) = true := by decide +kernel
  intro i hi
  have hb := h i hi
  simp only [Bool.and_eq_true] at hb
  obtain ⟨⟨⟨⟨⟨h1, h2⟩, h3⟩, h4⟩, h5⟩, h6⟩ := hb
  exact ⟨ready_of_isReady h1, ready_of_isReady h2, ready_of_isReady h3, ready_of_isReady h4, ready_of_isReady h5,
    ready_of_isReady h6⟩

/-- `SkipZeroesEntries`: entries left, and none left. -/
theorem witness_Skip : (placed (.tskip 3)).ready (.tskip 3) ∧ (placed (.tskip 3)).point = .skip 19 ∧
    ({ placed (.tskip 0) with point := .skip 3 } : State).ready (.tskip 0) :=
  ⟨ready_of_isReady (by decide +kernel), rfl, ready_of_isReady (by decide +kernel)⟩

/-- `CLengthEntryIsStored` and `ZeroRunStopsAtTheLastEntry`: an entry with more to come, the last by count, the last of the
array. -/
theorem witness_CLengthEntry : ∀ i ∈ [Instr.cl1, .cl16, .cz1, .czs 15, .czl 511], ∀ p ∈ [(510, 0), (1, 0), (511, 509)],
    (atEntry i .readLiteralLengths p.1 p.2).ready i ∧ (atEntry i .readLiteralLengths p.1 p.2).lengthsFit := by
  have h : ∀ i ∈ [Instr.cl1, .cl16, .cz1, .czs 15, .czl 511], ∀ p ∈ [(510, 0), (1, 0), (511, 509)],
      (isReady (atEntry i .readLiteralLengths p.1 p.2) i && doLengthsFit (atEntry i .readLiteralLengths p.1 p.2)) = true := by
    decide +kernel
  intro i hi p hp
  obtain ⟨h1, h2⟩ := Bool.and_eq_true_iff.mp (h i hi p hp)
  exact ⟨ready_of_isReady h1, lengthsFit_of_doLengthsFit h2⟩

/-- `LengthAboveSixteenAborts`. -/
def thirteenOnes : State := { placed .ptlen0 with bitBuf := 0xFFF80000 }

theorem witness_LengthAboveSixteen : thirteenOnes.run = .decode ∧ thirteenOnes.slot = some .ptlen ∧ thirteenOnes.inBounds = true ∧
    thirteenOnes.bitBuf.toNat / 2 ^ 19 = 2 ^ 13 - 1 := ⟨rfl, by decide +kernel, by decide +kernel, by decide⟩

/-- `BlockEndsAfterItsSymbols`, at the ends of both ranges. -/
theorem witness_BlockEnds : (1 ≤ 1 ∧ 1 ≤ if ({ State.reset with blockCount := 1 } : State).blockCount = 0 then 65536 else
      ({ State.reset with blockCount := 1 } : State).blockCount.toNat) ∧
    (1 ≤ 65536 ∧ 65536 ≤ if State.reset.blockCount = 0 then 65536 else State.reset.blockCount.toNat) := by decide

/-- `LiteralWritesItsByte` and `MatchWaitsForItsOffset`. -/
theorem witness_Literal : (placed (.lit 255)).ready (.lit 255) ∧ (placed (.lit 255)).lengthsFit ∧ (placed (.lit 255)).dst.wf = true ∧
    (placed (.lit 255)).outPos < (placed (.lit 255)).origSize.toNat :=
  ⟨witness_ready _ (by decide), lengthsFit_of_doLengthsFit (by decide +kernel), by decide +kernel, by decide +kernel⟩

theorem witness_Match : (placed (.matchLen 256)).ready (.matchLen 256) ∧ (placed (.matchLen 256)).lengthsFit :=
  ⟨witness_ready _ (by decide), lengthsFit_of_doLengthsFit (by decide +kernel)⟩

/-- `OffsetCopiesTheMatch`: the first class and the longest distance. -/
theorem witness_OffsetCopies : (placed .off0).ready .off0 ∧ (placed .off0).lengthsFit ∧ (placed .off0).dst.wf = true ∧
    (placed .off0).point = .offset 3 ∧ 0 + 1 ≤ (placed .off0).outPos ∧ (placed .off0).outPos ≤ (placed .off0).origSize.toNat ∧
    2 ^ 29 + (2 ^ 29 - 1) + 1 ≤ (placed (.off30 0)).outPos :=
  ⟨ready_of_isReady (by decide +kernel), lengthsFit_of_doLengthsFit (by decide +kernel), by decide +kernel, rfl, by decide +kernel,
    by decide +kernel, by decide +kernel⟩

/-- `BackReferenceBeforeStartFaults`: nothing written yet, and one byte short. -/
theorem witness_BackReference : offInstr 0 0 = some .off0 ∧ ({ placed .off0 with outPos := 0 } : State).ready .off0 ∧
    ({ placed .off0 with outPos := 0 } : State).point = .offset 3 ∧ 0 < 0 + 1 ∧
    ({ placed .off1 with outPos := 1 } : State).ready .off1 ∧ 1 < 1 + 1 :=
  ⟨rfl, ready_of_isReady (by decide +kernel), rfl, by decide, ready_of_isReady (by decide +kernel), by decide⟩

/-! ### Host commands -/

/-- A DECOMPRESS about to read its header, with a source of `len` bytes and a destination of `orig`. -/
def commanded (len orig : Nat) : State :=
  { State.reset with run := .header .decompress, srcLen := len, grant := ⟨orig, true, true, true, true, true⟩ }

/-- `SizeQueryReportsTheHeader`, the source long enough and one byte short. -/
theorem witness_SizeQuery : ∀ len ∈ [15, 14], ({ placed (.hdr 7 5) with srcLen := len } : State).run = .header .sizeQuery ∧
    ({ placed (.hdr 7 5) with srcLen := len } : State).brokenPromise .sizeQuery = none ∧ 8 ≤ len ∧
    ((placed (.hdr 7 5)).src.read 0).toNat = 7 ∧ ((placed (.hdr 7 5)).src.read 4).toNat = 5 := by decide +kernel

/-- `SizeQueryDependsOnTheHeaderOnly`: two states that differ in everything else. -/
theorem witness_SizeQueryDepends : (placed (.hdr 7 5)).run = .header .sizeQuery ∧
    (placed (.hdr 7 5)).brokenPromise .sizeQuery = none ∧
    ({ placed (.hdr 7 5) with outPos := 9, fsm := .failed, src := (placed (.hdr 7 5)).src.write 20 1 } : State).run
      = .header .sizeQuery ∧
    ∀ a, a < 8 → ((placed (.hdr 7 5)).src.write 20 1).read a = (placed (.hdr 7 5)).src.read a := by decide +kernel

/-- `DecompressInitialisesAndPrimes` and `DecompressForgetsThePast`. -/
theorem witness_Decompress : (commanded 15 5).run = .header .decompress ∧ (commanded 15 5).brokenPromise .decompress = none ∧
    (commanded 15 5).grant.dstLen = (5 : BitVec 32).toNat ∧ (5 : BitVec 32) ≠ 0 ∧ 8 + (7 : BitVec 32).toNat ≤ (commanded 15 5).srcLen ∧
    ({ commanded 15 5 with fsm := .failed, badTable := true, outPos := 3 } : State).run = .header .decompress := by decide

theorem witness_EmptyOutput : (commanded 8 0).run = .header .decompress ∧ (commanded 8 0).brokenPromise .decompress = none ∧
    (commanded 8 0).grant.dstLen = 0 ∧ 8 ≤ (commanded 8 0).srcLen ∧ 8 + (0 : BitVec 32).toNat ≤ (commanded 8 0).srcLen ∧
    (commanded 8 0).srcLen < 8 + (1 : BitVec 32).toNat := by decide

/-- `ShortSourceIsTruncatedHeader`, each clause at its boundary. -/
theorem witness_ShortSource : ((commanded 7 0).run = .header .decompress ∧ (commanded 7 0).brokenPromise .decompress = none ∧
      (commanded 7 0).srcLen < 8) ∧
    ((commanded 14 5).run = .header .decompress ∧ (commanded 14 5).brokenPromise .decompress = none ∧
      (commanded 14 5).dstFits .decompress 5 = true ∧ 8 ≤ (commanded 14 5).srcLen ∧
      (commanded 14 5).srcLen < 8 + (7 : BitVec 32).toNat) := by decide

/-- `BrokenPreconditionsAreRefused`: each promise broken. -/
theorem witness_BrokenPreconditions : ∀ g ∈ [Grant.mk 5 true false true true true, ⟨5, true, true, false, true, true⟩,
    ⟨5, true, true, true, false, true⟩, ⟨5, true, true, true, true, false⟩, ⟨5, false, true, true, true, true⟩,
    ⟨4, true, true, true, true, true⟩],
    ({ commanded 15 5 with grant := g } : State).run = .header .decompress ∧ 8 ≤ (commanded 15 5).srcLen ∧
    (g.srcPlain = false ∨ g.dstPlain = false ∨ g.disjoint = false ∨ g.exclusive = false ∨ g.scratchOk = false ∨
      g.dstLen ≠ (5 : BitVec 32).toNat) := by decide

theorem witness_BrokenQuery : ∀ g ∈ [Grant.mk 0 false false true true true, ⟨0, false, true, true, true, false⟩],
    ({ placed (.hdr 7 5) with grant := g } : State).run = .header .sizeQuery ∧ (g.srcPlain = false ∨ g.exclusive = false) := by
  decide +kernel

/-- `HostsOrderIsAnswered`: a destination of the size the header of program P1 names. -/
theorem witness_HostsOrder : 8 ≤ sourceP1.length ∧ (List.replicate 5 (0xEE : Byte)).length = (sourceP1.getD 4 0).toNat +
    2 ^ 8 * (sourceP1.getD 5 0).toNat + 2 ^ 16 * (sourceP1.getD 6 0).toNat + 2 ^ 24 * (sourceP1.getD 7 0).toNat := by decide

/-! ### The step -/

/-- `StepRunsTheFetchedElement`, both clauses. -/
theorem witness_StepRuns : ((placed .ptlen11).run = .decode ∧ ((placed .ptlen11).passStart = true → (placed .ptlen11).hasRoom = true) ∧
      (placed .ptlen11).inBounds = true ∧ (placed .ptlen11).building = none ∧ (placed .ptlen11).fetch.toOption = some .ptlen11) ∧
    ((placed (.hdr 7 5)).run = .header .sizeQuery ∧ 8 ≤ (placed (.hdr 7 5)).srcLen ∧
      (placed (.hdr 7 5)).fetch.toOption = some (.hdr 7 5)) := by decide +kernel

/-- `StepRunsTheElementAtTheCursor`: a RAW element, and a coded one with an operand. -/
theorem witness_AtTheCursor : ReaderAt (placed (.blksize 4)) 0 ∧ (placed (.blksize 4)).lengthsFit ∧
    (∀ k, k < 16 → (placed (.blksize 4)).streamBit (0 + k) = ((Instr.blksize 4).rawBits 4).getD k false) ∧
    ReaderAt (placed (.czl 5)) 0 ∧ (placed (.czl 5)).lengthsFit ∧ (placed (.czl 5)).lookupSym .T = some 2 ∧
    (∀ k, k < 9 → (placed (.czl 5)).streamBit (0 + (placed (.czl 5)).codeLength .T 2 + k) = ((Instr.czl 5).rawBits 4).getD k false) := by
  refine ⟨witness_reader, lengthsFit_of_doLengthsFit (by decide +kernel), by decide +kernel,
    by constructor <;> decide +kernel, lengthsFit_of_doLengthsFit (by decide +kernel), by decide +kernel, by decide +kernel⟩

/-- A decode whose destination is full. -/
def full : State := { placed (.blksize 4) with outPos := 2 ^ 32 - 1 }

theorem witness_NothingIsFetched : full.run = .decode ∧ full.passStart = true ∧ full.outPos = full.origSize.toNat := by
  decide +kernel

/-- `NoStepWritesTheHostsInputs`, `FsmFollowsItsTable` and `OutputIsWrittenInOrder`. -/
theorem witness_OutputIsWritten : ∃ t, step (placed (.lit 65)) = .next t ∧ (placed (.lit 65)).run = .decode ∧
    (placed (.lit 65)).dst.wf = true ∧ (placed (.lit 65)).outPos ≤ (placed (.lit 65)).origSize.toNat :=
  ⟨_, rfl, rfl, by decide +kernel, by decide +kernel⟩

theorem witness_BadTableEnds : ∃ t, step buildingBad = .next t ∧ buildingBad.badTable = false ∧ t.badTable = true :=
  ⟨_, rfl, by decide +kernel, by decide +kernel⟩

/-- `SurplusSourceIsNeverRead`: two sources that differ at index 16, the first surplus byte. -/
theorem witness_Surplus : (placed (.blksize 4)).run = .decode ∧
    (placed (.blksize 4)).inPos + (placed (.blksize 4)).compRemaining = (placed (.blksize 4)).compSize.toNat ∧
    (∀ a, a < 8 + (placed (.blksize 4)).compSize.toNat →
      ((placed (.blksize 4)).src.write 16 1).read a = (placed (.blksize 4)).src.read a) ∧
    ((placed (.blksize 4)).src.write 16 1).read 16 ≠ (placed (.blksize 4)).src.read 16 := by decide +kernel

/-! ### The invariant -/

theorem witness_Inv_reset : State.reset.Inv where
  srcWf := by decide
  dstWf := by decide
  wired := rfl
  ptLens := (lengthsFit_of_doLengthsFit (by decide +kernel)).1
  cLens := (lengthsFit_of_doLengthsFit (by decide +kernel)).2
  running := fun h => by cases h

/-- A decode at the head of its first block, and a full one. -/
theorem witness_Inv_decoding : (placed (.blksize 4)).Inv where
  srcWf := by decide +kernel
  dstWf := by decide +kernel
  wired := rfl
  ptLens := (lengthsFit_of_doLengthsFit (by decide +kernel)).1
  cLens := (lengthsFit_of_doLengthsFit (by decide +kernel)).2
  running := fun _ =>
    { reader := ⟨0, witness_reader⟩
      srcFits := by decide +kernel
      dstFits := by decide +kernel
      promises := by decide +kernel
      room := by decide +kernel
      flag := by decide +kernel
      place := .inr (by decide +kernel)
      block := fun _ => by decide +kernel
      pending := fun _ h => by cases h }

theorem witness_Inv_full : full.Inv where
  srcWf := by decide +kernel
  dstWf := by decide +kernel
  wired := rfl
  ptLens := (lengthsFit_of_doLengthsFit (by decide +kernel)).1
  cLens := (lengthsFit_of_doLengthsFit (by decide +kernel)).2
  running := fun _ =>
    { reader := ⟨0, by constructor <;> decide +kernel⟩
      srcFits := by decide +kernel
      dstFits := by decide +kernel
      promises := by decide +kernel
      room := by decide +kernel
      flag := by decide +kernel
      place := .inr (by decide +kernel)
      block := fun _ => by decide +kernel
      pending := fun _ h => by cases h }

/-- `HostActionsKeepTheInvariant`. -/
theorem witness_HostActions : State.reset.Inv ∧ State.reset.run = .idle := ⟨witness_Inv_reset, rfl⟩

/-- `EveryStepKeepsTheInvariant` and `NoStepLeavesTheMemories`. -/
theorem witness_EveryStep : (placed (.blksize 4)).Inv ∧ ∃ t, step (placed (.blksize 4)) = .next t := ⟨witness_Inv_decoding, _, rfl⟩

theorem witness_Success : full.Inv ∧ full.run = .decode ∧ ∃ t, step full = .next t ∧ t.run = .idle ∧ t.badTable = false :=
  ⟨witness_Inv_full, rfl, _, rfl, rfl, by decide +kernel⟩

theorem witness_Refinement : (placed (.blksize 4)).Inv ∧ (placed (.blksize 4)).run = .decode ∧ (placed (.blksize 4)).passStart = true ∧
    (placed (.blksize 4)).hasRoom = true ∧ (placed (.blksize 4)).fsm = .needNewBlock :=
  ⟨witness_Inv_decoding, rfl, by decide +kernel, by decide +kernel, rfl⟩

/-- One step of a run. -/
theorem run_next (k : Nat) {s t : State} (h : step s = .next t) :
    Host.Core.run Sys2Proof.core (k + 1) s = Host.Core.run Sys2Proof.core k t := by
  have hc : Sys2Proof.core.step s = .next t := h
  simp only [Host.Core.run, hc]

/-- Once idle, always idle. -/
theorem run_idle (k : Nat) {s : State} (h : s.run = .idle) : Host.Core.run Sys2Proof.core k s = .next s := by
  induction k with
  | zero => rfl
  | succ k ih => rw [run_next k (t := s) (by simp [step, h]), ih]

theorem witness_EveryDecodeEnds : full.Inv ∧ full.run = .decode ∧
    ∃ t, Host.Core.run Sys2Proof.core (600 * (full.origSize.toNat - full.outPos) + 600) full = .next t := by
  refine ⟨witness_Inv_full, rfl, ?_⟩
  have h : full.origSize.toNat - full.outPos = 0 := by decide +kernel
  have hs : step full = .next full.succeed := rfl
  rw [h, show 600 * 0 + 600 = 599 + 1 from rfl, run_next 599 hs]
  exact ⟨_, run_idle 599 rfl⟩

end Sys2Proof.Tests
end

section
/-! The bit reader stands in the padded stream (R131 to R133): `fillBits` moves it, and the priming fill of R311 is the
same move made from a window that still lies wholly before the stream. -/

namespace Sys2Proof.Machine

/-! ### What one refill pass leaves -/

@[simp] theorem refill_bitCount (s : State) (k : Nat) : (s.refill k).bitCount = 8 := by
  unfold State.refill
  split <;> rfl

@[simp] theorem refill_bitBuf (s : State) (k : Nat) :
    (s.refill k).bitBuf = s.bitBuf ||| ((BitVec.ofNat 32 (s.subBitBuf.toNat % 2 ^ s.bitCount)) <<< k) := by
  unfold State.refill
  split <;> rfl

theorem refill_of_payload {s : State} (k : Nat) (h : 0 < s.compRemaining) :
    (s.refill k).subBitBuf = s.src.read (Config.HDRLEN + s.inPos) ∧ (s.refill k).inPos = s.inPos + 1 := by
  simp [State.refill, h]

theorem refill_of_exhausted {s : State} (k : Nat) (h : ¬ 0 < s.compRemaining) :
    (s.refill k).subBitBuf = 0 ∧ (s.refill k).inPos = s.inPos := by
  simp [State.refill, h]

/-! ### The stream with a window of zeros before it -/

/-- The padded stream of R131 after 32 zero bits: what the window of `init()` holds before the priming fill (R310, R311). -/
def State.paddedBit (s : State) (k : Nat) : Bool := if k < 32 then false else s.streamBit (k - 32)

theorem streamBit_congr {s t : State} (hc : t.compSize = s.compSize) (hs : t.src = s.src) (k : Nat) :
    t.streamBit k = s.streamBit k := by
  simp [State.streamBit, hc, hs]

theorem paddedBit_congr {s t : State} (hc : t.compSize = s.compSize) (hs : t.src = s.src) (k : Nat) :
    t.paddedBit k = s.paddedBit k := by
  simp [State.paddedBit, streamBit_congr hc hs]

/-- Bit `j` of payload byte `m`, in stream order. -/
theorem paddedBit_payload (s : State) {m j : Nat} (hj : j < 8) :
    s.paddedBit (8 * m + 39 - j) =
      if m < s.compSize.toNat then (s.src.read (Config.HDRLEN + m)).getLsbD j else false := by
  have hlt : 8 * m + 39 - j - 32 < 8 * s.compSize.toNat ↔ m < s.compSize.toNat := by omega
  have hdiv : (8 * m + 39 - j - 32) / 8 = m := by omega
  have hmod : 7 - (8 * m + 39 - j - 32) % 8 = j := by omega
  rw [State.paddedBit, if_neg (by omega), State.streamBit, hdiv, hmod]
  simp only [hlt]

/-- The reader within a `fillBits` (R132), in positions of `paddedBit`: the low `k` bits of the window are still to come, the
bits above them and the look-ahead byte are the stream's. With `k = 0` this is `ReaderAt`. -/
structure Refilling (s : State) (q k : Nat) : Prop where
  window : ∀ i, i < 32 → s.bitBuf.getLsbD i = (decide (k ≤ i) && s.paddedBit (q + k + 31 - i))
  byte : ∀ j, j < 8 → s.subBitBuf.getLsbD j = s.paddedBit (q + 31 + s.bitCount - j)
  count : s.bitCount ≤ 8
  spare : s.bitCount ≤ 7 + k
  aligned : (q + s.bitCount) % 8 = 0
  pos : s.inPos = min ((q + s.bitCount) / 8) s.compSize.toNat
  rest : s.inPos + s.compRemaining = s.compSize.toNat

theorem readerAt_iff_refilling {s : State} {p : Nat} : ReaderAt s p ↔ Refilling s (p + 32) 0 := by
  have hbit : ∀ {a b : Nat}, a = b + 32 → s.paddedBit a = s.streamBit b := by
    intro a b h
    rw [State.paddedBit, if_neg (by omega), h, Nat.add_sub_cancel]
  constructor
  · intro h
    refine ⟨fun i hi => ?_, fun j hj => ?_, by have := h.count; omega, h.count, h.aligned, h.pos, h.rest⟩
    · have hw := h.window (31 - i) (by omega)
      rw [show 31 - (31 - i) = i by omega] at hw
      rw [hw, hbit (b := p + (31 - i)) (by omega)]
      simp
    · rw [h.byte j hj, hbit (b := p + 31 + s.bitCount - j) (by omega)]
  · intro h
    refine ⟨fun i hi => ?_, fun j hj => ?_, h.spare, h.aligned, h.pos, h.rest⟩
    · rw [h.window (31 - i) (by omega), hbit (b := p + i) (by omega)]
      simp
    · rw [h.byte j hj, hbit (b := p + 31 + s.bitCount - j) (by omega)]

/-! ### `fillBits` -/

/-- Shifting the window opens the gap. -/
theorem Refilling.shift {s : State} {q : Nat} (h : Refilling s q 0) (n : Nat) :
    Refilling { s with bitBuf := s.bitBuf <<< n } q n := by
  refine ⟨fun i hi => ?_, h.byte, h.count, by have := h.spare; simp; omega, h.aligned, h.pos, h.rest⟩
  show (s.bitBuf <<< n).getLsbD i = (decide (n ≤ i) && s.paddedBit (q + n + 31 - i))
  rw [BitVec.getLsbD_shiftLeft]
  by_cases hn : n ≤ i
  · rw [h.window (i - n) (by omega), show q + 0 + 31 - (i - n) = q + n + 31 - i by omega]
    simp [hi, hn]
  · simp [hn]

/-- The byte a pass takes is the stream's next, or zero after the payload (R134). -/
theorem Refilling.refill_byte {s : State} {q k : Nat} (h : Refilling s q k) (g : Nat) {j : Nat} (hj : j < 8) :
    (s.refill g).subBitBuf.getLsbD j = s.paddedBit (q + s.bitCount + 39 - j) := by
  obtain ⟨m, hm⟩ : ∃ m, q + s.bitCount = 8 * m := ⟨(q + s.bitCount) / 8, by have := h.aligned; omega⟩
  have hpos := h.pos
  have hrest := h.rest
  rw [hm, Nat.mul_div_cancel_left m (by omega)] at hpos
  rw [hm, paddedBit_payload s hj]
  by_cases hc : 0 < s.compRemaining
  · rw [(refill_of_payload g hc).1, if_pos (by omega), show s.inPos = m by omega]
  · rw [(refill_of_exhausted g hc).1, if_neg (by omega)]
    simp

/-- One pass of R132's loop closes the gap by the look-ahead bits. -/
theorem Refilling.refill {s : State} {q k : Nat} (h : Refilling s q k) (hk : s.bitCount < k) :
    Refilling (s.refill (k - s.bitCount)) (q + s.bitCount) (k - s.bitCount) := by
  have hpad := paddedBit_congr (refill_compSize s (k - s.bitCount)) (refill_src s (k - s.bitCount))
  have hrest := refill_payload s (k - s.bitCount)
  have haligned := h.aligned
  have hpos := h.pos
  have hsum := h.rest
  refine ⟨fun i hi => ?_, fun j hj => ?_, by simp, by simp; omega, by simp; omega, ?_, by simp; omega⟩
  · rw [hpad, refill_bitBuf, BitVec.getLsbD_or, BitVec.getLsbD_shiftLeft, BitVec.getLsbD_ofNat, Nat.testBit_mod_two_pow,
      h.window i hi, show q + s.bitCount + (k - s.bitCount) + 31 - i = q + k + 31 - i by omega]
    by_cases hhigh : k ≤ i
    · have hge : ¬ i - (k - s.bitCount) < s.bitCount := by omega
      simp [hhigh, hge]
      omega
    · by_cases hmid : k - s.bitCount ≤ i
      · have hbyte := h.byte (i - (k - s.bitCount)) (by have := h.count; omega)
        rw [show q + 31 + s.bitCount - (i - (k - s.bitCount)) = q + k + 31 - i by omega, BitVec.getLsbD] at hbyte
        have hge : k ≤ i + s.bitCount := by omega
        have hlt : i - (k - s.bitCount) < s.bitCount := by omega
        have h32 : i - (k - s.bitCount) < 32 := by omega
        simp [hhigh, hi, hge, hlt, h32, hbyte]
      · simp [hhigh, hmid]
  · rw [hpad, refill_bitCount, h.refill_byte _ hj]
  · rw [refill_bitCount, refill_compSize]
    by_cases hc : 0 < s.compRemaining
    · rw [(refill_of_payload _ hc).2]
      omega
    · rw [(refill_of_exhausted _ hc).2]
      omega

/-- The loop of R132 ends with look-ahead bits enough for the gap. -/
theorem Refilling.refillLoop {s : State} {q k : Nat} (fuel : Nat) (h : Refilling s q k)
    (hk : k ≤ s.bitCount + 8 * fuel) :
    (s.refillLoop k fuel).2 ≤ (s.refillLoop k fuel).1.bitCount ∧
      ∃ q', q' + (s.refillLoop k fuel).2 = q + k ∧ Refilling (s.refillLoop k fuel).1 q' (s.refillLoop k fuel).2 := by
  induction fuel generalizing s q k with
  | zero => exact ⟨hk, q, rfl, h⟩
  | succ fuel ih =>
    unfold State.refillLoop
    split
    · next hlt =>
      obtain ⟨hle, q', hq, hr⟩ := ih (h.refill hlt) (by simp; omega)
      exact ⟨hle, q', by omega, hr⟩
    · next hge => exact ⟨Nat.le_of_not_lt hge, q, rfl, h⟩

/-- The gap filled from the look-ahead byte. -/
theorem Refilling.close {s : State} {q k : Nat} (h : Refilling s q k) (hk : k ≤ s.bitCount) :
    Refilling { s with
      bitCount := s.bitCount - k
      bitBuf := s.bitBuf ||| BitVec.ofNat 32 (s.subBitBuf.toNat >>> (s.bitCount - k)) } (q + k) 0 := by
  have hcount := h.count
  have hspare := h.spare
  have haligned := h.aligned
  have hpos := h.pos
  have hsame : q + k + (s.bitCount - k) = q + s.bitCount := by omega
  refine ⟨fun i hi => ?_, fun j hj => ?_, by simp; omega, by simp; omega, by simpa [hsame] using haligned,
    by simpa [hsame] using hpos, h.rest⟩
  · show (s.bitBuf ||| BitVec.ofNat 32 (s.subBitBuf.toNat >>> (s.bitCount - k))).getLsbD i
      = (decide (0 ≤ i) && s.paddedBit (q + k + 0 + 31 - i))
    rw [BitVec.getLsbD_or, BitVec.getLsbD_ofNat, Nat.testBit_shiftRight, h.window i hi, Nat.add_zero]
    by_cases hbyte : s.bitCount - k + i < 8
    · have hb := h.byte (s.bitCount - k + i) hbyte
      rw [show q + 31 + s.bitCount - (s.bitCount - k + i) = q + k + 31 - i by omega, BitVec.getLsbD] at hb
      simp [hi, hb]
    · have hzero : s.subBitBuf.toNat.testBit (s.bitCount - k + i) = false :=
        BitVec.getLsbD_of_ge s.subBitBuf _ (by omega)
      simp [hzero, show k ≤ i by omega]
  · show s.subBitBuf.getLsbD j = s.paddedBit (q + k + 31 + (s.bitCount - k) - j)
    rw [h.byte j hj]
    congr 1
    omega

theorem Refilling.fillBits {s : State} {q n : Nat} (h : Refilling s q 0) (hn : n ≤ 32) :
    Refilling (s.fillBits n) (q + n) 0 := by
  obtain ⟨hle, q', hq, hr⟩ := (h.shift n).refillLoop 5 (by omega)
  rw [← hq]
  exact hr.close hle

/-- The contract of `fillBits` (R133): the reader moves by exactly `n` stream bits. -/
theorem fillBits_readerAt {s : State} {p n : Nat} (hn : n ≤ 32) (h : ReaderAt s p) : ReaderAt (s.fillBits n) (p + n) := by
  rw [readerAt_iff_refilling] at h ⊢
  rw [Nat.add_right_comm]
  exact h.fillBits hn

/-- Consuming an element moves the reader by the sum of its widths. -/
theorem consume_readerAt {s : State} {p : Nat} {ws : List Nat} (hw : ∀ w ∈ ws, w ≤ 32) (h : ReaderAt s p) :
    ReaderAt (s.consume ws) (p + ws.sum) := by
  induction ws generalizing s p with
  | nil => exact h
  | cons w ws ih =>
    obtain ⟨hhead, htail⟩ := List.forall_mem_cons.1 hw
    rw [consume_cons, List.sum_cons, ← Nat.add_assoc]
    exact ih htail (fillBits_readerAt hhead h)

/-- `init()` leaves the reader a whole window before the stream (R310). -/
theorem init_refilling (s : State) : Refilling s.init 0 0 := by
  have hbefore : ∀ {a}, a < 32 → s.init.paddedBit a = false := fun h => if_pos h
  refine ⟨fun i hi => ?_, fun j hj => ?_, by simp [State.init], by simp [State.init], by simp [State.init],
    by simp [State.init], by simp [State.init]⟩
  · rw [hbefore (by omega)]
    simp [State.init]
  · rw [hbefore (by simp [State.init]; omega)]
    simp [State.init]

/-- Where the reader stands does not depend on the rest of the state. -/
theorem ReaderAt.of_readerFrom {s t : State} {p : Nat} (h : ReaderAt s p) (hr : s.readerFrom t = s)
    (hc : t.compSize = s.compSize) (hs : t.src = s.src) : ReaderAt t p := by
  have hbit := streamBit_congr hc hs
  have hbuf : t.bitBuf = s.bitBuf := (congrArg State.bitBuf hr :)
  have hsub : t.subBitBuf = s.subBitBuf := (congrArg State.subBitBuf hr :)
  have hcount : t.bitCount = s.bitCount := (congrArg State.bitCount hr :)
  have hpos : t.inPos = s.inPos := (congrArg State.inPos hr :)
  have hrest : t.compRemaining = s.compRemaining := (congrArg State.compRemaining hr :)
  exact ⟨by simpa [hbuf, hbit] using h.window, by simpa [hsub, hcount, hbit] using h.byte, hcount ▸ h.count,
    hcount ▸ h.aligned, by rw [hpos, hcount, hc]; exact h.pos, by rw [hpos, hrest, hc]; exact h.rest⟩

/-- The priming fill puts the window on the first 32 stream bits (R311). -/
theorem startDecoding_readerAt (s : State) : ReaderAt s.startDecoding 0 := by
  have h : ReaderAt (s.init.fillBits 32) 0 := readerAt_iff_refilling.2 ((init_refilling s).fillBits (by omega))
  exact h.of_readerFrom rfl rfl rfl

end Sys2Proof.Machine
end

section
/-! What a step can do, said once: the meaning of each payload element past its guard (`Effect`), and the outcomes of a step
(`StepTo`), each tied to the model by an inversion lemma. -/

namespace Sys2Proof.Machine

/-! ### The meanings of the numbered elements -/

theorem exec_ptlen {l : Nat} {i : Instr} (h : ptlenInstr l = some i) (s : State) :
    exec i s = s.element i fun u => .next (u.storePTLength l) := by
  unfold ptlenInstr at h
  split at h <;> cases h <;> rfl

theorem exec_cl {l : Nat} {i : Instr} (h : clInstr l = some i) (s : State) :
    exec i s = s.element i fun u => .next (u.storeCLength l) := by
  unfold clInstr at h
  split at h <;> cases h <;> rfl

/-- `OFF.c` takes its extra bits modulo `2^(c-1)`, as many as it has (R195, R196). -/
theorem exec_off {c x : Nat} {i : Instr} (h : offInstr c x = some i) (s : State) :
    exec i s = s.element i fun u => u.copyMatch (offsetValue c (x % 2 ^ (c - 1))) := by
  unfold offInstr at h
  split at h <;> cases h <;> rfl

theorem slot_of_ptlenInstr {l : Nat} {i : Instr} (h : ptlenInstr l = some i) : i.slot = .ptlen := by
  unfold ptlenInstr at h
  split at h <;> cases h <;> rfl

theorem slot_of_clInstr {l : Nat} {i : Instr} (h : clInstr l = some i) : i.slot = .citem := by
  unfold clInstr at h
  split at h <;> cases h <;> rfl

theorem slot_of_offInstr {c x : Nat} {i : Instr} (h : offInstr c x = some i) : i.slot = .off := by
  unfold offInstr at h
  split at h <;> cases h <;> rfl

theorem ptlenInstr_le {l : Nat} {i : Instr} (h : ptlenInstr l = some i) : l ≤ 16 := by
  unfold ptlenInstr at h
  split at h <;> cases h <;> decide

theorem clInstr_le {l : Nat} {i : Instr} (h : clInstr l = some i) : l ≤ 16 := by
  unfold clInstr at h
  split at h <;> cases h <;> decide

/-! ### Elements -/

/-- The position of an alphabet's count field (R91). -/
def countSlot : Alphabet → Slot
  | .T => .tcount
  | .C => .ccount
  | .P => .pcount

/-- What a payload element of a position does once its bits are consumed. -/
inductive Effect (u : State) : Slot → State → Prop
  | blksize (n : BitVec 16) : Effect u .blksize { u with blockCount := n, fsm := .readExtraLengths, point := .start }
  | count (a : Alphabet) (n : Nat) (hn : 0 < n) : Effect u (countSlot a) (u.startEntries n)
  | degenerate (a : Alphabet) (c : Nat) (hc : c < alphabetSize a) :
      Effect u (countSlot a) { u.fillUniform a c with fsm := buildState a, point := .filled }
  | ptlen (l : Nat) (hl : l ≤ 16) : Effect u .ptlen (u.storePTLength l)
  | tskip (r : Nat) : Effect u .tskip (u.skipEntries r)
  | clength (l : Nat) (hl : l ≤ 16) : Effect u .citem (u.storeCLength l)
  | zeroRun (r : Nat) : Effect u .citem (u.zeroRun r)
  | lit (b : Byte) : Effect u .csym (u.countSymbol.putByte b)
  | matchLen (m : Nat) (h3 : 3 ≤ m) (h256 : m ≤ 256) : Effect u .csym { u.countSymbol with point := .offset m }
  | copy (m off : Nat) (hp : u.point = .offset m) (ho : off + 1 ≤ u.outPos) :
      Effect u .off { State.copyLoop m (u.outPos - off - 1) u with point := .start }

theorem effect_of_next {u v t : State} {sl : Slot} (he : Effect u sl v) (h : Host.Outcome.next v = (.next t : Result)) :
    Effect u sl t := by
  cases h
  exact he

theorem effect_of_degenerate {u t : State} {a : Alphabet} {c : Nat} (h : u.degenerate a c = .next t) :
    Effect u (countSlot a) t := by
  obtain ⟨_, he⟩ | ⟨hc, he⟩ := degenerate_cases u a c <;> rw [he] at h
  · cases h
  · exact effect_of_next (.degenerate a c hc) h

theorem effect_of_copyMatch {u t : State} {off : Nat} (h : u.copyMatch off = .next t) : Effect u .off t := by
  obtain ⟨m, hp, ho, rfl⟩ := copyMatch_next h
  exact .copy m off hp ho

/-- A guarded meaning that answers has the effect its continuation has. -/
theorem element_effect {s t : State} {i : Instr} {sl : Slot} {k : State → Result} (h : s.element i k = .next t)
    (hs : i.slot = sl) (hk : ∀ u, i.wellFormed s.pWidth = true → k u = .next t → Effect u sl t) :
    s.ready i ∧ Effect (s.consume (s.widths i)) i.slot t := by
  obtain ⟨hr, ht⟩ := element_next h
  exact ⟨hr, hs ▸ hk _ hr.2.1 ht⟩

theorem toNat_pos_of_bne {n : Nat} {x : BitVec n} (h : (x != 0) = true) : 0 < x.toNat := by
  refine Nat.pos_of_ne_zero fun h0 => ?_
  have : x = 0 := BitVec.eq_of_toNat_eq (by simpa using h0)
  simp [this] at h

theorem wellFormed_matchLen {pBit m : Nat} : (Instr.matchLen m).wellFormed pBit = true ↔ 3 ≤ m ∧ m ≤ 256 := by
  simp [Instr.wellFormed]

/-- What an element without a code part can do. -/
theorem exec_raw_effect {s t : State} {pBit : Nat} {sl : Slot} {b : List Bool} {i : Instr} (hsl : sl ≠ .hdr)
    (hd : decodeRaw pBit sl b = .ok i) (h : exec i s = .next t) :
    s.ready i ∧ Effect (s.consume (s.widths i)) i.slot t := by
  cases sl with
  | hdr => exact absurd rfl hsl
  | blksize =>
    cases hd
    simp only [exec, execBlksize] at h
    exact element_effect h rfl fun u _ => effect_of_next (.blksize _)
  | tcount =>
    simp only [decodeRaw] at hd
    split at hd <;> cases hd
    · simp only [exec, execTdeg] at h
      exact element_effect h rfl fun u _ => effect_of_degenerate
    · simp only [exec, execTcnt] at h
      exact element_effect h rfl fun u hw => effect_of_next (.count .T _ (toNat_pos_of_bne hw))
  | ccount =>
    simp only [decodeRaw] at hd
    split at hd <;> cases hd
    · simp only [exec, execCdeg] at h
      exact element_effect h rfl fun u _ => effect_of_degenerate
    · simp only [exec, execCcnt] at h
      exact element_effect h rfl fun u hw => effect_of_next (.count .C _ (toNat_pos_of_bne hw))
  | pcount =>
    simp only [decodeRaw] at hd
    split at hd <;> cases hd
    · simp only [exec, execPdeg] at h
      exact element_effect h rfl fun u _ => effect_of_degenerate
    · simp only [exec, execPcnt] at h
      exact element_effect h rfl fun u hw =>
        effect_of_next (.count .P _ (toNat_pos_of_bne (Bool.and_eq_true_iff.1 hw).1))
  | ptlen =>
    simp only [decodeRaw] at hd
    split at hd <;> cases hd
    next hp =>
      rw [exec_ptlen hp] at h
      exact element_effect h (slot_of_ptlenInstr hp) fun u _ => effect_of_next (.ptlen _ (ptlenInstr_le hp))
  | tskip =>
    cases hd
    simp only [exec, execTskip] at h
    exact element_effect h rfl fun u _ => effect_of_next (.tskip _)
  | citem | csym | off => cases hd

/-- What an element with a code part can do. -/
theorem exec_coded_effect {s t : State} {sl : Slot} {sym : Nat} {b : List Bool} {i : Instr}
    (hd : decodeCoded sl sym b = .ok i) (h : exec i s = .next t) :
    s.ready i ∧ Effect (s.consume (s.widths i)) i.slot t := by
  cases sl with
  | citem =>
    simp only [decodeCoded] at hd
    split at hd
    · cases hd
      simp only [exec, execCz1] at h
      exact element_effect h rfl fun u _ => effect_of_next (.zeroRun _)
    split at hd
    · cases hd
      simp only [exec, execCzs] at h
      exact element_effect h rfl fun u _ => effect_of_next (.zeroRun _)
    split at hd
    · cases hd
      simp only [exec, execCzl] at h
      exact element_effect h rfl fun u _ => effect_of_next (.zeroRun _)
    split at hd <;> cases hd
    next hc =>
      rw [exec_cl hc] at h
      exact element_effect h (slot_of_clInstr hc) fun u _ => effect_of_next (.clength _ (clInstr_le hc))
  | csym =>
    simp only [decodeCoded] at hd
    split at hd
    · cases hd
      simp only [exec, execLit] at h
      exact element_effect h rfl fun u _ => effect_of_next (.lit _)
    split at hd <;> cases hd
    simp only [exec, execMatch] at h
    refine element_effect h rfl fun u hw => ?_
    obtain ⟨h3, h256⟩ := wellFormed_matchLen.1 hw
    exact effect_of_next (.matchLen _ h3 h256)
  | off =>
    simp only [decodeCoded] at hd
    split at hd <;> cases hd
    next ho =>
      rw [exec_off ho] at h
      exact element_effect h (slot_of_offInstr ho) fun u _ => effect_of_copyMatch
  | hdr | blksize | tcount | pcount | ccount | ptlen | tskip => cases hd

/-! ### Grammar positions -/

/-- What the state holds at a grammar position, in a decode (R91). -/
def State.standsAt (s : State) : Slot → Prop
  | .hdr => False
  | .blksize => s.point = .start ∧ s.fsm = .needNewBlock
  | .tcount => s.point = .start ∧ s.fsm = .readExtraLengths
  | .ccount => s.point = .start ∧ s.fsm = .readLiteralLengths
  | .pcount => s.point = .start ∧ s.fsm = .readOffsetLengths
  | .csym => s.point = .start ∧ s.fsm = .decodingBlock
  | .ptlen => ∃ number idx, s.point = .entries number idx ∧ (s.fsm = .readExtraLengths ∨ s.fsm = .readOffsetLengths) ∧
      idx < number ∧ idx < Config.NPT
  | .citem => ∃ number idx, s.point = .entries number idx ∧ s.fsm = .readLiteralLengths ∧ idx < number ∧ idx < Config.NC
  | .tskip => ∃ number, s.point = .skip number ∧ s.fsm = .readExtraLengths
  | .off => ∃ m, s.point = .offset m ∧ (s.fsm = .needNewBlock ∨ s.fsm = .decodingBlock)

theorem standsAt_of_slot {s : State} {sl : Slot} (hrun : s.run = .decode) (h : s.slot = some sl) : s.standsAt sl := by
  cases hp : s.point with
  | start => cases hf : s.fsm <;> simp [State.slot, hrun, hp, hf] at h <;> subst h <;> exact ⟨hp, hf⟩
  | entries number idx =>
    simp only [State.slot, hrun, hp] at h
    split at h
    · next hf =>
      split at h
      · next hi =>
        cases h
        exact ⟨number, idx, hp, hf, hi⟩
      · cases h
    · split at h
      · next hf =>
        split at h
        · next hi =>
          cases h
          exact ⟨number, idx, hp, hf, hi⟩
        · cases h
      · cases h
  | skip number =>
    simp only [State.slot, hrun, hp] at h
    split at h
    · next hf =>
      cases h
      exact ⟨number, hp, hf⟩
    · cases h
  | offset m =>
    simp only [State.slot, hrun, hp] at h
    split at h
    · next hf =>
      cases h
      exact ⟨m, hp, hf⟩
    · cases h
  | filled => simp [State.slot, hrun, hp] at h

theorem slot_of_standsAt {s : State} {sl : Slot} (hrun : s.run = .decode) (h : s.standsAt sl) : s.slot = some sl := by
  cases sl with
  | hdr => exact h.elim
  | blksize | tcount | ccount | pcount | csym =>
    obtain ⟨hp, hf⟩ := h
    simp [State.slot, hrun, hp, hf]
  | ptlen =>
    obtain ⟨number, idx, hp, hf, hi⟩ := h
    simp only [State.slot, hrun, hp, if_pos hf, if_pos hi]
  | citem =>
    obtain ⟨number, idx, hp, hf, hi⟩ := h
    simp [State.slot, hrun, hp, hf, hi]
  | tskip =>
    obtain ⟨number, hp, hf⟩ := h
    simp [State.slot, hrun, hp, hf]
  | off =>
    obtain ⟨m, hp, hf⟩ := h
    simp only [State.slot, hrun, hp, if_pos hf]

/-- Where an element stands, no table is built. -/
theorem building_of_standsAt {s : State} {sl : Slot} (h : s.standsAt sl) : s.building = none := by
  cases sl with
  | hdr => exact h.elim
  | blksize | tcount | ccount | pcount | csym =>
    obtain ⟨_, hf⟩ := h
    simp [State.building, hf]
  | ptlen => obtain ⟨_, _, _, hf | hf, _⟩ := h <;> simp [State.building, hf]
  | citem =>
    obtain ⟨_, _, _, hf, _⟩ := h
    simp [State.building, hf]
  | tskip =>
    obtain ⟨_, _, hf⟩ := h
    simp [State.building, hf]
  | off => obtain ⟨_, _, hf | hf⟩ := h <;> simp [State.building, hf]

theorem standsAt_countSlot {s : State} {a : Alphabet} :
    s.standsAt (countSlot a) ↔ s.point = .start ∧ s.fsm = readState a := by
  cases a <;> rfl

/-! ### The step -/

/-- With a command issued, the next element is the header the source opens with (R93, R256). -/
theorem fetch_header {s : State} {c : Command} (hrun : s.run = .header c) :
    s.fetch = .ok (.hdr (leWord s.headerBits) (leWord (s.headerBits.drop 32))) := by
  simp [State.fetch, State.slot, hrun, Slot.alphabet, decodeRaw, State.rawAt]

/-- In a decode, running the next element is an element's effect, or `BadTable` on a length above 16 (R178). -/
theorem runElement_decode {s t : State} (hrun : s.run = .decode) (h : runElement s = .next t) :
    t = s.raiseBadTable ∨ ∃ i, s.ready i ∧ Effect (s.consume (s.widths i)) i.slot t := by
  simp only [runElement] at h
  split at h
  · next i hf =>
    refine .inr ⟨i, ?_⟩
    simp only [State.fetch] at hf
    split at hf
    · cases hf
    next sl hsl =>
      split at hf
      · refine exec_raw_effect (fun he => ?_) hf h
        exact (he ▸ standsAt_of_slot hrun hsl : s.standsAt .hdr)
      · split at hf
        · cases hf
        · exact exec_coded_effect hf h
  · next r _ =>
    left
    cases r <;> cases h
    rfl

/-- Every outcome of a step that answers. -/
inductive StepTo (s : State) : State → Prop
  | idle (hrun : s.run = .idle) : StepTo s s
  | shortHeader (c : Command) (hrun : s.run = .header c) : StepTo s s.raiseTruncated
  | truncated (c : Command) (comp orig : BitVec 32) (hrun : s.run = .header c) :
      StepTo s (s.parseHeader comp orig).raiseTruncated
  | accepted (c : Command) (comp orig : BitVec 32) (hrun : s.run = .header c) (hprom : s.brokenPromise c = none)
      (hdst : s.dstFits c orig = true) (hlen : Config.HDRLEN + comp.toNat ≤ s.srcLen) :
      StepTo s ((s.parseHeader comp orig).acceptHeader c)
  | full (hrun : s.run = .decode) : StepTo s s.succeed
  | build (hrun : s.run = .decode) (a : Alphabet) (hb : s.building = some a) : StepTo s (s.buildTable a)
  | longLength (hrun : s.run = .decode) : StepTo s s.raiseBadTable
  | element (hrun : s.run = .decode) (hroom : s.passStart = true → s.hasRoom = true) (i : Instr) (hi : s.ready i) {t : State}
      (he : Effect (s.consume (s.widths i)) i.slot t) : StepTo s t

theorem stepTo_of_execHdr {s t : State} {c : Command} {comp orig : BitVec 32} (hrun : s.run = .header c)
    (hlen : ¬ s.srcLen < Config.HDRLEN) (h : execHdr comp orig s = .next t) : StepTo s t := by
  simp only [execHdr, hrun, if_neg hlen] at h
  split at h
  · cases h
  next hprom =>
    split at h
    · cases h
    next hdst =>
      split at h <;> cases h
      · exact .truncated c comp orig hrun
      · next hsrc => exact .accepted c comp orig hrun hprom (by simpa using hdst) (Nat.le_of_not_lt hsrc)

theorem step_stepTo {s t : State} (h : step s = .next t) : StepTo s t := by
  cases hrun : s.run with
  | idle =>
    simp only [step, hrun] at h
    cases h
    exact .idle hrun
  | header c =>
    simp only [step, hrun] at h
    split at h
    · simp only [State.shortHeader] at h
      split at h <;> cases h
      exact .shortHeader c hrun
    · next hlen =>
      simp only [runElement, fetch_header hrun] at h
      exact stepTo_of_execHdr hrun hlen h
  | decode =>
    simp only [step, hrun] at h
    split at h
    · cases h
      exact .full hrun
    next hfull =>
      split at h
      · cases h
      split at h
      · next a hb =>
        cases h
        exact .build hrun a hb
      · obtain rfl | ⟨i, hi, he⟩ := runElement_decode hrun h
        · exact .longLength hrun
        · exact .element hrun (by simpa using hfull) i hi he

end Sys2Proof.Machine
end

section
/-! What a decode's steps leave alone, and how they write DST. -/

namespace Sys2Proof.Machine

/-! ### Registers that decoding leaves alone -/

/-- `t` with all that an element may write past its guard as in `s`. -/
def State.elementFrom (t s : State) : State :=
  { t with blockCount := s.blockCount, outPos := s.outPos, fsm := s.fsm, ptLen := s.ptLen, cLen := s.cLen,
           ptTable := s.ptTable, cTable := s.cTable, dst := s.dst, point := s.point }

theorem Effect.frame {u t : State} {sl : Slot} (h : Effect u sl t) : t.elementFrom u = u := by
  cases h with
  | blksize n => rfl
  | count a n hn => rfl
  | degenerate a c hc => exact (congrArg (·.elementFrom u) (fillUniform_frame u a c) :)
  | ptlen l hl => exact (congrArg (·.elementFrom u) (storePTLength_frame u l) :)
  | tskip r => exact (congrArg (·.elementFrom u) (skipEntries_frame u r) :)
  | clength l hl => exact (congrArg (·.elementFrom u) (storeCLength_frame u l) :)
  | zeroRun r => exact (congrArg (·.elementFrom u) (zeroRun_frame u r) :)
  | lit b => exact (congrArg (·.elementFrom u) (putByte_frame u.countSymbol b) :)
  | matchLen m h3 h256 => rfl
  | copy m off hp ho => exact (congrArg (·.elementFrom u) (copyLoop_frame m (u.outPos - off - 1) u) :)

/-- `t` with all that a Build state may write as in `s`. -/
def State.buildFrom (t s : State) : State :=
  { t with ptTable := s.ptTable, cTable := s.cTable, left := s.left, right := s.right, fsm := s.fsm, point := s.point }

theorem build_buildFrom {s t : State} {a : Alphabet} (h : s.build a = some t) : t.buildFrom s = s :=
  (congrArg (·.buildFrom s) (build_frame h) :)

/-- What no step of a decode changes before it ends the command. -/
structure Keeps (s t : State) : Prop where
  src : t.src = s.src
  srcLen : t.srcLen = s.srcLen
  compSize : t.compSize = s.compSize
  origSize : t.origSize = s.origSize
  pBit : t.pBit = s.pBit
  grant : t.grant = s.grant
  badTable : t.badTable = s.badTable
  run : t.run = s.run

theorem Keeps.of_buildFrom {s t : State} (h : t.buildFrom s = s) : Keeps s t :=
  ⟨(congrArg State.src h :), (congrArg State.srcLen h :), (congrArg State.compSize h :), (congrArg State.origSize h :),
    (congrArg State.pBit h :), (congrArg State.grant h :), (congrArg State.badTable h :), (congrArg State.run h :)⟩

/-- An element keeps them, its reader's moves included. -/
theorem Effect.keeps {s t : State} {sl : Slot} {ws : List Nat} (h : Effect (s.consume ws) sl t) : Keeps s t := by
  have hf := h.frame
  exact ⟨(congrArg State.src hf).trans (consume_src s ws), (congrArg State.srcLen hf).trans (consume_srcLen s ws),
    (congrArg State.compSize hf).trans (consume_compSize s ws), (congrArg State.origSize hf).trans (consume_origSize s ws),
    (congrArg State.pBit hf).trans (consume_pBit s ws), (congrArg State.grant hf).trans (consume_grant s ws),
    (congrArg State.badTable hf).trans (consume_badTable s ws), (congrArg State.run hf).trans (consume_run s ws)⟩

/-- A Build state that goes on writes the tables and its place; else it is `BadTable`. -/
theorem buildTable_next (s : State) (a : Alphabet) :
    ((s.buildTable a).buildFrom s = s ∧ (s.buildTable a).fsm = afterBuild a ∧ (s.buildTable a).point = .start) ∨
      s.buildTable a = s.raiseBadTable := by
  obtain ⟨_, he⟩ | ⟨_, t, ht, he⟩ | ⟨_, _, he⟩ := buildTable_cases s a
  · rw [he]
    exact .inl ⟨rfl, rfl, rfl⟩
  · rw [he]
    exact .inl ⟨(build_buildFrom ht :), rfl, rfl⟩
  · exact .inr he

/-! ### DST is written upwards (R27, R64, R236) -/

/-- From `s` to `t`, DST is written from `outPos` up to its new value, not past `origSize`. -/
structure WritesUp (s t : State) : Prop where
  wf : t.dst.wf = true
  lower : s.outPos ≤ t.outPos
  upper : t.outPos ≤ s.origSize.toNat
  kept : ∀ a, (a < s.outPos ∨ t.outPos ≤ a) → t.dst.read a = s.dst.read a

theorem WritesUp.of_eq {s t : State} (hwf : s.dst.wf = true) (hroom : s.outPos ≤ s.origSize.toNat) (hp : t.outPos = s.outPos)
    (hd : t.dst = s.dst) : WritesUp s t :=
  ⟨hd ▸ hwf, hp.ge, hp ▸ hroom, fun _ _ => by rw [hd]⟩

theorem putByte_writesUp {s : State} (v : Byte) (hwf : s.dst.wf = true) (hroom : s.outPos ≤ s.origSize.toNat) :
    WritesUp s (s.putByte v) := by
  by_cases h : s.outPos < s.origSize.toNat
  · rw [putByte_of_room v h]
    refine ⟨Memory.wf_write _ _ hwf, Nat.le_succ _, h, fun a ha => ?_⟩
    have hne : a ≠ s.outPos := by
      rintro rfl
      exact ha.elim (Nat.lt_irrefl _) (Nat.not_succ_le_self _)
    exact (Memory.read_write hwf s.outPos a v).trans (if_neg hne)
  · rw [putByte_of_full v h]
    exact .of_eq hwf hroom rfl rfl

theorem WritesUp.trans {s t u : State} (ho : t.origSize = s.origSize) (h : WritesUp s t) (h' : WritesUp t u) : WritesUp s u := by
  refine ⟨h'.wf, h.lower.trans h'.lower, ho ▸ h'.upper, fun a ha => ?_⟩
  have hl := h.lower
  have hl' := h'.lower
  rw [h'.kept a (by omega), h.kept a (by omega)]

theorem copyLoop_writesUp (m src : Nat) {s : State} (hwf : s.dst.wf = true) (hroom : s.outPos ≤ s.origSize.toNat) :
    WritesUp s (State.copyLoop m src s) := by
  induction m generalizing src s with
  | zero => exact .of_eq hwf hroom rfl rfl
  | succ m ih =>
    unfold State.copyLoop
    split
    · have hput := putByte_writesUp (s.dst.read src) hwf hroom
      exact hput.trans (putByte_origSize s _) (ih _ hput.wf (putByte_origSize s _ ▸ hput.upper))
    · exact .of_eq hwf hroom rfl rfl

/-- An element writes DST upwards. -/
theorem Effect.writesUp {u t : State} {sl : Slot} (h : Effect u sl t) (hwf : u.dst.wf = true)
    (hroom : u.outPos ≤ u.origSize.toNat) : WritesUp u t := by
  cases h with
  | blksize n => exact .of_eq hwf hroom rfl rfl
  | count a n hn => exact .of_eq hwf hroom rfl rfl
  | degenerate a c hc =>
    have hf := fillUniform_frame u a c
    exact .of_eq hwf hroom (congrArg State.outPos hf :) (congrArg State.dst hf :)
  | ptlen l hl =>
    have hf := storePTLength_frame u l
    exact .of_eq hwf hroom (congrArg State.outPos hf :) (congrArg State.dst hf :)
  | tskip r =>
    have hf := skipEntries_frame u r
    exact .of_eq hwf hroom (congrArg State.outPos hf :) (congrArg State.dst hf :)
  | clength l hl =>
    have hf := storeCLength_frame u l
    exact .of_eq hwf hroom (congrArg State.outPos hf :) (congrArg State.dst hf :)
  | zeroRun r =>
    have hf := zeroRun_frame u r
    exact .of_eq hwf hroom (congrArg State.outPos hf :) (congrArg State.dst hf :)
  | lit b =>
    obtain ⟨hw, hl, hu, hk⟩ := putByte_writesUp (s := u.countSymbol) b hwf hroom
    exact ⟨hw, hl, hu, hk⟩
  | matchLen m h3 h256 => exact .of_eq hwf hroom rfl rfl
  | copy m off hp ho =>
    obtain ⟨hw, hl, hu, hk⟩ := copyLoop_writesUp m (u.outPos - off - 1) hwf hroom
    exact ⟨hw, hl, hu, hk⟩

theorem Effect.writesUp_of_consume {s t : State} {sl : Slot} {ws : List Nat} (h : Effect (s.consume ws) sl t)
    (hwf : s.dst.wf = true) (hroom : s.outPos ≤ s.origSize.toNat) : WritesUp s t := by
  obtain ⟨hw, hl, hu, hk⟩ := h.writesUp (by simpa using hwf) (by simpa using hroom)
  simp only [consume_outPos, consume_origSize, consume_dst] at hl hu hk
  exact ⟨hw, hl, hu, hk⟩

/-! ### An accepted header -/

@[simp] theorem startDecoding_src (s : State) : s.startDecoding.src = s.src := fillBits_src s.init 32
@[simp] theorem startDecoding_dst (s : State) : s.startDecoding.dst = s.dst := fillBits_dst s.init 32
@[simp] theorem startDecoding_srcLen (s : State) : s.startDecoding.srcLen = s.srcLen := fillBits_srcLen s.init 32
@[simp] theorem startDecoding_pBit (s : State) : s.startDecoding.pBit = s.pBit := fillBits_pBit s.init 32
@[simp] theorem startDecoding_grant (s : State) : s.startDecoding.grant = s.grant := fillBits_grant s.init 32
@[simp] theorem startDecoding_compSize (s : State) : s.startDecoding.compSize = s.compSize := fillBits_compSize s.init 32
@[simp] theorem startDecoding_origSize (s : State) : s.startDecoding.origSize = s.origSize := fillBits_origSize s.init 32
@[simp] theorem startDecoding_blockCount (s : State) : s.startDecoding.blockCount = 0 := fillBits_blockCount s.init 32
@[simp] theorem startDecoding_outPos (s : State) : s.startDecoding.outPos = 0 := fillBits_outPos s.init 32
@[simp] theorem startDecoding_fsm (s : State) : s.startDecoding.fsm = .needNewBlock := fillBits_fsm s.init 32
@[simp] theorem startDecoding_badTable (s : State) : s.startDecoding.badTable = false := fillBits_badTable s.init 32
@[simp] theorem startDecoding_point (s : State) : s.startDecoding.point = .start := fillBits_point s.init 32
@[simp] theorem startDecoding_ptLen (s : State) : s.startDecoding.ptLen = Vector.replicate _ 0 := fillBits_ptLen s.init 32
@[simp] theorem startDecoding_cLen (s : State) : s.startDecoding.cLen = Vector.replicate _ 0 := fillBits_cLen s.init 32
@[simp] theorem startDecoding_run (s : State) : s.startDecoding.run = .decode := rfl

/-- An accepted header ends the command at once, or a DECOMPRESS with bytes to write starts decoding (R257, R259, R260). -/
theorem acceptHeader_cases (s : State) (c : Command) :
    (∃ size, s.acceptHeader c = { s with scratchSize := size }.succeed) ∨
      (c = .decompress ∧ s.acceptHeader c = s.startDecoding) := by
  cases c with
  | sizeQuery => exact .inl ⟨_, rfl⟩
  | decompress =>
    by_cases h : s.origSize = 0
    · exact .inl ⟨s.scratchSize, if_pos h⟩
    · exact .inr ⟨rfl, if_neg h⟩

/-! ### The statements -/

/-- Settles O36: each outcome of a step keeps the host's inputs, an element's by its frame. -/
theorem noStepWritesTheHostsInputs : Obligations.NoStepWritesTheHostsInputs := by
  unfold Obligations.NoStepWritesTheHostsInputs
  intro s t h
  cases step_stepTo h with
  | idle | shortHeader | truncated | full | longLength => exact ⟨rfl, rfl, rfl, rfl⟩
  | accepted c comp orig =>
    obtain ⟨size, he⟩ | ⟨_, he⟩ := acceptHeader_cases (s.parseHeader comp orig) c <;> rw [he]
    · exact ⟨rfl, rfl, rfl, rfl⟩
    · simp
  | build hrun a hb =>
    obtain ⟨hf, _⟩ | he := buildTable_next s a
    · have hk := Keeps.of_buildFrom hf
      exact ⟨hk.src, hk.srcLen, hk.pBit, hk.grant⟩
    · rw [he]
      exact ⟨rfl, rfl, rfl, rfl⟩
  | element hrun hroom i hi he =>
    have hk := he.keeps
    exact ⟨hk.src, hk.srcLen, hk.pBit, hk.grant⟩

/-- A step of a decode writes DST upwards and keeps `origSize`. -/
theorem step_writesUp {s t : State} (hrun : s.run = .decode) (hwf : s.dst.wf = true) (hroom : s.outPos ≤ s.origSize.toNat)
    (h : step s = .next t) : WritesUp s t ∧ t.origSize = s.origSize := by
  cases step_stepTo h with
  | idle hidle => rw [hrun] at hidle; cases hidle
  | shortHeader c hc | truncated c _ _ hc | accepted c _ _ hc => rw [hrun] at hc; cases hc
  | full | longLength => exact ⟨.of_eq hwf hroom rfl rfl, rfl⟩
  | build _ a hb =>
    obtain ⟨hf, _⟩ | he := buildTable_next s a
    · exact ⟨.of_eq hwf hroom (congrArg State.outPos hf :) (congrArg State.dst hf :), (congrArg State.origSize hf :)⟩
    · rw [he]
      exact ⟨.of_eq hwf hroom rfl rfl, rfl⟩
  | element _ _ i hi he => exact ⟨he.writesUp_of_consume hwf hroom, he.keeps.origSize⟩

/-- Settles O37: no step of a decode writes DST but upwards from `outPos`. -/
theorem outputIsWrittenInOrder : Obligations.OutputIsWrittenInOrder := by
  unfold Obligations.OutputIsWrittenInOrder
  intro s t hrun hwf hroom h
  obtain ⟨⟨_, hlower, hupper, hkept⟩, horig⟩ := step_writesUp hrun hwf hroom h
  exact ⟨hlower, hupper, horig, hkept⟩

end Sys2Proof.Machine
end

section
/-! The invariant of a run (R47): the code lengths, the widths of an element, the place between two steps, and the step. -/

namespace Sys2Proof.Machine

/-! ### Code lengths (R36, R37) -/

theorem Tab.read_of_ge {n : Nat} (t : Tab n) {i : Nat} (h : n ≤ i) : t.read i = 0 := by
  simp [Tab.read, Vector.getElem?_eq_none_iff.2 h]

theorem Tab.read_write_le {n N b v : Nat} {t : Tab n} (h : ∀ i, i < N → t.read i ≤ b) (hv : v ≤ b) (j : Nat) :
    ∀ i, i < N → (t.write j v).read i ≤ b := by
  intro i hi
  rw [Tab.read_write]
  split
  · exact hv
  · exact h i hi

theorem Tab.read_fill_le {n N b v : Nat} {t : Tab n} (h : ∀ i, i < N → t.read i ≤ b) (hv : v ≤ b) (a k : Nat) :
    ∀ i, i < N → (t.fill a k v).read i ≤ b := by
  intro i hi
  rw [Tab.read_fill]
  split
  · exact hv
  · exact h i hi

theorem lengthsFit_of_eq {s t : State} (h : s.lengthsFit) (hp : t.ptLen = s.ptLen) (hc : t.cLen = s.cLen) : t.lengthsFit := by
  rw [State.lengthsFit, hp, hc]
  exact h

theorem lengthsFit_of_zero {s : State} (hp : s.ptLen = Vector.replicate _ 0) (hc : s.cLen = Vector.replicate _ 0) :
    s.lengthsFit := by
  simp [State.lengthsFit, hp, hc]

theorem nextPTEntry_lengthsFit {s : State} (h : s.lengthsFit) (number idx : Nat) : (s.nextPTEntry number idx).lengthsFit := by
  unfold State.nextPTEntry
  split
  · exact h
  · split <;> exact ⟨Tab.read_fill_le h.1 (Nat.zero_le _) _ _, h.2⟩

theorem storePTLength_lengthsFit {s : State} (h : s.lengthsFit) {l : Nat} (hl : l ≤ 16) : (s.storePTLength l).lengthsFit := by
  have hw (j : Nat) : ({ s with ptLen := s.ptLen.write j l } : State).lengthsFit := ⟨Tab.read_write_le h.1 hl j, h.2⟩
  unfold State.storePTLength
  split
  · split
    · exact hw _
    · exact nextPTEntry_lengthsFit (hw _) _ _
  all_goals exact h

theorem skipEntries_lengthsFit {s : State} (h : s.lengthsFit) (r : Nat) : (s.skipEntries r).lengthsFit := by
  unfold State.skipEntries
  split
  · refine nextPTEntry_lengthsFit ?_ _ _
    exact ⟨Tab.read_fill_le h.1 (Nat.zero_le _) _ _, h.2⟩
  all_goals exact h

theorem nextCItem_lengthsFit {s : State} (h : s.lengthsFit) (number idx : Nat) : (s.nextCItem number idx).lengthsFit := by
  unfold State.nextCItem
  split
  · exact h
  · exact ⟨h.1, Tab.read_fill_le h.2 (Nat.zero_le _) _ _⟩

theorem storeCLength_lengthsFit {s : State} (h : s.lengthsFit) {l : Nat} (hl : l ≤ 16) : (s.storeCLength l).lengthsFit := by
  unfold State.storeCLength
  split
  · refine nextCItem_lengthsFit ?_ _ _
    exact ⟨h.1, Tab.read_write_le h.2 hl _⟩
  all_goals exact h

theorem zeroRun_lengthsFit {s : State} (h : s.lengthsFit) (r : Nat) : (s.zeroRun r).lengthsFit := by
  unfold State.zeroRun
  split
  · refine nextCItem_lengthsFit ?_ _ _
    exact ⟨h.1, Tab.read_fill_le h.2 (Nat.zero_le _) _ _⟩
  all_goals exact h

theorem fillUniform_lengthsFit {s : State} (h : s.lengthsFit) (a : Alphabet) (c : Nat) : (s.fillUniform a c).lengthsFit := by
  cases a with
  | T | P => exact ⟨Tab.read_fill_le h.1 (Nat.zero_le _) _ _, h.2⟩
  | C => exact ⟨h.1, Tab.read_fill_le h.2 (Nat.zero_le _) _ _⟩

/-- Every element leaves code lengths of at most 16. -/
theorem Effect.lengthsFit {u t : State} {sl : Slot} (h : Effect u sl t) (hu : u.lengthsFit) : t.lengthsFit := by
  cases h with
  | blksize n => exact hu
  | count a n hn => exact hu
  | degenerate a c hc => exact fillUniform_lengthsFit hu a c
  | ptlen l hl => exact storePTLength_lengthsFit hu hl
  | tskip r => exact skipEntries_lengthsFit hu r
  | clength l hl => exact storeCLength_lengthsFit hu hl
  | zeroRun r => exact zeroRun_lengthsFit hu r
  | lit b =>
    have hf := putByte_frame u.countSymbol b
    exact lengthsFit_of_eq hu (congrArg State.ptLen hf :) (congrArg State.cLen hf :)
  | matchLen m h3 h256 => exact hu
  | copy m off hp ho =>
    have hf := copyLoop_frame m (u.outPos - off - 1) u
    exact lengthsFit_of_eq hu (congrArg State.ptLen hf :) (congrArg State.cLen hf :)

/-! ### The widths of an element are within the contract of `fillBits` (R132) -/

theorem codeLength_le {s : State} (h : s.lengthsFit) (a : Alphabet) (sym : Nat) : s.codeLength a sym ≤ 16 := by
  have hpt : s.ptLen.read sym ≤ 16 := by
    by_cases hi : sym < 31
    · exact h.1 sym hi
    · simp [Tab.read_of_ge s.ptLen (Nat.le_of_not_lt hi)]
  have hc : s.cLen.read sym ≤ 16 := by
    by_cases hi : sym < 510
    · exact h.2 sym hi
    · simp [Tab.read_of_ge s.cLen (Nat.le_of_not_lt hi)]
  cases a <;> assumption

/-- No field of R92's table is wider than the window. -/
theorem fieldWidth_le {pBit : Nat} (hp : pBit ≤ 32) (i : Instr) : ∀ f ∈ (i.parts pBit).fields, f.1 ≤ 32 := by
  cases i <;> simp [Instr.parts, ptlenFields, hp]

theorem widths_le {s : State} (h : s.lengthsFit) (i : Instr) : ∀ w ∈ s.widths i, w ≤ 32 := by
  have hp : s.pWidth ≤ 32 := by
    have := s.pBit.isLt
    unfold State.pWidth
    omega
  intro w hw
  obtain hw | hw := List.mem_append.1 hw
  · split at hw
    · next a sym _ _ =>
      rw [List.mem_singleton.1 hw]
      exact (codeLength_le h a sym).trans (by decide)
    · cases hw
  · obtain ⟨f, hf, rfl⟩ := List.mem_map.1 hw
    exact fieldWidth_le hp i f hf

/-! ### The place between two steps -/

/-- Where a decode stands between two steps, with what `Running` asks there of the block counter and of a pending match. -/
inductive Between (s : State) : Prop
  | build (a : Alphabet) (hf : s.fsm = buildState a) (hp : s.point = .start ∨ s.point = .filled)
  | block (hs : s.standsAt .blksize) (hb : s.blockCount = 0)
  | element (sl : Slot) (hs : s.standsAt sl) (hne : s.fsm ≠ .needNewBlock) (hoff : sl ≠ .off)
  | offset (m : Nat) (hp : s.point = .offset m) (hf : s.fsm = .needNewBlock ∨ s.fsm = .decodingBlock)
      (hb : s.fsm = .needNewBlock → s.blockCount = 0) (h3 : 3 ≤ m) (h256 : m ≤ 256) (hroom : s.outPos < s.origSize.toNat)

theorem place_of_standsAt {s : State} {sl : Slot} (hrun : s.run = .decode) (h : s.standsAt sl) :
    s.building = none ∧ s.slot.isSome = true :=
  ⟨building_of_standsAt h, by rw [slot_of_standsAt hrun h]; rfl⟩

theorem Between.place {s : State} (h : Between s) (hrun : s.run = .decode) :
    (s.building.isSome = true ∧ (s.point = .start ∨ s.point = .filled)) ∨
      (s.building = none ∧ s.slot.isSome = true) := by
  cases h with
  | build a hf hp => exact .inl ⟨by rw [building_of_buildState s a hf]; rfl, hp⟩
  | block hs hb => exact .inr (place_of_standsAt hrun hs)
  | element sl hs hne hoff => exact .inr (place_of_standsAt hrun hs)
  | offset m hp hf => exact .inr (place_of_standsAt (sl := .off) hrun ⟨m, hp, hf⟩)

theorem Between.blockCount {s : State} (h : Between s) (hn : s.fsm = .needNewBlock) : s.blockCount = 0 := by
  cases h with
  | build a hf hp => cases a <;> rw [hf] at hn <;> cases hn
  | block hs hb => exact hb
  | element sl hs hne hoff => exact absurd hn hne
  | offset m hp hf hb => exact hb hn

/-- A pending match stands at its offset element. -/
theorem slot_of_offset {s : State} {sl : Slot} {m : Nat} (h : s.standsAt sl) (hp : s.point = .offset m) : sl = .off := by
  cases sl with
  | hdr => exact h.elim
  | blksize | tcount | ccount | pcount | csym => rw [h.1] at hp; cases hp
  | ptlen | citem => obtain ⟨_, _, he, _⟩ := h; rw [he] at hp; cases hp
  | tskip => obtain ⟨_, he, _⟩ := h; rw [he] at hp; cases hp
  | off => rfl

theorem Between.pending {s : State} (h : Between s) {m : Nat} (hm : s.point = .offset m) :
    3 ≤ m ∧ m ≤ 256 ∧ s.outPos < s.origSize.toNat := by
  cases h with
  | build a hf hp => rw [hm] at hp; obtain hp | hp := hp <;> cases hp
  | block hs hb => cases slot_of_offset hs hm
  | element sl hs hne hoff => exact absurd (slot_of_offset hs hm) hoff
  | offset m' hp hf hb h3 h256 hroom =>
    rw [hm] at hp
    cases hp
    exact ⟨h3, h256, hroom⟩

/-- After a T or P entry: the next, or the Build state. -/
theorem nextPTEntry_between {s : State} (hf : s.fsm = .readExtraLengths ∨ s.fsm = .readOffsetLengths) (number idx : Nat) :
    Between (s.nextPTEntry number idx) := by
  unfold State.nextPTEntry
  split
  · next hi =>
    have hne : s.fsm ≠ .needNewBlock := by obtain hf | hf := hf <;> rw [hf] <;> decide
    exact .element .ptlen ⟨number, idx, rfl, hf, hi⟩ hne (by decide)
  · split
    · exact .build .T rfl (.inl rfl)
    · exact .build .P rfl (.inl rfl)

theorem nextCItem_between {s : State} (hf : s.fsm = .readLiteralLengths) (number idx : Nat) :
    Between (s.nextCItem number idx) := by
  unfold State.nextCItem
  split
  · next hi => exact .element .citem ⟨number, idx, rfl, hf, hi⟩ (by rw [hf]; decide) (by decide)
  · exact .build .C rfl (.inl rfl)

/-- After a symbol that writes its bytes at once: a new block or the next symbol. -/
theorem between_of_symbol {s : State} (hp : s.point = .start) (hf : s.fsm = .needNewBlock ∨ s.fsm = .decodingBlock)
    (hb : s.fsm = .needNewBlock → s.blockCount = 0) : Between s := by
  obtain hf | hf := hf
  · exact .block ⟨hp, hf⟩ (hb hf)
  · exact .element .csym ⟨hp, hf⟩ (by rw [hf]; decide) (by decide)

/-- The state machine after a counted symbol (R214). -/
theorem countSymbol_fsm_cases (s : State) :
    (s.countSymbol.fsm = .needNewBlock ∨ s.countSymbol.fsm = .decodingBlock) ∧
      (s.countSymbol.fsm = .needNewBlock → s.countSymbol.blockCount = 0) := by
  rw [countSymbol_fsm, countSymbol_blockCount]
  split
  · next h => exact ⟨.inl rfl, fun _ => h⟩
  · exact ⟨.inr rfl, fun h => by cases h⟩

/-- An element at its place ends at a place. -/
theorem Effect.between {u t : State} {sl : Slot} (h : Effect u sl t) (hs : u.standsAt sl)
    (hb : u.fsm = .needNewBlock → u.blockCount = 0) (hroom : sl = .csym → u.outPos < u.origSize.toNat) : Between t := by
  cases h with
  | blksize n => exact .element .tcount ⟨rfl, rfl⟩ (by simp) (by decide)
  | count a n hn =>
    obtain ⟨_, hf⟩ := standsAt_countSlot.1 hs
    cases a with
    | T => exact .element .ptlen ⟨n, 0, rfl, .inl hf, hn, by decide⟩ (by simp [hf, readState]) (by decide)
    | P => exact .element .ptlen ⟨n, 0, rfl, .inr hf, hn, by decide⟩ (by simp [hf, readState]) (by decide)
    | C => exact .element .citem ⟨n, 0, rfl, hf, hn, by decide⟩ (by simp [hf, readState]) (by decide)
  | degenerate a c hc => exact .build a rfl (.inr rfl)
  | ptlen l hl =>
    obtain ⟨number, idx, hp, hf, _⟩ := hs
    simp only [State.storePTLength, hp]
    split
    · next hthird => exact .element .tskip ⟨number, rfl, hthird.1⟩ (by simp [hthird.1]) (by decide)
    · refine nextPTEntry_between ?_ _ _
      exact hf
  | tskip r =>
    obtain ⟨number, hp, hf⟩ := hs
    simp only [State.skipEntries, hp]
    refine nextPTEntry_between ?_ _ _
    exact .inl hf
  | clength l hl =>
    obtain ⟨number, idx, hp, hf, _⟩ := hs
    simp only [State.storeCLength, hp]
    refine nextCItem_between ?_ _ _
    exact hf
  | zeroRun r =>
    obtain ⟨number, idx, hp, hf, _⟩ := hs
    simp only [State.zeroRun, hp]
    refine nextCItem_between ?_ _ _
    exact hf
  | lit b =>
    have hfr := putByte_frame u.countSymbol b
    obtain ⟨hf, hb'⟩ := countSymbol_fsm_cases u
    have hp : (u.countSymbol.putByte b).point = .start := (congrArg State.point hfr :).trans hs.1
    have hfsm : (u.countSymbol.putByte b).fsm = u.countSymbol.fsm := (congrArg State.fsm hfr :)
    have hcount : (u.countSymbol.putByte b).blockCount = u.countSymbol.blockCount := (congrArg State.blockCount hfr :)
    exact between_of_symbol hp (hfsm ▸ hf) (by rw [hfsm, hcount]; exact hb')
  | matchLen m h3 h256 =>
    obtain ⟨hf, hb'⟩ := countSymbol_fsm_cases u
    exact .offset m rfl hf hb' h3 h256 (hroom rfl)
  | copy m off hp ho =>
    have hfr := copyLoop_frame m (u.outPos - off - 1) u
    obtain ⟨_, _, hf⟩ := hs
    have hfsm : (State.copyLoop m (u.outPos - off - 1) u).fsm = u.fsm := (congrArg State.fsm hfr :)
    have hcount : (State.copyLoop m (u.outPos - off - 1) u).blockCount = u.blockCount := (congrArg State.blockCount hfr :)
    refine between_of_symbol rfl (hfsm ▸ hf : _ ∨ _) (fun h => ?_)
    exact hcount.trans (hb (hfsm.symm.trans h))

end Sys2Proof.Machine
end

section
/-! The invariant holds at reset and every step keeps it (R47). -/

namespace Sys2Proof.Machine

theorem Keeps.brokenPromise {s t : State} (h : Keeps s t) (c : Command) : t.brokenPromise c = s.brokenPromise c := by
  simp [State.brokenPromise, h.grant]

/-- A decode goes on from a state that keeps the command's registers and stands at a place. -/
theorem State.Running.of_keeps {s t : State} (h : s.Running) (hrun : s.run = .decode) (hk : Keeps s t)
    (hreader : ∃ p, ReaderAt t p) (hroom : t.outPos ≤ t.origSize.toNat) (hb : Between t) : t.Running where
  reader := hreader
  srcFits := by rw [hk.compSize, hk.srcLen]; exact h.srcFits
  dstFits := by rw [hk.grant, hk.origSize]; exact h.dstFits
  promises := (hk.brokenPromise .decompress).trans h.promises
  room := hroom
  flag := hk.badTable.trans h.flag
  place := hb.place (hk.run.trans hrun)
  block := hb.blockCount
  pending := fun _ => hb.pending

theorem State.Inv.lengthsFit {s : State} (h : s.Inv) : s.lengthsFit := ⟨h.ptLens, h.cLens⟩

/-- A state in which no command decodes meets the invariant where its memories and lengths do. -/
theorem State.Inv.of_not_decoding {s t : State} (h : s.Inv) (hrun : t.run ≠ .decode) (hsrc : t.src = s.src)
    (hdst : t.dst = s.dst) (hbit : t.pBit = s.pBit) (hpt : t.ptLen = s.ptLen) (hc : t.cLen = s.cLen) : t.Inv where
  srcWf := hsrc ▸ h.srcWf
  dstWf := hdst ▸ h.dstWf
  wired := hbit.trans h.wired
  ptLens := hpt ▸ h.ptLens
  cLens := hc ▸ h.cLens
  running := fun hd => absurd hd hrun

/-- An accepted DECOMPRESS starts in the invariant (R259, R310, R311). -/
theorem startDecoding_inv {s : State} (h : s.Inv) (hprom : s.brokenPromise .decompress = none)
    (hdst : s.grant.dstLen = s.origSize.toNat) (hlen : Config.HDRLEN + s.compSize.toNat ≤ s.srcLen) :
    s.startDecoding.Inv := by
  have hfit : s.startDecoding.lengthsFit := lengthsFit_of_zero (startDecoding_ptLen s) (startDecoding_cLen s)
  have hb : Between s.startDecoding := .block ⟨startDecoding_point s, startDecoding_fsm s⟩ (startDecoding_blockCount s)
  refine ⟨by simpa using h.srcWf, by simpa using h.dstWf, by simpa using h.wired, hfit.1, hfit.2, fun hrun => ?_⟩
  exact
    { reader := ⟨0, startDecoding_readerAt s⟩
      srcFits := by simpa using hlen
      dstFits := by simpa using hdst
      promises := by simpa [State.brokenPromise] using hprom
      room := by simp
      flag := startDecoding_badTable s
      place := hb.place hrun
      block := hb.blockCount
      pending := fun _ => hb.pending }

/-- A Build state that goes on keeps the invariant. -/
theorem buildTable_inv {s : State} {a : Alphabet} (h : s.Inv) (hrun : s.run = .decode) : (s.buildTable a).Inv := by
  obtain ⟨hf, hfsm, hp⟩ | he := buildTable_next s a
  · have hk := Keeps.of_buildFrom hf
    have hr := h.running hrun
    obtain ⟨p, hpos⟩ := hr.reader
    have hframe : s.readerFrom (s.buildTable a) = s := (congrArg (fun v => v.readerFrom (s.buildTable a)) hf).symm.trans hf
    have hout : (s.buildTable a).outPos = s.outPos := (congrArg State.outPos hf :)
    have hdst : (s.buildTable a).dst = s.dst := (congrArg State.dst hf :)
    have hpt : (s.buildTable a).ptLen = s.ptLen := (congrArg State.ptLen hf :)
    have hc : (s.buildTable a).cLen = s.cLen := (congrArg State.cLen hf :)
    have hb : Between (s.buildTable a) := by
      cases a with
      | T => exact .element .ccount ⟨hp, hfsm⟩ (by rw [hfsm]; decide) (by decide)
      | C => exact .element .pcount ⟨hp, hfsm⟩ (by rw [hfsm]; decide) (by decide)
      | P => exact .element .csym ⟨hp, hfsm⟩ (by rw [hfsm]; decide) (by decide)
    exact
      { srcWf := hk.src ▸ h.srcWf
        dstWf := hdst ▸ h.dstWf
        wired := hk.pBit.trans h.wired
        ptLens := hpt ▸ h.ptLens
        cLens := hc ▸ h.cLens
        running := fun _ => hr.of_keeps hrun hk ⟨p, hpos.of_readerFrom hframe hk.compSize hk.src⟩
          (by rw [hout, hk.origSize]; exact hr.room) hb }
  · rw [he]
    exact h.of_not_decoding (by simp) rfl rfl rfl rfl rfl

/-- At a C symbol the loop test has been passed (R231). -/
theorem hasRoom_of_csym {s : State} (h : s.standsAt .csym) (hroom : s.passStart = true → s.hasRoom = true) :
    s.outPos < s.origSize.toNat := by
  obtain ⟨hp, hf⟩ := h
  simpa [State.passStart, State.hasRoom, hp, hf] using hroom

theorem standsAt_consume {s : State} (ws : List Nat) {sl : Slot} (h : s.standsAt sl) : (s.consume ws).standsAt sl := by
  cases sl with
  | hdr => exact h.elim
  | _ => simpa [State.standsAt] using h

/-- An element keeps the invariant. -/
theorem element_inv {s t : State} {i : Instr} (h : s.Inv) (hrun : s.run = .decode)
    (hroom : s.passStart = true → s.hasRoom = true) (hi : s.ready i) (he : Effect (s.consume (s.widths i)) i.slot t) :
    t.Inv := by
  have hr := h.running hrun
  have hk := he.keeps
  have hw := he.writesUp_of_consume h.dstWf hr.room
  have hfit : t.lengthsFit := he.lengthsFit (lengthsFit_of_eq h.lengthsFit (consume_ptLen s _) (consume_cLen s _))
  have hs := standsAt_of_slot hrun hi.1
  obtain ⟨p, hp⟩ := hr.reader
  have hreader : ReaderAt t (p + (s.widths i).sum) :=
    (consume_readerAt (widths_le h.lengthsFit i) hp).of_readerFrom
      ((congrArg (fun v => v.readerFrom t) he.frame).symm.trans he.frame)
      (hk.compSize.trans (consume_compSize s _).symm) (hk.src.trans (consume_src s _).symm)
  have hb : Between t := by
    refine he.between (standsAt_consume _ hs) (by simpa using hr.block) fun hsl => ?_
    simpa using hasRoom_of_csym (hsl ▸ hs) hroom
  exact
    { srcWf := hk.src ▸ h.srcWf
      dstWf := hw.wf
      wired := hk.pBit.trans h.wired
      ptLens := hfit.1
      cLens := hfit.2
      running := fun _ => hr.of_keeps hrun hk ⟨_, hreader⟩ (by rw [hk.origSize]; exact hw.upper) hb }

/-- Settles O42: each outcome of a step keeps the invariant; the reader by `fillBits_readerAt`, the place by
`Effect.between`. -/
theorem everyStepKeepsTheInvariant : Obligations.EveryStepKeepsTheInvariant := by
  unfold Obligations.EveryStepKeepsTheInvariant
  intro s t h hstep
  cases step_stepTo hstep with
  | idle => exact h
  | shortHeader | truncated | full | longLength => exact h.of_not_decoding (by simp) rfl rfl rfl rfl rfl
  | accepted c comp orig hrun hprom hdst hlen =>
    have hparse : (s.parseHeader comp orig).Inv := h.of_not_decoding (by simp [hrun]) rfl rfl rfl rfl rfl
    obtain ⟨size, he⟩ | ⟨rfl, he⟩ := acceptHeader_cases (s.parseHeader comp orig) c <;> rw [he]
    · exact hparse.of_not_decoding (by simp) rfl rfl rfl rfl rfl
    · exact startDecoding_inv hparse hprom (by simpa [State.dstFits] using hdst) hlen
  | build hrun a => exact buildTable_inv h hrun
  | element hrun hroom i hi he => exact element_inv h hrun hroom hi he

/-- Settles O40: nothing is loaded at reset, the lengths are zero, and no command decodes. -/
theorem resetMeetsTheInvariant : Obligations.ResetMeetsTheInvariant := by
  unfold Obligations.ResetMeetsTheInvariant
  have hfit : State.reset.lengthsFit := lengthsFit_of_zero rfl rfl
  exact
    { srcWf := rfl
      dstWf := rfl
      wired := rfl
      ptLens := hfit.1
      cLens := hfit.2
      running := fun h => by cases h }

end Sys2Proof.Machine
end

section
/-! SIZE_QUERY (R256, R257): the header words are read from SRC's first eight bytes, and reported. -/

namespace Sys2Proof.Machine

/-- Four bytes as a word, least significant first (R33). -/
def wordOf (b0 b1 b2 b3 : Byte) : Nat := b0.toNat + 2 ^ 8 * b1.toNat + 2 ^ 16 * b2.toNat + 2 ^ 24 * b3.toNat

theorem wordOf_lt (b0 b1 b2 b3 : Byte) : wordOf b0 b1 b2 b3 < 2 ^ 32 := by
  unfold wordOf
  omega

theorem toNat_wordOf (b0 b1 b2 b3 : Byte) : (BitVec.ofNat 32 (wordOf b0 b1 b2 b3)).toNat = wordOf b0 b1 b2 b3 := by
  rw [BitVec.toNat_ofNat, Nat.mod_eq_of_lt (wordOf_lt b0 b1 b2 b3)]

theorem leWord_of_bytes (b0 b1 b2 b3 : Byte) (rest : List Bool) :
    leWord (toBits 8 b0.toNat ++ (toBits 8 b1.toNat ++ (toBits 8 b2.toNat ++ (toBits 8 b3.toNat ++ rest)))) =
      BitVec.ofNat 32 (wordOf b0 b1 b2 b3) := by
  have h := Laws.OperandRoundTrip.leWord_bytes (BitVec.ofNat 32 (wordOf b0 b1 b2 b3)) rest
  have hbyte : ∀ k, wordByte (BitVec.ofNat 32 (wordOf b0 b1 b2 b3)) k = wordOf b0 b1 b2 b3 / 2 ^ (8 * k) % 256 := by
    intro k
    rw [wordByte, toNat_wordOf]
  have h0 : wordOf b0 b1 b2 b3 / 2 ^ (8 * 0) % 256 = b0.toNat := by unfold wordOf; omega
  have h1 : wordOf b0 b1 b2 b3 / 2 ^ (8 * 1) % 256 = b1.toNat := by unfold wordOf; omega
  have h2 : wordOf b0 b1 b2 b3 / 2 ^ (8 * 2) % 256 = b2.toNat := by unfold wordOf; omega
  have h3 : wordOf b0 b1 b2 b3 / 2 ^ (8 * 3) % 256 = b3.toNat := by unfold wordOf; omega
  rwa [hbyte, hbyte, hbyte, hbyte, h0, h1, h2, h3] at h

theorem drop_32_of_bytes (a b c d : Nat) (rest : List Bool) :
    (toBits 8 a ++ (toBits 8 b ++ (toBits 8 c ++ (toBits 8 d ++ rest)))).drop 32 = rest := by
  rw [← List.append_assoc, ← List.append_assoc, ← List.append_assoc]
  exact List.drop_left' (by simp)

theorem headerBits_eq (s : State) : s.headerBits =
    (toBits 8 (s.src.read 0).toNat ++ (toBits 8 (s.src.read 1).toNat ++ (toBits 8 (s.src.read 2).toNat ++
      (toBits 8 (s.src.read 3).toNat ++ (toBits 8 (s.src.read 4).toNat ++ (toBits 8 (s.src.read 5).toNat ++
        (toBits 8 (s.src.read 6).toNat ++ (toBits 8 (s.src.read 7).toNat ++ [])))))))) := rfl

/-- The two words of the header (R93). -/
theorem leWord_headerBits (s : State) :
    leWord s.headerBits = BitVec.ofNat 32 (wordOf (s.src.read 0) (s.src.read 1) (s.src.read 2) (s.src.read 3)) ∧
    leWord (s.headerBits.drop 32) =
      BitVec.ofNat 32 (wordOf (s.src.read 4) (s.src.read 5) (s.src.read 6) (s.src.read 7)) := by
  rw [headerBits_eq]
  refine ⟨leWord_of_bytes _ _ _ _ _, ?_⟩
  rw [drop_32_of_bytes]
  exact leWord_of_bytes _ _ _ _ _

/-- A command on a source of 8 bytes or more runs the header it opens with. -/
theorem step_header {s : State} {c : Command} (hrun : s.run = .header c) (hlen : 8 ≤ s.srcLen) :
    step s = exec (.hdr (leWord s.headerBits) (leWord (s.headerBits.drop 32))) s := by
  have hshort : ¬ s.srcLen < Config.HDRLEN := Nat.not_lt.2 hlen
  simp [step, hrun, hshort, runElement, fetch_header hrun]

/-- `HDR` with no promise broken: the second length test decides (R256, R261). -/
theorem exec_hdr_of_promises {s : State} {c : Command} {comp orig : BitVec 32} (hrun : s.run = .header c)
    (hprom : s.brokenPromise c = none) (hdst : s.dstFits c orig = true) (hlen : 8 ≤ s.srcLen) :
    exec (.hdr comp orig) s = .next
      (if s.srcLen < 8 + comp.toNat then (s.parseHeader comp orig).raiseTruncated
       else (s.parseHeader comp orig).acceptHeader c) := by
  have hshort : ¬ s.srcLen < Config.HDRLEN := Nat.not_lt.2 hlen
  by_cases hlong : s.srcLen < 8 + comp.toNat <;> simp [exec, execHdr, hrun, hshort, hprom, hdst, hlong]

/-- Settles O26: the header's words are SRC's first eight bytes (`leWord_headerBits`), and the length test picks the report
or `TruncatedHeader`. -/
theorem sizeQueryReportsTheHeader : Obligations.SizeQueryReportsTheHeader := by
  unfold Obligations.SizeQueryReportsTheHeader
  intro s comp orig hrun hprom hlen hcomp horig
  obtain rfl : comp = wordOf (s.src.read 0) (s.src.read 1) (s.src.read 2) (s.src.read 3) := hcomp
  obtain rfl : orig = wordOf (s.src.read 4) (s.src.read 5) (s.src.read 6) (s.src.read 7) := horig
  have hexec := exec_hdr_of_promises (comp := leWord s.headerBits) (orig := leWord (s.headerBits.drop 32)) hrun hprom rfl hlen
  have hstep := step_header hrun hlen
  rw [(leWord_headerBits s).1, (leWord_headerBits s).2] at hexec hstep
  rw [toNat_wordOf] at hexec
  refine ⟨_, hstep.trans hexec, hexec, ?_⟩
  split
  · exact ⟨rfl, ⟨fun _ => rfl, fun _ => rfl⟩, rfl⟩
  · exact ⟨rfl, ⟨fun _ => rfl, fun _ => rfl⟩, rfl, toNat_wordOf _ _ _ _, toNat_wordOf _ _ _ _, rfl, rfl⟩

end Sys2Proof.Machine
end

section
/-! The next element as the decoder gives it: it stands at the present position, it is well formed, and past its guard it has
one of ten meanings (`Meaning`), as functions of the state. -/

namespace Sys2Proof.Machine

/-! ### Decoded elements -/

/-- What `exec` continues with past the guard of an element at a position; `Effect` is what these answer. -/
inductive Meaning : Slot → (State → Result) → Prop
  | blksize (n : BitVec 16) : Meaning .blksize fun u => .next { u with blockCount := n, fsm := .readExtraLengths, point := .start }
  | count (a : Alphabet) (n : Nat) : Meaning (countSlot a) fun u => .next (u.startEntries n)
  | degenerate (a : Alphabet) (c : Nat) : Meaning (countSlot a) fun u => u.degenerate a c
  | ptlen (l : Nat) : Meaning .ptlen fun u => .next (u.storePTLength l)
  | tskip (r : Nat) : Meaning .tskip fun u => .next (u.skipEntries r)
  | clength (l : Nat) : Meaning .citem fun u => .next (u.storeCLength l)
  | zeroRun (r : Nat) : Meaning .citem fun u => .next (u.zeroRun r)
  | lit (b : Byte) : Meaning .csym fun u => .next (u.countSymbol.putByte b)
  | matchLen (m : Nat) : Meaning .csym fun u => .next { u.countSymbol with point := .offset m }
  | copy (off : Nat) : Meaning .off fun u => u.copyMatch off

/-- The instruction is an element of the position: it stands there, its operands fit (R34 has P fields of at most 5 bits), and
`exec` gives it, unless it is the header, a meaning of the position behind the guard. -/
structure ElementOf (pBit : Nat) (sl : Slot) (i : Instr) : Prop where
  slot : i.slot = sl
  wellFormed : pBit ≤ 5 → i.wellFormed pBit = true
  meaning : sl ≠ .hdr → ∃ k, (∀ s, exec i s = s.element i k) ∧ Meaning sl k

theorem elementOf_of_ptlenInstr {pBit l : Nat} {i : Instr} (h : ptlenInstr l = some i) : ElementOf pBit .ptlen i := by
  refine ⟨slot_of_ptlenInstr h, fun _ => ?_, fun _ => ⟨_, exec_ptlen h, .ptlen l⟩⟩
  unfold ptlenInstr at h
  split at h <;> cases h <;> rfl

theorem elementOf_of_clInstr {pBit l : Nat} {i : Instr} (h : clInstr l = some i) : ElementOf pBit .citem i := by
  refine ⟨slot_of_clInstr h, fun _ => ?_, fun _ => ⟨_, exec_cl h, .clength l⟩⟩
  unfold clInstr at h
  split at h <;> cases h <;> rfl

theorem elementOf_of_offInstr {pBit c x : Nat} {i : Instr} (h : offInstr c x = some i) : ElementOf pBit .off i := by
  refine ⟨slot_of_offInstr h, fun _ => ?_, fun _ => ⟨_, exec_off h, .copy _⟩⟩
  unfold offInstr at h
  split at h <;> cases h <;> rfl

theorem exec_matchLen (m : Nat) (s : State) :
    exec (.matchLen m) s = s.element (.matchLen m) fun u => .next { u.countSymbol with point := .offset m } := rfl

/-- A non-zero field that fits its operand is a non-zero operand. -/
theorem ofNat_bne_zero {n v : Nat} (hv : v ≠ 0) (hlt : v < 2 ^ n) : (BitVec.ofNat n v != 0) = true := by
  rw [bne_iff_ne]
  intro h
  have h0 := congrArg BitVec.toNat h
  rw [BitVec.toNat_ofNat, Nat.mod_eq_of_lt hlt] at h0
  exact hv h0

theorem toNat_pfield_lt (pBit : Nat) (b : List Bool) : (BitVec.ofNat 5 (field pBit b)).toNat < 2 ^ pBit := by
  rw [BitVec.toNat_ofNat]
  exact (Nat.mod_le _ _).trans_lt (field_lt pBit b)

theorem decodeRaw_elementOf {pBit : Nat} {sl : Slot} {b : List Bool} {i : Instr} (hd : decodeRaw pBit sl b = .ok i) :
    ElementOf pBit sl i := by
  cases sl with
  | hdr =>
    cases hd
    exact ⟨rfl, fun _ => rfl, fun h => absurd rfl h⟩
  | blksize =>
    cases hd
    exact ⟨rfl, fun _ => rfl, fun _ => ⟨_, fun _ => rfl, .blksize _⟩⟩
  | tcount =>
    simp only [decodeRaw] at hd
    split at hd <;> cases hd
    · exact ⟨rfl, fun _ => rfl, fun _ => ⟨_, fun _ => rfl, .degenerate .T _⟩⟩
    · next hne => exact ⟨rfl, fun _ => ofNat_bne_zero hne (field_lt 5 b), fun _ => ⟨_, fun _ => rfl, .count .T _⟩⟩
  | ccount =>
    simp only [decodeRaw] at hd
    split at hd <;> cases hd
    · exact ⟨rfl, fun _ => rfl, fun _ => ⟨_, fun _ => rfl, .degenerate .C _⟩⟩
    · next hne => exact ⟨rfl, fun _ => ofNat_bne_zero hne (field_lt 9 b), fun _ => ⟨_, fun _ => rfl, .count .C _⟩⟩
  | pcount =>
    simp only [decodeRaw] at hd
    split at hd <;> cases hd
    · exact ⟨rfl, fun _ => decide_eq_true (toNat_pfield_lt pBit _), fun _ => ⟨_, fun _ => rfl, .degenerate .P _⟩⟩
    · next hne =>
      refine ⟨rfl, fun hp => ?_, fun _ => ⟨_, fun _ => rfl, .count .P _⟩⟩
      have hlt : field pBit b < 2 ^ 5 := (field_lt pBit b).trans_le (Nat.pow_le_pow_right (by decide) hp)
      exact Bool.and_eq_true_iff.2 ⟨ofNat_bne_zero hne hlt, decide_eq_true (toNat_pfield_lt pBit b)⟩
  | ptlen =>
    simp only [decodeRaw] at hd
    split at hd <;> cases hd
    next hi => exact elementOf_of_ptlenInstr hi
  | tskip =>
    cases hd
    exact ⟨rfl, fun _ => rfl, fun _ => ⟨_, fun _ => rfl, .tskip _⟩⟩
  | citem | csym | off => cases hd

theorem decodeCoded_elementOf {pBit : Nat} {sl : Slot} {sym : Nat} {b : List Bool} {i : Instr}
    (hd : decodeCoded sl sym b = .ok i) : ElementOf pBit sl i := by
  cases sl with
  | citem =>
    simp only [decodeCoded] at hd
    repeat' split at hd
    all_goals cases hd
    iterate 3 exact ⟨rfl, fun _ => rfl, fun _ => ⟨_, fun _ => rfl, .zeroRun _⟩⟩
    next hc => exact elementOf_of_clInstr hc
  | csym =>
    simp only [decodeCoded] at hd
    repeat' split at hd
    all_goals cases hd
    · exact ⟨rfl, fun _ => rfl, fun _ => ⟨_, fun _ => rfl, .lit _⟩⟩
    · refine ⟨rfl, fun _ => ?_, fun _ => ⟨_, exec_matchLen _, .matchLen _⟩⟩
      exact wellFormed_matchLen.2 (by omega)
  | off =>
    simp only [decodeCoded] at hd
    split at hd <;> cases hd
    next ho => exact elementOf_of_offInstr ho
  | hdr | blksize | tcount | pcount | ccount | ptlen | tskip => cases hd

/-! ### Where an element can be read -/

theorem decodeRaw_ne_noElement {pBit : Nat} {sl : Slot} {b : List Bool} (h : sl.alphabet = none) :
    decodeRaw pBit sl b ≠ .error .noElement := by
  cases sl with
  | citem | csym | off => cases h
  | hdr | blksize | tskip => nofun
  | tcount | pcount | ccount | ptlen =>
    simp only [decodeRaw]
    split <;> nofun

theorem decodeCoded_ne_noElement {sl : Slot} {a : Alphabet} {sym : Nat} {b : List Bool} (h : sl.alphabet = some a) :
    decodeCoded sl sym b ≠ .error .noElement := by
  cases sl with
  | citem | csym | off =>
    simp only [decodeCoded]
    repeat' split
    all_goals nofun
  | hdr | blksize | tcount | pcount | ccount | ptlen | tskip => cases h

/-! ### The fetched element -/

/-- All a fetch at a position can do: it decodes a RAW element, finds no code, or decodes a coded element. -/
theorem fetch_cases {s : State} {sl : Slot} (hsl : s.slot = some sl) :
    (sl.alphabet = none ∧ s.fetch = decodeRaw s.pWidth sl (s.rawAt sl)) ∨
      ∃ a, sl.alphabet = some a ∧ (s.fetch = .error .noCode ∨ ∃ sym b, s.fetch = decodeCoded sl sym b) := by
  cases ha : sl.alphabet with
  | none => exact .inl ⟨rfl, by simp only [State.fetch, hsl, ha]⟩
  | some a =>
    refine .inr ⟨a, rfl, ?_⟩
    cases hsym : s.lookupSym a with
    | none => exact .inl (by simp only [State.fetch, hsl, ha, hsym])
    | some sym => exact .inr ⟨sym, _, by simp only [State.fetch, hsl, ha, hsym]; rfl⟩

/-- The fetched element is one of the present position. -/
theorem fetch_elementOf {s : State} {i : Instr} (h : s.fetch = .ok i) : ∃ sl, s.slot = some sl ∧ ElementOf s.pWidth sl i := by
  cases hsl : s.slot with
  | none => simp [State.fetch, hsl] at h
  | some sl =>
    refine ⟨sl, rfl, ?_⟩
    obtain ⟨_, he⟩ | ⟨_, _, he | ⟨_, _, he⟩⟩ := fetch_cases hsl <;> rw [he] at h
    · exact decodeRaw_elementOf h
    · cases h
    · exact decodeCoded_elementOf h

theorem fetch_ne_noElement {s : State} {sl : Slot} (hsl : s.slot = some sl) : s.fetch ≠ .error .noElement := by
  obtain ⟨ha, he⟩ | ⟨a, ha, he | ⟨_, _, he⟩⟩ := fetch_cases hsl <;> rw [he]
  · exact decodeRaw_ne_noElement ha
  · nofun
  · exact decodeCoded_ne_noElement ha

theorem slot_ne_hdr {s : State} (hrun : s.run = .decode) {sl : Slot} (h : s.slot = some sl) : sl ≠ .hdr := by
  rintro rfl
  exact (standsAt_of_slot hrun h : False)

end Sys2Proof.Machine
end

section
/-! No step leaves SRC or DST, and none meets an element out of place (R62, R64). -/

namespace Sys2Proof.Machine

/-- The outcome is none of the stops that only a state outside the invariant could meet. -/
def Sound (r : Result) : Prop :=
  r ≠ .fault .accessOutOfBounds ∧ r ≠ .refused .outOfPlace ∧ r ≠ .refused .illFormed

theorem sound_next (t : State) : Sound (.next t) := ⟨nofun, nofun, nofun⟩

theorem sound_fault {f : Fault} (h : f ≠ .accessOutOfBounds) : Sound (.fault f) := ⟨by simpa using h, nofun, nofun⟩

theorem sound_refused {r : Refusal} (hplace : r ≠ .outOfPlace) (hform : r ≠ .illFormed) : Sound (.refused r) :=
  ⟨nofun, by simpa using hplace, by simpa using hform⟩

theorem sound_brokenPromise {s : State} {c : Command} {r : Refusal} (h : s.brokenPromise c = some r) : Sound (.refused r) := by
  cases c <;> simp only [State.brokenPromise] at h <;> repeat' split at h
  all_goals cases h
  all_goals exact sound_refused nofun nofun

/-- At its position, a meaning stops for R283 and R284 only. -/
theorem Meaning.sound {sl : Slot} {k : State → Result} (hk : Meaning sl k) {u : State} (hu : u.standsAt sl) : Sound (k u) := by
  cases hk with
  | degenerate a c =>
    obtain ⟨_, he⟩ | ⟨_, he⟩ := degenerate_cases u a c <;> simp only [he]
    · exact sound_fault nofun
    · exact sound_next _
  | copy off =>
    obtain ⟨m, hp, _⟩ := hu
    simp only [State.copyMatch, hp]
    split
    · exact sound_fault nofun
    · exact sound_next _
  | _ => exact sound_next _

/-- The next element of a decode in bounds is ready, and has its meaning. -/
theorem sound_runElement {s : State} {sl : Slot} (hrun : s.run = .decode) (hp : s.pWidth ≤ 5) (hb : s.inBounds = true)
    (hsl : s.slot = some sl) : Sound (runElement s) := by
  unfold runElement
  split
  · next i hf =>
    obtain ⟨sl, hsl, he⟩ := fetch_elementOf hf
    obtain ⟨k, hexec, hk⟩ := he.meaning (slot_ne_hdr hrun hsl)
    have hready : s.ready i := ⟨by rw [hsl, he.slot], he.wellFormed hp, hb⟩
    rw [hexec, element_ready k hready]
    exact hk.sound (standsAt_consume _ (standsAt_of_slot hrun hsl))
  · next r hf =>
    cases r with
    | lengthAbove16 => exact sound_next _
    | notASymbol | noCode => exact sound_fault nofun
    | noElement => exact absurd hf (fetch_ne_noElement hsl)

theorem sound_shortHeader (s : State) (c : Command) : Sound (s.shortHeader c) := by
  unfold State.shortHeader
  split
  · next hbroken => exact sound_brokenPromise hbroken
  · exact sound_next _

theorem sound_execHdr {s : State} {c : Command} (hrun : s.run = .header c) (comp orig : BitVec 32) :
    Sound (execHdr comp orig s) := by
  simp only [execHdr, hrun]
  split
  · exact sound_shortHeader s c
  split
  · next hbroken => exact sound_brokenPromise hbroken
  split
  · exact sound_refused nofun nofun
  split
  · exact sound_next _
  · exact sound_next _

/-- Between two steps of a decode the rest of the payload lies in SRC (R62), and DST holds `origSize` bytes (R64). -/
theorem State.Running.inBounds {s : State} (h : s.Running) : s.inBounds = true := by
  obtain ⟨p, hp⟩ := h.reader
  have hrest := hp.rest
  have hsrc := h.srcFits
  have hdst := h.dstFits
  simp only [State.inBounds, Bool.and_eq_true, decide_eq_true_eq]
  omega

/-- Settles O43: a command's header is refused for broken promises only; in a decode `Running` gives the bounds and the
position, and the fetched element is then ready. -/
theorem noStepLeavesTheMemories : Obligations.NoStepLeavesTheMemories := by
  unfold Obligations.NoStepLeavesTheMemories
  intro s h
  change Sound (step s)
  cases hrun : s.run with
  | idle =>
    simp only [step, hrun]
    exact sound_next s
  | header c =>
    simp only [step, hrun, runElement, fetch_header hrun]
    split
    · exact sound_shortHeader s c
    · exact sound_execHdr hrun _ _
  | decode =>
    have hr := h.running hrun
    have hp : s.pWidth ≤ 5 := by simp [State.pWidth, h.wired]
    simp only [step, hrun, hr.inBounds]
    split
    · exact sound_next _
    obtain ⟨hbuild, _⟩ | ⟨hbuild, hslot⟩ := hr.place
    · obtain ⟨a, ha⟩ := Option.isSome_iff_exists.1 hbuild
      simp only [ha]
      exact sound_next _
    · obtain ⟨sl, hsl⟩ := Option.isSome_iff_exists.1 hslot
      simp only [hbuild]
      exact sound_runElement hrun hp hr.inBounds hsl

end Sys2Proof.Machine
end

section
/-! SRC behind the payload has no effect (R61): a decode's step commutes with any change of those bytes. -/

namespace Sys2Proof.Machine

/-- The state with other bytes in SRC. -/
def State.withSource (s : State) (m : Memory) : State := { s with src := m }

@[simp] theorem withSource_bitCount (s : State) (m : Memory) : (s.withSource m).bitCount = s.bitCount := rfl
@[simp] theorem withSource_run (s : State) (m : Memory) : (s.withSource m).run = s.run := rfl
@[simp] theorem withSource_point (s : State) (m : Memory) : (s.withSource m).point = s.point := rfl
@[simp] theorem withSource_slot (s : State) (m : Memory) : (s.withSource m).slot = s.slot := rfl
@[simp] theorem withSource_building (s : State) (m : Memory) : (s.withSource m).building = s.building := rfl
@[simp] theorem withSource_lookupSym (s : State) (m : Memory) (a : Alphabet) : (s.withSource m).lookupSym a = s.lookupSym a := by
  cases a <;> rfl
@[simp] theorem withSource_codeLength (s : State) (m : Memory) (a : Alphabet) (sym : Nat) :
    (s.withSource m).codeLength a sym = s.codeLength a sym := by
  cases a <;> rfl

/-- An outcome with other bytes in SRC, where it is a state. -/
def withSourceNext (m : Memory) : Result → Result
  | .next t => .next (t.withSource m)
  | .fault f => .fault f
  | .refused r => .refused r

/-- What the reader has still to fetch is the rest of the payload, and the payload reads in `m` as in SRC. -/
structure SamePayload (s : State) (m : Memory) : Prop where
  rest : s.inPos + s.compRemaining = s.compSize.toNat
  bytes : ∀ a, a < Config.HDRLEN + s.compSize.toNat → m.read a = s.src.read a

/-! ### The reader, the only one that reads SRC (R62) -/

theorem SamePayload.fillBits {s : State} {m : Memory} (h : SamePayload s m) (n : Nat) : SamePayload (s.fillBits n) m :=
  ⟨by simpa [fillBits_payload] using h.rest, by simpa using h.bytes⟩

theorem SamePayload.refill {s : State} {m : Memory} (h : SamePayload s m) (k : Nat) : SamePayload (s.refill k) m :=
  ⟨by simpa [refill_payload] using h.rest, by simpa using h.bytes⟩

/-- A pass takes its byte from the payload, or none (R62, R134). -/
theorem refill_withSource {s : State} {m : Memory} (h : SamePayload s m) (k : Nat) :
    (s.withSource m).refill k = (s.refill k).withSource m := by
  by_cases hc : 0 < s.compRemaining
  · have hbyte := h.bytes (Config.HDRLEN + s.inPos) (by have := h.rest; omega)
    simp [State.refill, State.withSource, hc, hbyte]
  · simp [State.refill, State.withSource, hc]

theorem refillLoop_withSource {s : State} {m : Memory} (h : SamePayload s m) (k fuel : Nat) :
    (s.withSource m).refillLoop k fuel = ((s.refillLoop k fuel).1.withSource m, (s.refillLoop k fuel).2) := by
  induction fuel generalizing s k with
  | zero => rfl
  | succ fuel ih =>
    unfold State.refillLoop
    by_cases hlt : s.bitCount < k
    · rw [if_pos hlt, withSource_bitCount, if_pos hlt, ← ih (h.refill _) _, ← refill_withSource h]
    · rw [if_neg hlt, withSource_bitCount, if_neg hlt]

theorem fillBits_withSource {s : State} {m : Memory} (h : SamePayload s m) (n : Nat) :
    (s.withSource m).fillBits n = (s.fillBits n).withSource m := by
  have hshift : SamePayload { s with bitBuf := s.bitBuf <<< n } m := ⟨h.rest, h.bytes⟩
  have hloop := refillLoop_withSource hshift n 5
  unfold State.withSource at hloop
  simp only [State.fillBits, State.withSource, hloop]

theorem consume_withSource {s : State} {m : Memory} (h : SamePayload s m) (ws : List Nat) :
    (s.withSource m).consume ws = (s.consume ws).withSource m := by
  induction ws generalizing s with
  | nil => rfl
  | cons w ws ih => rw [consume_cons, consume_cons, fillBits_withSource h, ih (h.fillBits w)]

/-! ### The operations behind the reader do not see SRC -/

variable (s : State) (m : Memory)

theorem nextPTEntry_withSource (number idx : Nat) :
    (s.withSource m).nextPTEntry number idx = (s.nextPTEntry number idx).withSource m := by
  simp only [State.nextPTEntry, apply_ite (State.withSource · m)]
  rfl

theorem nextCItem_withSource (number idx : Nat) :
    (s.withSource m).nextCItem number idx = (s.nextCItem number idx).withSource m := by
  simp only [State.nextCItem, apply_ite (State.withSource · m)]
  rfl

theorem storePTLength_withSource (l : Nat) : (s.withSource m).storePTLength l = (s.storePTLength l).withSource m := by
  cases h : s.point with
  | entries number idx =>
    simp only [State.storePTLength, withSource_point, h, apply_ite (State.withSource · m), ← nextPTEntry_withSource]
    rfl
  | start | skip | filled | offset => simp only [State.storePTLength, withSource_point, h]

theorem skipEntries_withSource (r : Nat) : (s.withSource m).skipEntries r = (s.skipEntries r).withSource m := by
  cases h : s.point with
  | skip number =>
    simp only [State.skipEntries, withSource_point, h, ← nextPTEntry_withSource]
    rfl
  | start | entries | filled | offset => simp only [State.skipEntries, withSource_point, h]

theorem storeCLength_withSource (l : Nat) : (s.withSource m).storeCLength l = (s.storeCLength l).withSource m := by
  cases h : s.point with
  | entries number idx =>
    simp only [State.storeCLength, withSource_point, h, ← nextCItem_withSource]
    rfl
  | start | skip | filled | offset => simp only [State.storeCLength, withSource_point, h]

theorem zeroRun_withSource (r : Nat) : (s.withSource m).zeroRun r = (s.zeroRun r).withSource m := by
  cases h : s.point with
  | entries number idx =>
    simp only [State.zeroRun, withSource_point, h, ← nextCItem_withSource]
    rfl
  | start | skip | filled | offset => simp only [State.zeroRun, withSource_point, h]

theorem degenerate_withSource (a : Alphabet) (c : Nat) :
    (s.withSource m).degenerate a c = withSourceNext m (s.degenerate a c) := by
  simp only [State.degenerate, apply_ite (withSourceNext m)]
  cases a <;> rfl

theorem putByte_withSource (v : Byte) : (s.withSource m).putByte v = (s.putByte v).withSource m := by
  simp only [State.putByte, apply_ite (State.withSource · m)]
  rfl

theorem copyLoop_withSource (n src : Nat) :
    State.copyLoop n src (s.withSource m) = (State.copyLoop n src s).withSource m := by
  induction n generalizing s src with
  | zero => rfl
  | succ n ih =>
    simp only [State.copyLoop, apply_ite (State.withSource · m), ← ih, ← putByte_withSource]
    rfl

theorem copyMatch_withSource (off : Nat) : (s.withSource m).copyMatch off = withSourceNext m (s.copyMatch off) := by
  cases h : s.point with
  | offset n =>
    simp only [State.copyMatch, withSource_point, h, apply_ite (withSourceNext m), copyLoop_withSource]
    rfl
  | start | entries | skip | filled =>
    simp only [State.copyMatch, withSource_point, h]
    rfl

theorem build_withSource (a : Alphabet) : (s.withSource m).build a = (s.build a).map (·.withSource m) := by
  cases a <;> simp only [State.build, Option.map_map] <;> rfl

theorem buildTable_withSource (a : Alphabet) : (s.withSource m).buildTable a = (s.buildTable a).withSource m := by
  by_cases hfill : s.point = .filled
  · simp only [State.buildTable, withSource_point, hfill, reduceIte]
    rfl
  · cases hb : s.build a <;> simp only [State.buildTable, withSource_point, hfill, reduceIte, build_withSource, hb] <;> rfl

theorem Meaning.withSource {sl : Slot} {k : State → Result} (hk : Meaning sl k) :
    k (s.withSource m) = withSourceNext m (k s) := by
  cases hk with
  | blksize | count | matchLen => rfl
  | degenerate a c => exact degenerate_withSource s m a c
  | ptlen l => exact congrArg Host.Outcome.next (storePTLength_withSource s m l)
  | tskip r => exact congrArg Host.Outcome.next (skipEntries_withSource s m r)
  | clength l => exact congrArg Host.Outcome.next (storeCLength_withSource s m l)
  | zeroRun r => exact congrArg Host.Outcome.next (zeroRun_withSource s m r)
  | lit b => exact congrArg Host.Outcome.next (putByte_withSource s.countSymbol m b)
  | copy off => exact copyMatch_withSource s m off

/-! ### The step -/

variable {s m}

theorem element_withSource (h : SamePayload s m) {sl : Slot} {i : Instr} {k : State → Result} (hk : Meaning sl k) :
    (s.withSource m).element i k = withSourceNext m (s.element i k) := by
  have hconsume : k ((s.withSource m).consume (s.widths i)) = withSourceNext m (k (s.consume (s.widths i))) := by
    rw [consume_withSource h, hk.withSource]
  simp only [State.element, apply_ite (withSourceNext m), ← hconsume]
  rfl

/-- The next element of a decode is read from the window alone. -/
theorem fetch_withSource (hrun : s.run = .decode) (h : SamePayload s m) : (s.withSource m).fetch = s.fetch := by
  cases hsl : s.slot with
  | none => simp only [State.fetch, withSource_slot, hsl]
  | some sl =>
    have hne := slot_ne_hdr hrun hsl
    cases ha : sl.alphabet with
    | none =>
      simp only [State.fetch, withSource_slot, hsl, ha, State.rawAt, if_neg hne]
      rfl
    | some a =>
      simp only [State.fetch, withSource_slot, hsl, ha, withSource_lookupSym, withSource_codeLength, fillBits_withSource h]
      rfl

theorem runElement_withSource (hrun : s.run = .decode) (h : SamePayload s m) :
    runElement (s.withSource m) = withSourceNext m (runElement s) := by
  simp only [runElement, fetch_withSource hrun h]
  cases hf : s.fetch with
  | ok i =>
    obtain ⟨sl, hsl, he⟩ := fetch_elementOf hf
    obtain ⟨k, hexec, hk⟩ := he.meaning (slot_ne_hdr hrun hsl)
    simp only [hexec]
    exact element_withSource h hk
  | error r => cases r <;> rfl

theorem step_withSource (hrun : s.run = .decode) (h : SamePayload s m) :
    step (s.withSource m) = withSourceNext m (step s) := by
  simp only [step, withSource_run, withSource_building, hrun, apply_ite (withSourceNext m)]
  cases s.building with
  | none =>
    simp only [runElement_withSource hrun h]
    rfl
  | some a =>
    simp only [buildTable_withSource]
    rfl

/-- Settles O39: the step commutes with the change of source (`step_withSource`), so the two outcomes are of one kind. -/
theorem surplusSourceIsNeverRead : Obligations.SurplusSourceIsNeverRead := by
  unfold Obligations.SurplusSourceIsNeverRead
  intro s m hrun hrest hbytes
  have hstep : step { s with src := m } = withSourceNext m (step s) := step_withSource hrun ⟨hrest, hbytes⟩
  rw [hstep]
  cases step s <;> rfl

end Sys2Proof.Machine
end

section
/-! Canonical codes (R99, R152, R154): the 16-bit values a symbol's code opens are the interval of `2^(16-l)` values from its
`code16` on, and the intervals of a complete length list cut 0..65535 into disjoint pieces. -/

namespace Sys2Proof

/-! ### Symbols of one length -/

/-- A symbol of length `l` counts towards the symbols of that length after it. -/
theorem count_take_lt {lens : List Nat} {s t l : Nat} (hs : s < lens.length) (hl : lens.getD s 0 = l) (hst : s < t) :
    (lens.take s).count l < (lens.take t).count l := by
  have hstep : (lens.take (s + 1)).count l = (lens.take s).count l + 1 := by
    have hget : lens[s] = l := by simpa [hs] using hl
    rw [List.take_add_one, List.getElem?_eq_getElem hs, hget]
    simp
  have hmono : (lens.take (s + 1)).count l ≤ (lens.take t).count l :=
    (List.take_prefix_take_left hst).sublist.count_le l
  omega

/-- There is a symbol of length `l` with `k` symbols of that length before it. -/
theorem exists_count_take_eq {lens : List Nat} {l k : Nat} (hk : k < lens.count l) :
    ∃ s, s < lens.length ∧ lens.getD s 0 = l ∧ (lens.take s).count l = k := by
  induction lens generalizing k with
  | nil => simp at hk
  | cons x xs ih =>
    by_cases hx : x = l
    · cases k with
      | zero => exact ⟨0, by simp, by simpa using hx, by simp⟩
      | succ k =>
        obtain ⟨s, hs, hl, hc⟩ := ih (k := k) (by simpa [hx] using hk)
        exact ⟨s + 1, by simpa using hs, by simpa using hl, by simp [hx, hc]⟩
    · obtain ⟨s, hs, hl, hc⟩ := ih (k := k) (by simpa [hx] using hk)
      exact ⟨s + 1, by simpa using hs, by simpa using hl, by simp [hx, hc]⟩

/-! ### The cumulative widths -/

theorem cumulative_succ (lens : List Nat) (l : Nat) :
    cumulative lens (l + 1) = cumulative lens l + lens.count (l + 1) * 2 ^ (16 - (l + 1)) := rfl

theorem cumulative_mono (lens : List Nat) : Monotone (cumulative lens) :=
  monotone_nat_of_le_succ fun _ => Nat.le_add_right _ _

theorem two_pow_dvd_cumulative (lens : List Nat) (l : Nat) : 2 ^ (16 - l) ∣ cumulative lens l := by
  induction l with
  | zero => exact Nat.dvd_zero _
  | succ l ih => exact Nat.dvd_add ((Nat.pow_dvd_pow 2 (by omega)).trans ih) (Nat.dvd_mul_left _ _)

/-- A value below the sum of all widths lies in the range of one length. -/
theorem exists_length_of_lt_cumulative {lens : List Nat} {v n : Nat} (h : v < cumulative lens n) :
    ∃ l, l < n ∧ cumulative lens l ≤ v ∧ v < cumulative lens (l + 1) := by
  induction n with
  | zero => simp [cumulative] at h
  | succ n ih =>
    by_cases hv : v < cumulative lens n
    · obtain ⟨l, hl, hlow, hhigh⟩ := ih hv
      exact ⟨l, by omega, hlow, hhigh⟩
    · exact ⟨n, by omega, by omega, h⟩

/-! ### The values a code opens -/

/-- The code of `s` opens the 16-bit value `v` (R99). -/
def CodeOpens (lens : List Nat) (s v : Nat) : Prop :=
  lens.getD s 0 ≠ 0 ∧ v / 2 ^ (16 - lens.getD s 0) = codeValue lens s

theorem lt_length_of_getD_ne_zero {lens : List Nat} {s : Nat} (h : lens.getD s 0 ≠ 0) : s < lens.length := by
  by_contra hs
  exact h (by simp [Nat.le_of_not_lt hs])

theorem getD_le {lens : List Nat} (h : ∀ l ∈ lens, l ≤ 16) (s : Nat) : lens.getD s 0 ≤ 16 := by
  by_cases hs : s < lens.length
  · rw [List.getD_eq_getElem _ _ hs]
    exact h _ (List.getElem_mem hs)
  · simp [Nat.le_of_not_lt hs]

theorem code16_eq {lens : List Nat} {s l : Nat} (hl : lens.getD s 0 = l + 1) :
    code16 lens s = cumulative lens l + (lens.take s).count (l + 1) * 2 ^ (16 - (l + 1)) := by
  simp only [code16, hl, Nat.add_sub_cancel]

/-- A code of length `l + 1` is the number of codes of its width before it. -/
theorem codeValue_eq {lens : List Nat} {s l : Nat} (hl : lens.getD s 0 = l + 1) :
    codeValue lens s = cumulative lens l / 2 ^ (16 - (l + 1)) + (lens.take s).count (l + 1) := by
  rw [codeValue, hl, code16_eq hl, Nat.add_mul_div_right _ _ (Nat.two_pow_pos _)]

theorem opens_iff {lens : List Nat} {s l v : Nat} (hl : lens.getD s 0 = l + 1) :
    CodeOpens lens s v ↔ code16 lens s ≤ v ∧ v < code16 lens s + 2 ^ (16 - (l + 1)) := by
  have hw := Nat.two_pow_pos (16 - (l + 1))
  obtain ⟨c, hc⟩ : 2 ^ (16 - (l + 1)) ∣ code16 lens s := by
    rw [code16_eq hl]
    exact Nat.dvd_add ((Nat.pow_dvd_pow 2 (by omega)).trans (two_pow_dvd_cumulative lens l)) (Nat.dvd_mul_left _ _)
  rw [CodeOpens, codeValue, hl, hc, Nat.mul_div_cancel_left c hw, Nat.div_eq_iff hw, Nat.mul_comm c]
  omega

/-- The values a code of length `l + 1` opens lie in the range of that length. -/
theorem code16_range {lens : List Nat} {s l : Nat} (hl : lens.getD s 0 = l + 1) :
    cumulative lens l ≤ code16 lens s ∧ code16 lens s + 2 ^ (16 - (l + 1)) ≤ cumulative lens (l + 1) := by
  have hs : s < lens.length := lt_length_of_getD_ne_zero (by omega)
  have hcount := count_take_lt hs hl hs
  rw [List.take_length] at hcount
  rw [code16_eq hl, cumulative_succ, Nat.add_assoc, ← Nat.succ_mul]
  exact ⟨Nat.le_add_right _ _, Nat.add_le_add_left (Nat.mul_le_mul_right _ hcount) _⟩

/-- The codes of one length follow each other in symbol order, each with its own values. -/
theorem code16_add_le {lens : List Nat} {s t l : Nat} (hs : lens.getD s 0 = l + 1) (ht : lens.getD t 0 = l + 1)
    (hst : s < t) : code16 lens s + 2 ^ (16 - (l + 1)) ≤ code16 lens t := by
  have hcount := count_take_lt (lt_length_of_getD_ne_zero (by omega)) hs hst
  rw [code16_eq hs, code16_eq ht, Nat.add_assoc, ← Nat.succ_mul]
  exact Nat.add_le_add_left (Nat.mul_le_mul_right _ hcount) _

/-- No value is opened by two codes. -/
theorem CodeOpens.unique {lens : List Nat} {s t v : Nat} (hs : CodeOpens lens s v) (ht : CodeOpens lens t v) : s = t := by
  obtain ⟨k, hk⟩ := Nat.exists_eq_add_one_of_ne_zero hs.1
  obtain ⟨m, hm⟩ := Nat.exists_eq_add_one_of_ne_zero ht.1
  rw [opens_iff hk] at hs
  rw [opens_iff hm] at ht
  have hrange := code16_range hk
  have hrange' := code16_range hm
  have hkm : ¬ k < m := fun h => by
    have := cumulative_mono lens (show k + 1 ≤ m from h)
    omega
  have hmk : ¬ m < k := fun h => by
    have := cumulative_mono lens (show m + 1 ≤ k from h)
    omega
  obtain rfl : k = m := by omega
  obtain hst | hst | hst := Nat.lt_trichotomy s t
  · have := code16_add_le hk hm hst
    omega
  · exact hst
  · have := code16_add_le hm hk hst
    omega

/-- Every value below the sum of the widths is opened by a code. -/
theorem exists_opens {lens : List Nat} {v : Nat} (hv : v < cumulative lens 16) : ∃ s, CodeOpens lens s v := by
  obtain ⟨l, _, hlow, hhigh⟩ := exists_length_of_lt_cumulative hv
  have hw := Nat.two_pow_pos (16 - (l + 1))
  rw [cumulative_succ] at hhigh
  have hk : (v - cumulative lens l) / 2 ^ (16 - (l + 1)) < lens.count (l + 1) := (Nat.div_lt_iff_lt_mul hw).2 (by omega)
  obtain ⟨s, _, hl, hc⟩ := exists_count_take_eq hk
  refine ⟨s, (opens_iff hl).2 ?_⟩
  have hdiv := Nat.div_mul_le_self (v - cumulative lens l) (2 ^ (16 - (l + 1)))
  have hmod := Nat.lt_div_mul_add (a := v - cumulative lens l) hw
  rw [code16_eq hl, hc]
  omega

/-- In a complete list a code of length `l` is a number of `l` bits. -/
theorem codeValue_lt {nn : Nat} {lens : List Nat} (h : completeLengths nn lens) {s : Nat} (hs : lens.getD s 0 ≠ 0) :
    codeValue lens s < 2 ^ lens.getD s 0 := by
  obtain ⟨_, hle, hfull⟩ := h
  obtain ⟨l, hl⟩ := Nat.exists_eq_add_one_of_ne_zero hs
  have hl16 : l + 1 ≤ 16 := by
    rw [← hl]
    exact getD_le hle s
  have hw := Nat.two_pow_pos (16 - (l + 1))
  have hsplit : 65536 = 2 ^ (l + 1) * 2 ^ (16 - (l + 1)) := by
    rw [← Nat.pow_add, Nat.add_sub_cancel' hl16]
  have htop : cumulative lens (l + 1) ≤ 65536 := (cumulative_mono lens hl16).trans_eq hfull
  have hend := (code16_range hl).2.trans htop
  rw [codeValue, hl, Nat.div_lt_iff_lt_mul hw, ← hsplit]
  omega

/-- Settles O7: the widths add up to 65536, so the range of one length holds the value and one symbol of that length opens it
(`exists_opens`); the codes' ranges are disjoint (`CodeOpens.unique`). -/
theorem everyWordBeginsWithOneCode : Obligations.EveryWordBeginsWithOneCode := by
  unfold Obligations.EveryWordBeginsWithOneCode
  intro nn lens ⟨hlen, _, hfull⟩ v hv
  obtain ⟨sym, hsym⟩ := exists_opens (hfull ▸ hv : v < cumulative lens 16)
  exact ⟨sym, ⟨hlen ▸ lt_length_of_getD_ne_zero hsym.1, hsym⟩, fun other hne hopen => CodeOpens.unique ⟨hne, hopen⟩ hsym⟩

end Sys2Proof
end

section
/-! Decode of encode (R92, R99): an element's RAW bits decode back to it (`OperandRoundTrip`), and before them its code leads
the lookup to its symbol. -/

namespace Sys2Proof

open Laws Laws.OperandRoundTrip in
/-- The round trip of every element's RAW bits. -/
theorem operandRoundTrip (i : Instr) : Statement i := by
  cases i with
  | hdr comp orig => exact hdr comp orig
  | blksize n => exact blksize n
  | tcnt n => exact tcnt n
  | tdeg s => exact tdeg s
  | pcnt n => exact pcnt n
  | pdeg s => exact pdeg s
  | tskip r => exact tskip r
  | ccnt n => exact ccnt n
  | cdeg s => exact cdeg s
  | czs r => exact czs r
  | czl r => exact czl r
  | lit b => exact lit b
  | matchLen m => exact matchLen m
  | ptlen0 | ptlen1 | ptlen2 | ptlen3 | ptlen4 | ptlen5 | ptlen6 | ptlen7 | ptlen8 | ptlen9 | ptlen10 | ptlen11 | ptlen12
  | ptlen13 | ptlen14 | ptlen15 | ptlen16 | cz1 | cl1 | cl2 | cl3 | cl4 | cl5 | cl6 | cl7 | cl8 | cl9 | cl10 | cl11 | cl12
  | cl13 | cl14 | cl15 | cl16 | off0 | off1 => exact fun _ _ _ _ => rfl
  | off2 x | off3 x | off4 x | off5 x | off6 x | off7 x | off8 x | off9 x | off10 x | off11 x | off12 x | off13 x | off14 x
  | off15 x | off16 x | off17 x | off18 x | off19 x | off20 x | off21 x | off22 x | off23 x | off24 x | off25 x | off26 x
  | off27 x | off28 x | off29 x | off30 x => exact off_extra (fun _ => rfl) rfl (by simp [offInstr])

theorem decodeRaw_rawBits {pBit : Nat} {i : Instr} (hp : pBit = 4 ∨ pBit = 5) (hw : i.wellFormed pBit = true)
    (hs : (i.parts pBit).sym = none) (rest : List Bool) : decodeRaw pBit i.slot (i.rawBits pBit ++ rest) = .ok i := by
  have h := operandRoundTrip i pBit rest hp hw
  rwa [hs] at h

theorem decodeCoded_rawBits {pBit sym : Nat} {i : Instr} (hp : pBit = 4 ∨ pBit = 5) (hw : i.wellFormed pBit = true)
    (hs : (i.parts pBit).sym = some sym) (rest : List Bool) :
    decodeCoded i.slot sym (i.rawBits pBit ++ rest) = .ok i := by
  have h := operandRoundTrip i pBit rest hp hw
  rwa [hs] at h

/-! ### Elements with and without a code -/

/-- An element has a symbol exactly where the codes of an alphabet open its position, whatever `PBIT` is. -/
theorem raw_or_coded (i : Instr) :
    (i.slot.alphabet = none ∧ ∀ pBit, (i.parts pBit).sym = none) ∨
      ∃ a sym, i.slot.alphabet = some a ∧ ∀ pBit, (i.parts pBit).sym = some sym := by
  have hsym : ∀ pBit, (i.parts pBit).sym = (i.parts 4).sym := fun _ => by cases i <;> rfl
  have hsome : (i.parts 4).sym.isSome = i.slot.alphabet.isSome := by cases i <;> rfl
  cases ha : i.slot.alphabet with
  | none => exact .inl ⟨rfl, fun pBit => (hsym pBit).trans (by simpa [ha] using hsome)⟩
  | some a =>
    obtain ⟨sym, hs⟩ := Option.isSome_iff_exists.1 (hsome.trans (by rw [ha]; rfl))
    exact .inr ⟨a, sym, rfl, fun pBit => (hsym pBit).trans hs⟩

theorem encode_of_raw {i : Instr} (bk : Books) (pBit : Nat) (ha : i.slot.alphabet = none) :
    encode bk pBit i = i.rawBits pBit := by
  simp [encode, Instr.codeBits, ha]

theorem encode_of_coded {i : Instr} {a : Alphabet} {sym : Nat} (bk : Books) (pBit : Nat) (ha : i.slot.alphabet = some a)
    (hs : (i.parts 4).sym = some sym) : encode bk pBit i = (bk.get a).codeBits sym ++ i.rawBits pBit := by
  simp [encode, Instr.codeBits, ha, hs]

section
variable {bk : Books} {pBit : Nat} {sl : Slot} {b rest : List Bool} {i : Instr}

theorem decode_eq_ok_iff_of_raw (ha : sl.alphabet = none) :
    decode bk pBit sl b = .ok (i, rest) ↔ decodeRaw pBit sl b = .ok i ∧ b.drop (i.rawBits pBit).length = rest := by
  cases hd : decodeRaw pBit sl b with
  | error e => simp [decode, ha, hd]
  | ok j =>
    simp only [decode, ha, hd, Except.ok.injEq, Prod.mk.injEq]
    exact and_congr_right fun h => by rw [h]

theorem decode_eq_ok_iff_of_coded {a : Alphabet} (ha : sl.alphabet = some a) :
    decode bk pBit sl b = .ok (i, rest) ↔ ∃ sym l, (bk.get a).lookup b = some (sym, l) ∧
      decodeCoded sl sym (b.drop l) = .ok i ∧ b.drop (l + (i.rawBits pBit).length) = rest := by
  cases hl : (bk.get a).lookup b with
  | none => simp [decode, ha, hl]
  | some r =>
    obtain ⟨sym, l⟩ := r
    cases hd : decodeCoded sl sym (b.drop l) with
    | error e => simp [decode, ha, hl, hd]
    | ok j =>
      simp only [decode, ha, hl, hd, Except.ok.injEq, Prod.mk.injEq, Option.some.injEq, existsAndEq,
        true_and]
      exact and_congr_right fun h => by rw [h]

end

/-! ### The lookup in a canonical book -/

/-- A field of at most 16 bits is the top of the 16-bit field. -/
theorem field_eq_div {l : Nat} (hl : l ≤ 16) (b : List Bool) : field l b = field 16 b / 2 ^ (16 - l) := by
  have hadd := field_add l (16 - l) b
  rw [Nat.add_sub_cancel' hl] at hadd
  rw [hadd, Nat.mul_add_div (Nat.two_pow_pos _), Nat.div_eq_of_lt (field_lt _ _), Nat.add_zero]

/-- A code opens a bit list when it opens the list's first 16 bits. -/
theorem opens_field_iff {lens : List Nat} (hle : ∀ l ∈ lens, l ≤ 16) {s : Nat} {b : List Bool} :
    CodeOpens lens s (field 16 b) ↔ lens.getD s 0 ≠ 0 ∧ field (lens.getD s 0) b = codeValue lens s := by
  rw [CodeOpens, field_eq_div (getD_le hle s)]

/-- A search finds the one member that satisfies the predicate. -/
theorem find?_eq_some_of_unique {α : Type} {p : α → Bool} {l : List α} {s : α} (hmem : s ∈ l) (hs : p s = true)
    (huniq : ∀ x, p x = true → x = s) : l.find? p = some s := by
  obtain ⟨x, hx⟩ := Option.isSome_iff_exists.1 (List.find?_isSome.2 ⟨s, hmem, hs⟩)
  rw [hx, huniq x (List.find?_some hx)]

/-- The lookup finds the one symbol whose code opens the list (R160). -/
theorem lookup_canonical_iff {lens : List Nat} (hle : ∀ l ∈ lens, l ≤ 16) {s l : Nat} {b : List Bool} :
    (Book.canonical lens).lookup b = some (s, l) ↔ CodeOpens lens s (field 16 b) ∧ lens.getD s 0 = l := by
  have hopens : ∀ x, CodeOpens lens x (field 16 b) ↔
      (lens.getD x 0 != 0 && field (lens.getD x 0) b == codeValue lens x) = true := by
    intro x
    rw [opens_field_iff hle]
    simp
  simp only [Book.lookup, Option.map_eq_some_iff, Prod.mk.injEq]
  constructor
  · rintro ⟨x, hx, rfl, rfl⟩
    have hfound := List.find?_some hx
    exact ⟨(hopens x).2 hfound, rfl⟩
  · rintro ⟨hs, rfl⟩
    exact ⟨s, find?_eq_some_of_unique (List.mem_range.2 (lt_length_of_getD_ne_zero hs.1)) ((hopens s).1 hs)
      fun x hx => ((hopens x).2 hx).unique hs, rfl, rfl⟩

/-- The code of a symbol leads the lookup to it, whatever follows. -/
theorem lookup_codeBits_append {bk : Book} {a : Alphabet} {s : Nat} (hfit : bk.fits a) (hs : bk.has s)
    (rest : List Bool) : bk.lookup (bk.codeBits s ++ rest) = some (s, (bk.codeBits s).length) := by
  cases bk with
  | degenerate c =>
    cases hs
    rfl
  | canonical lens =>
    have hlt : codeValue lens s < 2 ^ lens.getD s 0 := codeValue_lt hfit hs
    rw [lookup_canonical_iff hfit.2.1, opens_field_iff hfit.2.1, Book.codeBits, field_toBits_append, length_toBits]
    exact ⟨⟨hs, Nat.mod_eq_of_lt hlt⟩, rfl⟩

/-- Settles O4: the lookup takes the code off (`lookup_codeBits_append`), and the RAW bits decode back (`operandRoundTrip`). -/
theorem encodedElementDecodesToItself : Obligations.EncodedElementDecodesToItself := by
  unfold Obligations.EncodedElementDecodesToItself
  intro bk pBit i rest hfit hp hw hcoded
  obtain ⟨ha, hs⟩ | ⟨a, sym, ha, hs⟩ := raw_or_coded i
  · rw [encode_of_raw bk pBit ha, decode_eq_ok_iff_of_raw ha]
    exact ⟨decodeRaw_rawBits hp hw (hs pBit) rest, List.drop_left⟩
  · rw [encode_of_coded bk pBit ha (hs 4), decode_eq_ok_iff_of_coded ha, List.append_assoc]
    refine ⟨sym, _, lookup_codeBits_append (hfit a) (hcoded a sym ha (hs 4)) _, ?_, ?_⟩
    · rw [List.drop_left]
      exact decodeCoded_rawBits hp hw (hs pBit) rest
    · rw [← List.drop_drop, List.drop_left, List.drop_left]

end Sys2Proof
end

section
/-! Encode of decode (R92, R94): the bits of a decoded element are the bits it was decoded from. -/

namespace Sys2Proof

/-! ### Bits read and written again -/

/-- The bits above a field do not show in it. -/
theorem toBits_mod_two_pow {n m : Nat} (h : n ≤ m) (v : Nat) : toBits n (v % 2 ^ m) = toBits n v := by
  induction n with
  | zero => rfl
  | succ n ih =>
    have hbit : n < m := h
    simp [toBits, ih (Nat.le_of_succ_le h), Nat.testBit_mod_two_pow, hbit]

/-- The bits of a field that was read are the bits it was read from. -/
theorem toBits_field {n : Nat} {b : List Bool} (h : n ≤ b.length) : toBits n (field n b) = b.take n := by
  induction n generalizing b with
  | zero => rfl
  | succ n ih =>
    cases b with
    | nil => simp at h
    | cons x b =>
      have hlt := field_lt n b
      have hhead : (field (n + 1) (x :: b)).testBit n = x := by
        cases x <;> simp [field_cons, Nat.testBit_two_pow_add_eq, Nat.testBit_lt_two_pow hlt]
      have htail : field (n + 1) (x :: b) % 2 ^ n = field n b := by
        cases x <;> simp [field_cons, Nat.mod_eq_of_lt hlt]
      rw [toBits, hhead, ← toBits_mod_two_pow (Nat.le_refl n), htail, ih (by simpa using h), List.take_succ_cons]

/-- A list opens with `xs`, then with `ys`. -/
theorem append_prefix_of_prefix_drop {α : Type} {xs ys b : List α} (hx : xs <+: b) (hy : ys <+: b.drop xs.length) :
    xs ++ ys <+: b := by
  obtain ⟨t, rfl⟩ := hx
  rw [List.drop_left] at hy
  exact (List.prefix_append_right_inj xs).2 hy

theorem toBits_field_prefix {n : Nat} {b : List Bool} (h : n ≤ b.length) : toBits n (field n b) <+: b := by
  rw [toBits_field h]
  exact List.take_prefix n b

theorem toBits_field_append_prefix {n : Nat} {b ys : List Bool} (h : n ≤ b.length) (hy : ys <+: b.drop n) :
    toBits n (field n b) ++ ys <+: b :=
  append_prefix_of_prefix_drop (toBits_field_prefix h) (by rwa [length_toBits])

/-- A run of ones and the zero after it, as a field (R95). -/
theorem field_ones (b : List Bool) : field (ones b + 1) b = 2 ^ (ones b + 1) - 2 := by
  induction b with
  | nil => rfl
  | cons x b ih =>
    cases x with
    | false => simp [ones, field_cons]
    | true =>
      have hpos := Nat.two_pow_pos (ones b)
      rw [ones, field_cons, ih, if_pos rfl]
      omega

/-! ### Operands read back -/

theorem toNat_ofNat_field (n : Nat) (b : List Bool) : (BitVec.ofNat n (field n b)).toNat = field n b := by
  rw [BitVec.toNat_ofNat, Nat.mod_eq_of_lt (field_lt n b)]

/-- A P field is an operand of 5 bits at both values of `PBIT` (R34). -/
theorem toNat_ofNat_pfield {pBit : Nat} (hp : pBit ≤ 5) (b : List Bool) :
    (BitVec.ofNat 5 (field pBit b)).toNat = field pBit b := by
  rw [BitVec.toNat_ofNat, Nat.mod_eq_of_lt ((field_lt pBit b).trans_le (Nat.pow_le_pow_right (by decide) hp))]

/-- The bytes of a header word are the four bytes it was read from (R93). -/
theorem wordByte_leWord (b : List Bool) :
    wordByte (leWord b) 0 = field 8 b ∧ wordByte (leWord b) 1 = field 8 (b.drop 8) ∧
      wordByte (leWord b) 2 = field 8 (b.drop 16) ∧ wordByte (leWord b) 3 = field 8 (b.drop 24) := by
  have h0 := field_lt 8 b
  have h1 := field_lt 8 (b.drop 8)
  have h2 := field_lt 8 (b.drop 16)
  have h3 := field_lt 8 (b.drop 24)
  simp only [wordByte, leWord, BitVec.toNat_ofNat]
  omega

theorem rawBits_of_ptlenInstr {l : Nat} {i : Instr} (h : ptlenInstr l = some i) (pBit : Nat) :
    i.rawBits pBit = (ptlenFields l).flatMap fun f => toBits f.1 f.2 := by
  unfold ptlenInstr at h
  split at h <;> cases h <;> rfl

theorem parts_of_clInstr {l : Nat} {i : Instr} (h : clInstr l = some i) (pBit : Nat) :
    i.parts pBit = ⟨.citem, some (l + 2), []⟩ := by
  unfold clInstr at h
  split at h <;> cases h <;> rfl

theorem sym_of_offInstr {c x : Nat} {i : Instr} (h : offInstr c x = some i) (pBit : Nat) :
    (i.parts pBit).sym = some c := by
  unfold offInstr at h
  split at h <;> cases h <;> rfl

theorem offInstr_le {c x : Nat} {i : Instr} (h : offInstr c x = some i) : c ≤ 30 := by
  unfold offInstr at h
  split at h <;> cases h <;> decide

/-- `OFF.c` has `c - 1` RAW bits, none for the classes 0 and 1 (R195, R196). -/
theorem rawBits_of_offInstr {c x : Nat} {i : Instr} (h : offInstr c x = some i) (pBit : Nat) :
    i.rawBits pBit = toBits (c - 1) x := by
  rw [← toBits_mod_two_pow (Nat.le_refl _)]
  unfold offInstr at h
  split at h <;> cases h <;> simp [Instr.rawBits, Instr.parts]

/-! ### RAW bits -/

open Laws.OperandRoundTrip (rawBits_one rawBits_two)

/-- A length of 7 or more is seven, the ones after it and a zero, in one field (R95, R178). -/
theorem ptlenBits_prefix {b : List Bool} (hb : 16 ≤ b.length) (hl : lengthField b ≤ 16) :
    ((ptlenFields (lengthField b)).flatMap fun f => toBits f.1 f.2) <+: b := by
  have h8 := field_lt 3 b
  unfold lengthField at hl ⊢
  split at hl
  · next h7 =>
    have hones := field_ones (b.drop 3)
    have hfield : field (3 + (ones (b.drop 3) + 1)) b = 2 ^ (3 + (ones (b.drop 3) + 1)) - 2 := by
      have hpos := Nat.two_pow_pos (ones (b.drop 3))
      have hpow : 2 ^ (3 + (ones (b.drop 3) + 1)) = 2 ^ 3 * 2 ^ (ones (b.drop 3) + 1) := Nat.pow_add 2 3 _
      rw [field_add, h7, hones, hpow]
      omega
    rw [if_pos h7, ptlenFields, if_neg (by omega), show 7 + ones (b.drop 3) - 3 = 3 + (ones (b.drop 3) + 1) by omega,
      ← hfield]
    simpa using toBits_field_prefix (b := b) (by omega)
  · next h7 =>
    rw [if_neg h7, ptlenFields, if_pos (by omega)]
    simpa using toBits_field_prefix (b := b) (n := 3) (by omega)

/-- The four bytes of a header word, and what follows them. -/
theorem wordBits_prefix {b ys : List Bool} (hb : 32 ≤ b.length) (hy : ys <+: b.drop 32) :
    toBits 8 (wordByte (leWord b) 0) ++ (toBits 8 (wordByte (leWord b) 1) ++ (toBits 8 (wordByte (leWord b) 2) ++
      (toBits 8 (wordByte (leWord b) 3) ++ ys))) <+: b := by
  obtain ⟨h0, h1, h2, h3⟩ := wordByte_leWord b
  rw [h0, h1, h2, h3]
  have hlen : ∀ k, k ≤ 24 → 8 ≤ (b.drop k).length := fun k hk => by
    rw [List.length_drop]
    omega
  refine toBits_field_append_prefix (hlen 0 (by decide)) (toBits_field_append_prefix (hlen 8 (by decide)) ?_)
  rw [List.drop_drop]
  refine toBits_field_append_prefix (hlen 16 (by decide)) ?_
  rw [List.drop_drop]
  refine toBits_field_append_prefix (hlen 24 (by decide)) ?_
  rwa [List.drop_drop]

/-- Two fields, the first of them zero: a degenerate description (R177, R184). -/
theorem degenerateBits_prefix {n : Nat} {b : List Bool} (hb : 2 * n ≤ b.length) (h0 : field n b = 0) :
    toBits n 0 ++ toBits n (field n (b.drop n)) <+: b := by
  have h := toBits_field_append_prefix (n := n) (b := b) (by omega)
    (toBits_field_prefix (n := n) (b := b.drop n) (by rw [List.length_drop]; omega))
  rwa [h0] at h

/-- The RAW bits of an element decoded at a position without a code open the list it was decoded from. -/
theorem rawBits_prefix_of_decodeRaw {pBit : Nat} {sl : Slot} {b : List Bool} {i : Instr} (hp : pBit ≤ 5)
    (hb : 64 ≤ b.length) (hd : decodeRaw pBit sl b = .ok i) : i.rawBits pBit <+: b := by
  cases sl with
  | hdr =>
    cases hd
    have horig : 32 ≤ (b.drop 32).length := by
      rw [List.length_drop]
      omega
    have hbits := wordBits_prefix (b := b) (by omega) (wordBits_prefix horig List.nil_prefix)
    simpa [Instr.rawBits, Instr.parts] using hbits
  | tcount | ccount =>
    simp only [decodeRaw] at hd
    split at hd <;> cases hd
    · next h0 =>
      rw [rawBits_two rfl, toNat_ofNat_field]
      exact degenerateBits_prefix (by omega) h0
    · rw [rawBits_one rfl, toNat_ofNat_field]
      exact toBits_field_prefix (by omega)
  | pcount =>
    simp only [decodeRaw] at hd
    split at hd <;> cases hd
    · next h0 =>
      rw [rawBits_two rfl, toNat_ofNat_pfield hp]
      exact degenerateBits_prefix (by omega) h0
    · rw [rawBits_one rfl, toNat_ofNat_pfield hp]
      exact toBits_field_prefix (by omega)
  | ptlen =>
    simp only [decodeRaw] at hd
    split at hd <;> cases hd
    next hi =>
      rw [rawBits_of_ptlenInstr hi]
      exact ptlenBits_prefix (by omega) (Machine.ptlenInstr_le hi)
  | blksize | tskip =>
    cases hd
    rw [rawBits_one rfl, toNat_ofNat_field]
    exact toBits_field_prefix (by omega)
  | citem | csym | off => cases hd

/-- So do those of an element decoded after a code, and its symbol is the code's. -/
theorem rawBits_prefix_of_decodeCoded {pBit : Nat} {sl : Slot} {sym : Nat} {b : List Bool} {i : Instr}
    (hb : 32 ≤ b.length) (hd : decodeCoded sl sym b = .ok i) : (i.parts 4).sym = some sym ∧ i.rawBits pBit <+: b := by
  cases sl with
  | citem =>
    simp only [decodeCoded] at hd
    repeat' split at hd
    all_goals cases hd
    · next h0 => exact ⟨congrArg some h0.symm, List.nil_prefix⟩
    · next h1 =>
      rw [rawBits_one rfl, toNat_ofNat_field]
      exact ⟨congrArg some h1.symm, toBits_field_prefix (by omega)⟩
    · next h2 =>
      rw [rawBits_one rfl, toNat_ofNat_field]
      exact ⟨congrArg some h2.symm, toBits_field_prefix (by omega)⟩
    · next hc =>
      rw [Instr.rawBits, parts_of_clInstr hc, parts_of_clInstr hc]
      exact ⟨congrArg some (by omega), List.nil_prefix⟩
  | csym =>
    simp only [decodeCoded] at hd
    repeat' split at hd
    all_goals cases hd
    · next hlt => exact ⟨congrArg some (Nat.mod_eq_of_lt hlt), List.nil_prefix⟩
    · exact ⟨congrArg some (by omega), List.nil_prefix⟩
  | off =>
    simp only [decodeCoded] at hd
    split at hd <;> cases hd
    next ho =>
      have hc := offInstr_le ho
      rw [rawBits_of_offInstr ho]
      exact ⟨sym_of_offInstr ho 4, toBits_field_prefix (by omega)⟩
  | hdr | blksize | tcount | pcount | ccount | ptlen | tskip => cases hd

/-- The code that a lookup found is the bits it was found by. -/
theorem codeBits_of_lookup {bk : Book} {a : Alphabet} {b : List Bool} {s l : Nat} (hfit : bk.fits a)
    (hb : 16 ≤ b.length) (h : bk.lookup b = some (s, l)) :
    bk.codeBits s <+: b ∧ (bk.codeBits s).length = l ∧ l ≤ 16 := by
  cases bk with
  | degenerate c =>
    cases h
    exact ⟨List.nil_prefix, rfl, by decide⟩
  | canonical lens =>
    obtain ⟨hopens, rfl⟩ := (lookup_canonical_iff hfit.2.1).1 h
    have hl := getD_le hfit.2.1 s
    rw [Book.codeBits, length_toBits, ← ((opens_field_iff hfit.2.1).1 hopens).2]
    exact ⟨toBits_field_prefix (hl.trans hb), rfl, hl⟩

/-- Settles O5: the position and the operands' ranges are the decoder's (`ElementOf`); the code and the RAW bits each open
the list they were decoded from. -/
theorem decodedElementEncodesToItsBits : Obligations.DecodedElementEncodesToItsBits := by
  unfold Obligations.DecodedElementEncodesToItsBits
  intro bk pBit sl b rest i hfit hp hb hd
  have hp5 : pBit ≤ 5 := by omega
  cases ha : sl.alphabet with
  | none =>
    obtain ⟨hraw, rfl⟩ := (decode_eq_ok_iff_of_raw ha).1 hd
    have he := Machine.decodeRaw_elementOf hraw
    refine ⟨he.slot, he.wellFormed hp5, ?_⟩
    rw [encode_of_raw bk pBit (he.slot ▸ ha)]
    exact List.prefix_iff_eq_append.1 (rawBits_prefix_of_decodeRaw hp5 hb hraw)
  | some a =>
    obtain ⟨sym, l, hl, hcoded, rfl⟩ := (decode_eq_ok_iff_of_coded ha).1 hd
    have he := Machine.decodeCoded_elementOf (pBit := pBit) hcoded
    obtain ⟨hcode, hlen, hl16⟩ := codeBits_of_lookup (hfit a) (by omega) hl
    obtain ⟨hsym, hraw⟩ := rawBits_prefix_of_decodeCoded (pBit := pBit) (by rw [List.length_drop]; omega) hcoded
    refine ⟨he.slot, he.wellFormed hp5, ?_⟩
    rw [encode_of_coded bk pBit (he.slot ▸ ha) hsym, ← hlen, ← List.length_append]
    exact List.prefix_iff_eq_append.1 (append_prefix_of_prefix_drop hcode (hlen ▸ hraw))

end Sys2Proof
end

section
/-! The step runs what the fetch reads (R101, R159): the bits at the reader's position are the window's, and the fetch decodes
them as the decoder does. -/

namespace Sys2Proof.Machine

theorem runElement_of_fetch {s : State} {i : Instr} (h : s.fetch = .ok i) : runElement s = exec i s := by
  simp only [runElement, h]

/-- A decode with room, accesses in bounds and no table to build takes the next element. -/
theorem step_of_decode {s : State} (hrun : s.run = .decode) (hroom : s.passStart = true → s.hasRoom = true)
    (hb : s.inBounds = true) (hbuild : s.building = none) : step s = runElement s := by
  have hfull : ¬ (s.passStart && !s.hasRoom) = true := by simpa using hroom
  simp only [step, hrun, if_neg hfull, hb, hbuild]
  rfl

theorem step_of_header {s : State} {c : Command} (hrun : s.run = .header c) (hlen : 8 ≤ s.srcLen) :
    step s = runElement s := by
  simp only [step, hrun]
  exact if_neg (Nat.not_lt.2 hlen)

/-- Settles O33: past the tests before an element a step is `runElement`, which is `exec` of what the fetch reads. -/
theorem stepRunsTheFetchedElement : Obligations.StepRunsTheFetchedElement := by
  unfold Obligations.StepRunsTheFetchedElement
  exact ⟨fun s i hrun hroom hb hbuild hi => (step_of_decode hrun hroom hb hbuild).trans (runElement_of_fetch hi),
    fun s c i hrun hlen hi => (step_of_header hrun hlen).trans (runElement_of_fetch hi)⟩

/-! ### The window as bits -/

theorem getElem?_toBits {n k : Nat} (v : Nat) (hk : k < n) : (toBits n v)[k]? = some (v.testBit (n - 1 - k)) := by
  induction n generalizing k with
  | zero => omega
  | succ n ih =>
    cases k with
    | zero => rfl
    | succ k => rw [toBits, List.getElem?_cons_succ, ih (by omega), show n + 1 - 1 - (k + 1) = n - 1 - k by omega]

/-- The window opens with the bits the stream opens with at the reader's position. -/
theorem prefix_windowBits {s : State} {p : Nat} {b : List Bool} (hr : ReaderAt s p) (hb : s.streamOpens p b)
    (hlen : b.length ≤ 32) : b <+: windowBits s.bitBuf := by
  rw [List.prefix_iff_getElem?]
  intro k hk
  have hbit : s.bitBuf.getLsbD (31 - k) = b[k] := by
    rw [hr.window k (by omega), hb k hk, List.getD_eq_getElem _ _ hk]
  rw [windowBits, getElem?_toBits _ (by omega), ← hbit]
  rfl

/-- An element's RAW bits fit the window, but for the header's. -/
theorem length_rawBits_le {pBit : Nat} {i : Instr} (hp : pBit ≤ 5) (hi : i.slot ≠ .hdr) :
    (i.rawBits pBit).length ≤ 32 := by
  have hsum : (i.rawBits pBit).length = ((i.parts pBit).fields.map Prod.fst).sum := by
    simp [Instr.rawBits, List.length_flatMap]
  rw [hsum]
  cases i with
  | hdr => exact absurd rfl hi
  | pcnt | pdeg => simp [Instr.parts]; omega
  | _ => simp [Instr.parts, ptlenFields]

/-! ### The fetch -/

section
variable {s : State} {sl : Slot} (hsl : s.slot = some sl)
include hsl

theorem fetch_of_raw (ha : sl.alphabet = none) : s.fetch = decodeRaw s.pWidth sl (s.rawAt sl) := by
  simp only [State.fetch, hsl, ha]

theorem fetch_of_coded {a : Alphabet} {sym : Nat} (ha : sl.alphabet = some a) (hsym : s.lookupSym a = some sym) :
    s.fetch = decodeCoded sl sym (windowBits (s.fillBits (s.codeLength a sym)).bitBuf) := by
  simp only [State.fetch, hsl, ha, hsym]

end

/-- Settles O34: the fetch decodes the window, which opens with the element's RAW bits (`prefix_windowBits`), after the code
where the element has one, and those bits decode back to the element (`operandRoundTrip`). -/
theorem stepRunsTheElementAtTheCursor : Obligations.StepRunsTheElementAtTheCursor := by
  unfold Obligations.StepRunsTheElementAtTheCursor
  intro s p i hrun hroom hbuild ⟨hslot, hw, hb⟩ hp hfit hr hopens
  have hhdr : i.slot ≠ .hdr := slot_ne_hdr hrun hslot
  have hpw : s.pWidth = 4 ∨ s.pWidth = 5 := hp.imp (congrArg BitVec.toNat) (congrArg BitVec.toNat)
  have hlen : (i.rawBits s.pWidth).length ≤ 32 := length_rawBits_le (by omega) hhdr
  rw [step_of_decode hrun hroom hb hbuild]
  refine runElement_of_fetch ?_
  obtain ⟨ha, hs⟩ | ⟨a, sym, ha, hs⟩ := raw_or_coded i
  · rw [ha] at hopens
    obtain ⟨rest, hrest⟩ := prefix_windowBits hr hopens hlen
    rw [fetch_of_raw hslot ha, State.rawAt, if_neg hhdr, ← hrest]
    exact decodeRaw_rawBits hpw hw (hs _) rest
  · rw [ha, hs] at hopens
    obtain ⟨hsym, hstream⟩ := hopens
    have hwidth : s.codeLength a sym ≤ 32 := (codeLength_le hfit a sym).trans (by decide)
    have hstream' : (s.fillBits (s.codeLength a sym)).streamOpens (p + s.codeLength a sym) (i.rawBits s.pWidth) :=
      fun k hk => (streamBit_congr (fillBits_compSize s _) (fillBits_src s _) _).trans (hstream k hk)
    obtain ⟨rest, hrest⟩ := prefix_windowBits (fillBits_readerAt hwidth hr) hstream' hlen
    rw [fetch_of_coded hslot ha hsym, ← hrest]
    exact decodeCoded_rawBits hpw hw (hs _) rest

end Sys2Proof.Machine
end

section
/-! The sample words of R92 decode by evaluation; the C book's search runs over its 263 symbols, so it is evaluated by itself. -/

namespace Sys2Proof

/-- The C code lengths of program P2, up to its last used symbol. -/
def cLengthsP2 : List Nat := List.replicate 65 0 ++ [2, 2, 2] ++ List.replicate 194 0 ++ [2]

/-- The code `11` is that of the fourth and last symbol of length 2. -/
theorem lookup_cLengthsP2 : (Book.canonical cLengthsP2).lookup [true, true] = some (262, 2) := by decide +kernel

/-- Settles O6: every word is a closed term, and the decoder evaluates it; for the C symbol, once its code is looked up. -/
theorem sampleWordsDecode : Obligations.SampleWordsDecode := by
  unfold Obligations.SampleWordsDecode
  refine ⟨rfl, rfl, rfl, rfl, rfl, rfl, rfl, ?_, rfl⟩
  exact (decode_eq_ok_iff_of_coded (a := .C) rfl).2 ⟨262, 2, lookup_cLengthsP2, rfl, rfl⟩

end Sys2Proof
end

section
/-! `getBits` in a row (R136, R137): the top of the window is the stream's next slice, and a row of calls leaves the state
that consuming its widths leaves. -/

namespace Sys2Proof.Machine

/-- Settles O2: each pass of the refill loop keeps `Refilling`, so that `fillBits_readerAt` holds. -/
theorem fillBitsMovesTheReader : Obligations.FillBitsMovesTheReader := by
  unfold Obligations.FillBitsMovesTheReader
  exact fun _ _ _ => fillBits_readerAt

/-! ### What `peekBits` sees -/

@[simp] theorem peekBits_zero (s : State) : s.peekBits 0 = 0 := by
  rw [State.peekBits, BitVec.toNat_ushiftRight]
  exact Nat.shiftRight_eq_zero _ _ s.bitBuf.isLt

/-- One more bit peeked is the next bit of the window. -/
theorem peekBits_succ (s : State) {n : Nat} (hn : n < 32) :
    s.peekBits (n + 1) = 2 * s.peekBits n + (s.bitBuf.getLsbD (31 - n)).toNat := by
  rw [State.peekBits, State.peekBits, show 32 - (n + 1) = 31 - n by omega, show 32 - n = 31 - n + 1 by omega,
    BitVec.toNat_ushiftRight, BitVec.toNat_ushiftRight, Nat.shiftRight_succ, BitVec.getLsbD, Nat.toNat_testBit,
    ← Nat.shiftRight_eq_div_pow]
  exact (Nat.div_add_mod _ 2).symm

/-- `peekBits(n)` is the slice of the stream at the reader's position (R135). -/
theorem peekBits_eq_streamValue {s : State} {p n : Nat} (hn : n ≤ 32) (h : ReaderAt s p) :
    s.peekBits n = s.streamValue p n := by
  induction n with
  | zero => exact peekBits_zero s
  | succ n ih => rw [peekBits_succ s hn, State.streamValue, ih (Nat.le_of_succ_le hn), h.window n hn]

/-! ### The slices depend on the payload alone -/

theorem streamValue_congr {s t : State} (hc : t.compSize = s.compSize) (hs : t.src = s.src) (p n : Nat) :
    t.streamValue p n = s.streamValue p n := by
  induction n with
  | zero => rfl
  | succ n ih => rw [State.streamValue, State.streamValue, ih, streamBit_congr hc hs]

theorem slices_congr {s t : State} (hc : t.compSize = s.compSize) (hs : t.src = s.src) (p : Nat) (ns : List Nat) :
    t.slices p ns = s.slices p ns := by
  induction ns generalizing p with
  | nil => rfl
  | cons n ns ih => rw [State.slices, State.slices, streamValue_congr hc hs, ih]

/-! ### A row of calls -/

/-- The calls leave the state that consuming their widths leaves. -/
theorem getAll_state (s : State) (ns : List Nat) : (s.getAll ns).2 = s.consume ns := by
  induction ns generalizing s with
  | nil => rfl
  | cons n ns ih => exact ih (s.fillBits n)

/-- The calls return consecutive slices: `fillBits` puts the reader where the next slice begins. -/
theorem getAll_values {s : State} {p : Nat} {ns : List Nat} (hw : ∀ n ∈ ns, n ≤ 32) (h : ReaderAt s p) :
    (s.getAll ns).1 = s.slices p ns := by
  induction ns generalizing s p with
  | nil => rfl
  | cons n ns ih =>
    obtain ⟨hhead, htail⟩ := List.forall_mem_cons.1 hw
    have hrest : ((s.fillBits n).getAll ns).1 = s.slices (p + n) ns :=
      (ih htail (fillBits_readerAt hhead h)).trans (slices_congr (fillBits_compSize s n) (fillBits_src s n) _ _)
    exact congrArg₂ List.cons (peekBits_eq_streamValue hhead h) hrest

/-- Settles O3: the values by `getAll_values`; the state is that of consuming the widths, which moves the reader
(`consume_readerAt`) and nothing else (`consume_frame`). -/
theorem getBitsReturnsStreamSlices : Obligations.GetBitsReturnsStreamSlices := by
  unfold Obligations.GetBitsReturnsStreamSlices
  intro s p ns hw h
  rw [getAll_state]
  exact ⟨getAll_values hw h, consume_readerAt hw h, consume_frame s ns⟩

end Sys2Proof.Machine
end

section
/-! The builder's checks (R152, R153): a build answers exactly on a complete length list. -/

namespace Sys2Proof.Machine

/-- The builder before the first symbol (R151, steps (1) to (3)). -/
def Builder.initial {n : Nat} (lens : List Nat) (tb : Nat) (table : Tab n) (left right : Tab Config.NODECAP) : Builder n :=
  { table := clearHigh lens tb table, left := left, right := right, next := startCodes lens, avail := lens.length }

theorem makeTable_eq_some_iff {n : Nat} {lens : List Nat} {tb : Nat} {table : Tab n} {left right : Tab Config.NODECAP}
    {b : Builder n} : makeTable lens tb table left right = some b ↔
      completeLengths lens.length lens ∧ Builder.plantAll tb lens 0 (Builder.initial lens tb table left right) = b := by
  unfold makeTable
  split
  · next hlong =>
    obtain ⟨l, hl, hl16⟩ := List.any_eq_true.1 hlong
    refine iff_of_false (by simp) fun ⟨⟨_, hle, _⟩, _⟩ => ?_
    have := hle l hl
    simp at hl16
    omega
  next hshort =>
    have hle : ∀ l ∈ lens, l ≤ 16 := by simpa using hshort
    split
    · next hsum => exact iff_of_false (by simp) fun ⟨⟨_, _, hfull⟩, _⟩ => hsum hfull
    · next hsum =>
      have hc : completeLengths lens.length lens := ⟨rfl, hle, not_not.1 hsum⟩
      simp only [Option.some_inj, hc, true_and]
      rfl

/-- Settles O8: the two checks are `completeLengths` (`makeTable_eq_some_iff`). -/
theorem buildAcceptsExactlyCompleteLengths : Obligations.BuildAcceptsExactlyCompleteLengths := by
  unfold Obligations.BuildAcceptsExactlyCompleteLengths
  intro n lens tb table left right
  simp only [makeTable_eq_some_iff, exists_and_left, exists_eq', and_true]

end Sys2Proof.Machine
end

section
/-! Stems, the first bits of a code (R99, R156): the tree has a node for each inner stem, one that is shorter than the codes it
opens and no shorter than the direct table's width. The inner stems of one length are those above the cumulative widths, so
they can be counted. -/

namespace Sys2Proof

/-- The first `tb + j` bits of the 16-bit value `v`, as a stem at level `j` of the tree under a table of width `tb`. -/
def stemOf (tb j v : Nat) : Nat × Nat := (j, v / 2 ^ (16 - (tb + j)))

/-- An inner stem: the cumulative widths of the codes no longer than it end at or below it. -/
def Inner (lens : List Nat) (tb : Nat) (q : Nat × Nat) : Prop :=
  tb + q.1 < 16 ∧ cumulative lens (tb + q.1) / 2 ^ (16 - (tb + q.1)) ≤ q.2 ∧ q.2 < 2 ^ (tb + q.1)

/-- The stem where the tree ends for a value that the code of `t` opens: the code itself, or a table entry under it. -/
def LeafAt (lens : List Nat) (tb t : Nat) (q : Nat × Nat) : Prop :=
  ∃ v, CodeOpens lens t v ∧ q = stemOf tb (lens.getD t 0 - tb) v

/-! ### Codes that open a value -/

/-- The cumulative widths at or below an opened value are those of the shorter codes. -/
theorem cumulative_le_iff_of_opens {lens : List Nat} {t v d : Nat} (h : CodeOpens lens t v) :
    cumulative lens d ≤ v ↔ d < lens.getD t 0 := by
  obtain ⟨l, hl⟩ := Nat.exists_eq_add_one_of_ne_zero h.1
  have hrange := code16_range hl
  rw [opens_iff hl] at h
  rw [hl]
  constructor
  · intro hd
    by_contra hlt
    have := cumulative_mono lens (show l + 1 ≤ d by omega)
    omega
  · intro hd
    have := cumulative_mono lens (show d ≤ l by omega)
    omega

theorem cumulative_le_full {nn : Nat} {lens : List Nat} (h : completeLengths nn lens) {d : Nat} (hd : d ≤ 16) :
    cumulative lens d ≤ 65536 :=
  (cumulative_mono lens hd).trans_eq h.2.2

theorem lt_full_of_opens {nn : Nat} {lens : List Nat} (h : completeLengths nn lens) {t v : Nat}
    (ho : CodeOpens lens t v) : v < 65536 := by
  have hle : lens.getD t 0 ≤ 16 := getD_le h.2.1 t
  have hend := (cumulative_le_iff_of_opens (d := lens.getD t 0) ho).not.2 (Nat.lt_irrefl _)
  have := cumulative_le_full h hle
  omega

/-- A code opens its own `code16`. -/
theorem opens_code16 {lens : List Nat} {t : Nat} (h : lens.getD t 0 ≠ 0) : CodeOpens lens t (code16 lens t) := by
  obtain ⟨l, hl⟩ := Nat.exists_eq_add_one_of_ne_zero h
  exact (opens_iff hl).2 ⟨Nat.le_refl _, Nat.lt_add_of_pos_right (Nat.two_pow_pos _)⟩

/-- The values a code opens are 16-bit values. -/
theorem code16_add_le_full {nn : Nat} {lens : List Nat} (h : completeLengths nn lens) {t : Nat} (h0 : lens.getD t 0 ≠ 0) :
    code16 lens t + 2 ^ (16 - lens.getD t 0) ≤ 65536 := by
  have hle : lens.getD t 0 ≤ 16 := getD_le h.2.1 t
  obtain ⟨l, hl⟩ := Nat.exists_eq_add_one_of_ne_zero h0
  rw [hl] at hle ⊢
  exact (code16_range hl).2.trans (cumulative_le_full h hle)

/-- A shorter stem is a function of a longer one. -/
theorem div_two_pow_eq_of_le {v w d l : Nat} (hd : d ≤ l) (hl : l ≤ 16) (h : v / 2 ^ (16 - l) = w / 2 ^ (16 - l)) :
    v / 2 ^ (16 - d) = w / 2 ^ (16 - d) := by
  have hpow : 2 ^ (16 - d) = 2 ^ (16 - l) * 2 ^ (l - d) := by
    rw [← Nat.pow_add]
    congr 1
    omega
  rw [hpow, ← Nat.div_div_eq_div_mul, ← Nat.div_div_eq_div_mul, h]

theorem stemOf_succ_half {tb j : Nat} (v : Nat) (h : tb + j < 16) :
    (stemOf tb (j + 1) v).2 / 2 = (stemOf tb j v).2 := by
  rw [stemOf, stemOf, Nat.div_div_eq_div_mul, ← Nat.pow_succ]
  congr 2
  omega

/-- The last bit of a stem is the bit of the value at its level. -/
theorem stemOf_succ_odd {tb j : Nat} (v : Nat) (h : tb + j < 16) :
    (stemOf tb (j + 1) v).2 % 2 = (v.testBit (15 - tb - j)).toNat := by
  rw [stemOf, Nat.toNat_testBit, show 16 - (tb + (j + 1)) = 15 - tb - j by omega]

/-! ### Inner stems and leaves -/

theorem inner_stemOf_iff {lens : List Nat} {tb j v : Nat} (hv : v < 65536) (hj : tb + j < 16) :
    Inner lens tb (stemOf tb j v) ↔ cumulative lens (tb + j) ≤ v := by
  have hw := Nat.two_pow_pos (16 - (tb + j))
  have hfull : 65536 = 2 ^ (tb + j) * 2 ^ (16 - (tb + j)) := by
    rw [← Nat.pow_add, Nat.add_sub_cancel' hj.le]
  have hlt : v / 2 ^ (16 - (tb + j)) < 2 ^ (tb + j) := (Nat.div_lt_iff_lt_mul hw).2 (hfull ▸ hv)
  have hdvd := Nat.div_mul_cancel (two_pow_dvd_cumulative lens (tb + j))
  simp only [Inner, stemOf, hj, hlt, true_and, and_true]
  rw [Nat.le_div_iff_mul_le hw, hdvd]

theorem opens_of_stemOf_eq {lens : List Nat} {tb t v w : Nat} (htb : tb ≤ 16) (hle : ∀ l ∈ lens, l ≤ 16)
    (h : CodeOpens lens t v) (he : stemOf tb (lens.getD t 0 - tb) v = stemOf tb (lens.getD t 0 - tb) w) :
    CodeOpens lens t w := by
  have hl := getD_le hle t
  exact ⟨h.1, (div_two_pow_eq_of_le (by omega) (by omega) (Prod.ext_iff.1 he).2).symm.trans h.2⟩

theorem LeafAt.unique {lens : List Nat} {tb t u : Nat} {q : Nat × Nat} (htb : tb ≤ 16) (hle : ∀ l ∈ lens, l ≤ 16)
    (ht : LeafAt lens tb t q) (hu : LeafAt lens tb u q) : t = u := by
  obtain ⟨v, hv, rfl⟩ := ht
  obtain ⟨w, hw, he⟩ := hu
  have hlevel : lens.getD t 0 - tb = lens.getD u 0 - tb := (Prod.ext_iff.1 he).1
  rw [← hlevel] at he
  exact (opens_of_stemOf_eq htb hle hv he).unique hw

/-- Where the tree ends there is no node. -/
theorem LeafAt.not_inner {nn : Nat} {lens : List Nat} {tb t : Nat} {q : Nat × Nat} (hc : completeLengths nn lens)
    (h : LeafAt lens tb t q) : ¬ Inner lens tb q := by
  obtain ⟨v, hv, rfl⟩ := h
  intro hi
  have hlow := (inner_stemOf_iff (lt_full_of_opens hc hv) hi.1).1 hi
  have hlt : tb + (lens.getD t 0 - tb) < lens.getD t 0 := (cumulative_le_iff_of_opens hv).1 hlow
  omega

/-- Every stem above the leaf, down to the table's width, is an inner stem. -/
theorem inner_of_opens {nn : Nat} {lens : List Nat} {tb t v j : Nat} (hc : completeLengths nn lens)
    (h : CodeOpens lens t v) (hj : tb + j < lens.getD t 0) : Inner lens tb (stemOf tb j v) := by
  have hl := getD_le hc.2.1 t
  rw [inner_stemOf_iff (lt_full_of_opens hc h) (by omega), cumulative_le_iff_of_opens h]
  exact hj

/-- A long code has one leaf. -/
theorem leafAt_iff_of_long {lens : List Nat} {tb t c : Nat} {q : Nat × Nat} (hlong : tb < lens.getD t 0)
    (h : CodeOpens lens t c) : LeafAt lens tb t q ↔ q = stemOf tb (lens.getD t 0 - tb) c := by
  constructor
  · rintro ⟨v, hv, rfl⟩
    rw [stemOf, stemOf, Nat.add_sub_cancel' hlong.le, hv.2, h.2]
  · rintro rfl
    exact ⟨c, h, rfl⟩

/-- A short code's leaves are the table entries of its values (R155). -/
theorem leafAt_iff_of_short {lens : List Nat} {tb t : Nat} {q : Nat × Nat} (htb : tb ≤ 16) (h0 : lens.getD t 0 ≠ 0)
    (hshort : lens.getD t 0 ≤ tb) : LeafAt lens tb t q ↔
      q.1 = 0 ∧ code16 lens t / 2 ^ (16 - tb) ≤ q.2 ∧
        q.2 < (code16 lens t + 2 ^ (16 - lens.getD t 0)) / 2 ^ (16 - tb) := by
  obtain ⟨l, hl⟩ := Nat.exists_eq_add_one_of_ne_zero h0
  have hw := Nat.two_pow_pos (16 - tb)
  have hdvd : 2 ^ (16 - tb) ∣ 2 ^ (16 - lens.getD t 0) := Nat.pow_dvd_pow 2 (by omega)
  obtain ⟨a, ha⟩ : 2 ^ (16 - tb) ∣ code16 lens t := by
    rw [code16_eq hl, ← hl]
    exact Nat.dvd_add ((Nat.pow_dvd_pow 2 (by omega)).trans (two_pow_dvd_cumulative lens l)) (Dvd.dvd.mul_left hdvd _)
  obtain ⟨m, hm⟩ := hdvd
  have hopens : ∀ v, CodeOpens lens t v ↔ a ≤ v / 2 ^ (16 - tb) ∧ v / 2 ^ (16 - tb) < a + m := by
    intro v
    rw [opens_iff hl, ← hl, ha, hm, ← Nat.mul_add, Nat.le_div_iff_mul_le hw, Nat.div_lt_iff_lt_mul hw, Nat.mul_comm a,
      Nat.mul_comm (a + m)]
  rw [hm, ha, ← Nat.mul_add, Nat.mul_div_cancel_left _ hw, Nat.mul_div_cancel_left _ hw]
  simp only [LeafAt, stemOf, Nat.sub_eq_zero_of_le hshort, Nat.add_zero, hopens]
  obtain ⟨j, p⟩ := q
  constructor
  · rintro ⟨v, hv, he⟩
    cases he
    exact ⟨rfl, hv⟩
  · rintro ⟨rfl, hp⟩
    have hq : p * 2 ^ (16 - tb) / 2 ^ (16 - tb) = p := Nat.mul_div_cancel _ hw
    exact ⟨p * 2 ^ (16 - tb), by rwa [hq], by rw [hq]⟩

/-! ### The number of inner stems -/

/-- The inner stems of length `d`. -/
def innerCount (lens : List Nat) (d : Nat) : Nat := 2 ^ d - cumulative lens d / 2 ^ (16 - d)

/-- An inner stem with one bit more is an inner stem again or a code. -/
theorem two_mul_innerCount {nn : Nat} {lens : List Nat} (hc : completeLengths nn lens) {d : Nat} (hd : d < 16) :
    2 * innerCount lens d = innerCount lens (d + 1) + lens.count (d + 1) := by
  have hw := Nat.two_pow_pos (16 - (d + 1))
  have hpow : 2 ^ (16 - d) = 2 ^ (16 - (d + 1)) * 2 := by
    rw [← Nat.pow_succ]
    congr 1
    omega
  obtain ⟨m, hm⟩ := two_pow_dvd_cumulative lens d
  have hnext : cumulative lens (d + 1) = 2 ^ (16 - (d + 1)) * (2 * m + lens.count (d + 1)) := by
    rw [cumulative_succ, hm, hpow]
    ring
  have htop : 2 * m + lens.count (d + 1) ≤ 2 ^ (d + 1) := by
    have hle := cumulative_le_full hc (show d + 1 ≤ 16 by omega)
    have hsplit : 65536 = 2 ^ (16 - (d + 1)) * 2 ^ (d + 1) := by
      rw [← Nat.pow_add, Nat.sub_add_cancel hd]
    rw [hnext, hsplit] at hle
    exact Nat.le_of_mul_le_mul_left hle hw
  rw [innerCount, innerCount, hnext, hm, Nat.mul_div_cancel_left _ (Nat.two_pow_pos _), Nat.mul_div_cancel_left _ hw]
  rw [Nat.pow_succ] at htop ⊢
  omega

theorem countP_le_succ (lens : List Nat) (a b : Nat) (h : a ≤ b) :
    lens.countP (fun l => a < l ∧ l ≤ b + 1) = lens.countP (fun l => a < l ∧ l ≤ b) + lens.count (b + 1) := by
  induction lens with
  | nil => rfl
  | cons x xs ih =>
    simp only [List.countP_cons, List.count_cons, ih, decide_eq_true_eq, beq_iff_eq]
    split_ifs <;> omega

/-- The inner stems of lengths `tb` to `tb + k - 1`, and those of length `tb` once more, are the inner stems of length
`tb + k` and the codes between. -/
theorem sum_innerCount {nn : Nat} {lens : List Nat} (hc : completeLengths nn lens) (tb : Nat) {k : Nat}
    (hk : tb + k ≤ 16) :
    (∑ j ∈ Finset.range k, innerCount lens (tb + j)) + innerCount lens tb =
      innerCount lens (tb + k) + lens.countP fun l => tb < l ∧ l ≤ tb + k := by
  induction k with
  | zero =>
    have hnone : lens.countP (fun l => decide (tb < l ∧ l ≤ tb + 0)) = 0 := by
      rw [List.countP_eq_zero]
      simp
    rw [hnone]
    simp
  | succ k ih =>
    have hstep := two_mul_innerCount hc (show tb + k < 16 by omega)
    have hprev := ih (by omega)
    rw [Finset.sum_range_succ, ← Nat.add_assoc tb k 1, countP_le_succ _ _ _ (Nat.le_add_right _ _)]
    omega

/-- The inner stems, all told. -/
def innerStems (lens : List Nat) (tb : Nat) : Finset (Nat × Nat) :=
  (Finset.range (16 - tb)).biUnion fun j =>
    (Finset.Ico (cumulative lens (tb + j) / 2 ^ (16 - (tb + j))) (2 ^ (tb + j))).image fun p => (j, p)

theorem mem_innerStems {lens : List Nat} {tb : Nat} {q : Nat × Nat} : q ∈ innerStems lens tb ↔ Inner lens tb q := by
  obtain ⟨j, p⟩ := q
  simp only [innerStems, Inner, Finset.mem_biUnion, Finset.mem_range, Finset.mem_image, Finset.mem_Ico, Prod.mk.injEq]
  constructor
  · rintro ⟨_, hj, _, hp, rfl, rfl⟩
    exact ⟨by omega, hp⟩
  · rintro ⟨hj, hp⟩
    exact ⟨j, by omega, p, hp, rfl, rfl⟩

theorem card_innerStems_le (lens : List Nat) (tb : Nat) :
    (innerStems lens tb).card ≤ ∑ j ∈ Finset.range (16 - tb), innerCount lens (tb + j) := by
  refine Finset.card_biUnion_le.trans (Finset.sum_le_sum fun j _ => Finset.card_image_le.trans_eq ?_)
  exact Nat.card_Ico _ _

/-- Where there is an inner stem, the short codes do not use up the code space. -/
theorem Inner.cumulative_lt {lens : List Nat} {tb : Nat} {q : Nat × Nat} (h : Inner lens tb q) :
    cumulative lens tb < 65536 := by
  obtain ⟨hq16, hlow, hhigh⟩ := h
  have hlt := (Nat.div_lt_iff_lt_mul (Nat.two_pow_pos _)).1 (hlow.trans_lt hhigh)
  rw [← Nat.pow_add, Nat.add_sub_cancel' hq16.le] at hlt
  exact (cumulative_mono lens (Nat.le_add_right tb q.1)).trans_lt hlt

/-- There are fewer inner stems than symbols: at most as many as long codes, less one for each tree. -/
theorem length_lt_of_inner {nn : Nat} {lens : List Nat} {tb : Nat} (hc : completeLengths nn lens)
    {nodes : List (Nat × Nat)} (hnodup : nodes.Nodup) (hinner : ∀ q ∈ nodes, Inner lens tb q) (hne : nodes ≠ []) :
    nodes.length < lens.length := by
  obtain ⟨q, hq⟩ := List.exists_mem_of_ne_nil _ hne
  have htb : tb + (16 - tb) = 16 := by
    have := (hinner q hq).1
    omega
  have hroot : 0 < innerCount lens tb := by
    refine Nat.sub_pos_of_lt ((Nat.div_lt_iff_lt_mul (Nat.two_pow_pos _)).2 ?_)
    rw [← Nat.pow_add, htb]
    exact (hinner q hq).cumulative_lt
  have hcard : nodes.length ≤ ∑ j ∈ Finset.range (16 - tb), innerCount lens (tb + j) := by
    rw [← List.toFinset_card_of_nodup hnodup]
    refine (Finset.card_le_card (t := innerStems lens tb) ?_).trans (card_innerStems_le lens tb)
    exact fun q hq => mem_innerStems.2 (hinner q (List.mem_toFinset.1 hq))
  have hsum := sum_innerCount hc tb htb.le
  have hnone : innerCount lens 16 = 0 := by simp [innerCount, hc.2.2]
  have hlong := List.countP_le_length (p := fun l => decide (tb < l ∧ l ≤ 16)) (l := lens)
  rw [htb] at hsum
  omega

end Sys2Proof
end

section
/-! What a build writes (R151): one rule for a read after each write of the builder. -/

namespace Sys2Proof.Machine

/-- The location exists. -/
def Cell.fits (n : Nat) : Cell → Prop
  | .direct i => i < n
  | .left id => id < Config.NODECAP
  | .right id => id < Config.NODECAP

theorem Tab.read_write_ne {n i j : Nat} (t : Tab n) (v : Nat) (h : j ≠ i) : (t.write i v).read j = t.read j :=
  (Tab.read_write t i v j).trans (if_neg fun he => h he.1)

section
variable {n : Nat} (b : Builder n)

theorem Builder.read_write_same {c : Cell} (hc : c.fits n) (v : Nat) : (b.write c v).read c = v := by
  cases c <;> exact (Tab.read_write _ _ _ _).trans (if_pos ⟨rfl, hc⟩)

theorem Builder.read_write_ne {c c' : Cell} (hne : c' ≠ c) (v : Nat) : (b.write c v).read c' = b.read c' := by
  cases c with
  | direct i =>
    cases c' with
    | direct i' => exact Tab.read_write_ne _ v fun he => hne (congrArg _ he)
    | left | right => rfl
  | left i =>
    cases c' with
    | left i' => exact Tab.read_write_ne _ v fun he => hne (congrArg _ he)
    | direct | right => rfl
  | right i =>
    cases c' with
    | right i' => exact Tab.read_write_ne _ v fun he => hne (congrArg _ he)
    | direct | left => rfl

@[simp] theorem Builder.write_avail (c : Cell) (v : Nat) : (b.write c v).avail = b.avail := by
  cases c <;> rfl

@[simp] theorem Builder.write_next (c : Cell) (v : Nat) : (b.write c v).next = b.next := by
  cases c <;> rfl

@[simp] theorem Builder.allocate_avail (c : Cell) : (b.allocate c).avail = b.avail + 1 := rfl

@[simp] theorem Builder.allocate_next (c : Cell) : (b.allocate c).next = b.next := by
  cases c <;> rfl

theorem Builder.allocate_read (c c' : Cell) : (b.allocate c).read c' =
    (((b.write (.left b.avail) 0).write (.right b.avail) 0).write c b.avail).read c' := by
  cases c' <;> rfl

/-- The slot of a new node holds its id. -/
theorem Builder.read_allocate_same {c : Cell} (hc : c.fits n) : (b.allocate c).read c = b.avail := by
  rw [Builder.allocate_read, Builder.read_write_same _ hc]

/-- The children of a new node are Empty. -/
theorem Builder.read_allocate_child {c c' : Cell} (hc : c' ≠ c) (hchild : c' = .left b.avail ∨ c' = .right b.avail) :
    (b.allocate c).read c' = 0 := by
  have hzero (t : Tab Config.NODECAP) (i : Nat) : (t.write i 0).read i = 0 := by
    rw [Tab.read_write]
    split
    · rfl
    · next h => exact Tab.read_of_ge t (by simpa using h)
  rw [Builder.allocate_read, Builder.read_write_ne _ hc]
  obtain rfl | rfl := hchild
  · exact hzero _ _
  · exact hzero _ _

/-- A new node leaves every other location as it was. -/
theorem Builder.read_allocate_ne {c c' : Cell} (hc : c' ≠ c) (hleft : c' ≠ .left b.avail) (hright : c' ≠ .right b.avail) :
    (b.allocate c).read c' = b.read c' := by
  rw [Builder.allocate_read, Builder.read_write_ne _ hc, Builder.read_write_ne _ hright, Builder.read_write_ne _ hleft]

end

/-- The node in a slot, or a new one in an Empty slot (R156). -/
def Builder.ensure {n : Nat} (b : Builder n) (c : Cell) : Builder n := if b.read c = 0 then b.allocate c else b

theorem Builder.descend_succ {n : Nat} (tb c s levels j : Nat) (slot : Cell) (b : Builder n) :
    Builder.descend tb c s (levels + 1) j slot b = Builder.descend tb c s levels (j + 1)
      (if c.testBit (15 - tb - j) then .right ((b.ensure slot).read slot) else .left ((b.ensure slot).read slot))
      (b.ensure slot) := rfl

theorem Builder.ensure_next {n : Nat} (b : Builder n) (c : Cell) : (b.ensure c).next = b.next := by
  unfold Builder.ensure
  split
  · exact Builder.allocate_next b c
  · rfl

theorem Builder.descend_next {n tb c s : Nat} (levels j : Nat) (slot : Cell) (b : Builder n) :
    (Builder.descend tb c s levels j slot b).next = b.next := by
  induction levels generalizing j slot b with
  | zero => exact Builder.write_next b slot s
  | succ levels ih =>
    rw [Builder.descend_succ, ih, Builder.ensure_next]

end Sys2Proof.Machine
end

section
/-! The code trees grow (R151, R156, R157): where a stem is stored, and what the storage holds after each symbol. Every stem
that has a node is inner, so the node arrays suffice; every leaf of a planted symbol holds it; the walk ends at the leaf. -/

namespace Sys2Proof.Machine

/-! ### Where a stem is stored -/

/-- The id of the node of a stem: nodes are numbered from `nn` on, in the order in which they were made. -/
def nodeId (nn : Nat) (nodes : List (Nat × Nat)) (q : Nat × Nat) : Nat := nn + nodes.idxOf q

/-- The storage location of a stem: a direct-table entry, or a child of the node of the stem one bit shorter (R156). -/
def cellOf (nn : Nat) (nodes : List (Nat × Nat)) : Nat × Nat → Cell
  | (0, p) => .direct p
  | (j + 1, p) => if p % 2 = 1 then .right (nodeId nn nodes (j, p / 2)) else .left (nodeId nn nodes (j, p / 2))

/-- The location of a stem exists: a table entry does, a child does with its node. -/
def Reached (nodes : List (Nat × Nat)) : Nat × Nat → Prop
  | (0, _) => True
  | (j + 1, p) => (j, p / 2) ∈ nodes

section
variable {nn : Nat} {nodes : List (Nat × Nat)} {q r : Nat × Nat}

theorem nodeId_lt (h : q ∈ nodes) : nodeId nn nodes q < nn + nodes.length :=
  Nat.add_lt_add_left (List.idxOf_lt_length_of_mem h) nn

theorem nodeId_inj (h : q ∈ nodes) (he : nodeId nn nodes q = nodeId nn nodes r) : q = r :=
  (List.idxOf_inj h).1 (Nat.add_left_cancel he)

theorem nodeId_append (h : q ∈ nodes) (r : Nat × Nat) : nodeId nn (nodes ++ [r]) q = nodeId nn nodes q := by
  rw [nodeId, nodeId, List.idxOf_append_of_mem h]

theorem nodeId_append_new (h : q ∉ nodes) : nodeId nn (nodes ++ [q]) q = nn + nodes.length := by
  simp [nodeId, List.idxOf_append_of_notMem h]

theorem Reached.mono {nodes' : List (Nat × Nat)} (h : Reached nodes q) (hsub : nodes ⊆ nodes') : Reached nodes' q := by
  obtain ⟨_ | j, p⟩ := q
  · trivial
  · exact hsub h

theorem cellOf_append (h : Reached nodes q) (r : Nat × Nat) : cellOf nn (nodes ++ [r]) q = cellOf nn nodes q := by
  obtain ⟨_ | j, p⟩ := q
  · rfl
  · rw [cellOf, cellOf, nodeId_append h]

/-- A location that exists since the last node is a child of that node. -/
theorem cellOf_of_new (hq : q ∉ nodes) (hold : ¬ Reached nodes r) (hnew : Reached (nodes ++ [q]) r) :
    cellOf nn (nodes ++ [q]) r = .left (nn + nodes.length) ∨ cellOf nn (nodes ++ [q]) r = .right (nn + nodes.length) := by
  obtain ⟨_ | j, p⟩ := r
  · exact absurd trivial hold
  · obtain hmem | hmem := List.mem_append.1 hnew
    · exact absurd hmem hold
    · rw [cellOf, List.mem_singleton.1 hmem, nodeId_append_new hq]
      split
      · exact .inr rfl
      · exact .inl rfl

/-- Stems do not share a location. -/
theorem cellOf_inj (hq : Reached nodes q) (he : cellOf nn nodes q = cellOf nn nodes r) : q = r := by
  obtain ⟨_ | j, p⟩ := q <;> obtain ⟨_ | i, p'⟩ := r <;> simp only [cellOf] at he
  · cases he
    rfl
  · split at he <;> cases he
  · split at he <;> cases he
  · have hparent : nodeId nn nodes (j, p / 2) = nodeId nn nodes (i, p' / 2) ∧ p % 2 = p' % 2 := by
      split at he <;> split at he <;> simp only [Cell.left.injEq, Cell.right.injEq, reduceCtorEq] at he <;>
        exact ⟨he, by omega⟩
    obtain ⟨hid, hodd⟩ := hparent
    have := nodeId_inj hq hid
    simp only [Prod.mk.injEq] at this ⊢
    omega

/-- A 1 bit leads to the right child, a 0 bit to the left (R156). -/
theorem cellOf_stemOf_succ {tb j : Nat} (v : Nat) (h : tb + j < 16) : cellOf nn nodes (stemOf tb (j + 1) v) =
    if v.testBit (15 - tb - j) then .right (nodeId nn nodes (stemOf tb j v))
    else .left (nodeId nn nodes (stemOf tb j v)) := by
  have hhalf : ((j, (stemOf tb (j + 1) v).2 / 2) : Nat × Nat) = stemOf tb j v :=
    Prod.ext rfl (stemOf_succ_half v h)
  show (if (stemOf tb (j + 1) v).2 % 2 = 1 then Cell.right (nodeId nn nodes (j, (stemOf tb (j + 1) v).2 / 2))
    else .left (nodeId nn nodes (j, (stemOf tb (j + 1) v).2 / 2))) = _
  rw [hhalf, stemOf_succ_odd v h]
  cases v.testBit (15 - tb - j) <;> rfl

theorem reached_stemOf_succ {tb j : Nat} (v : Nat) (h : tb + j < 16) :
    Reached nodes (stemOf tb (j + 1) v) ↔ stemOf tb j v ∈ nodes := by
  have hhalf : ((j, (stemOf tb (j + 1) v).2 / 2) : Nat × Nat) = stemOf tb j v :=
    Prod.ext rfl (stemOf_succ_half v h)
  rw [← hhalf]
  rfl

end

/-! ### The invariant of the symbol loop -/

/-- What the storage holds once the symbols below `k` are planted. `nodes` lists the stems that have a node, in the order in
which the nodes were made. -/
structure Grown {n : Nat} (lens : List Nat) (tb : Nat) (b : Builder n) (nodes : List (Nat × Nat)) (k : Nat) : Prop where
  avail : b.avail = lens.length + nodes.length
  nodup : nodes.Nodup
  inner : ∀ q ∈ nodes, Inner lens tb q
  parent : ∀ q ∈ nodes, Reached nodes q
  node : ∀ q ∈ nodes, b.read (cellOf lens.length nodes q) = nodeId lens.length nodes q
  leaf : ∀ t q, t < k → LeafAt lens tb t q → Reached nodes q ∧ b.read (cellOf lens.length nodes q) = t
  empty : ∀ q, Inner lens tb q → Reached nodes q → q ∉ nodes → b.read (cellOf lens.length nodes q) = 0

section
variable {n : Nat} {lens : List Nat} {tb : Nat} {b : Builder n} {nodes : List (Nat × Nat)} {k : Nat}
  (hc : completeLengths lens.length lens) (hnn : lens.length ≤ 510) (htb : tb ≤ 16) (hn : n = 2 ^ tb)

include hc hnn in
/-- The node arrays have room for every node (R40). -/
theorem Grown.nodeId_lt_cap (h : Grown lens tb b nodes k) {q : Nat × Nat} (hq : q ∈ nodes) :
    nodeId lens.length nodes q < Config.NODECAP := by
  have hid := nodeId_lt (nn := lens.length) hq
  have hcount := length_lt_of_inner hc h.nodup h.inner (List.ne_nil_of_mem hq)
  show _ < 1019
  omega

include hc hnn in
theorem Grown.fits (h : Grown lens tb b nodes k) {q : Nat × Nat} (hr : Reached nodes q) (h0 : q.1 = 0 → q.2 < n) :
    (cellOf lens.length nodes q).fits n := by
  obtain ⟨_ | j, p⟩ := q
  · exact h0 rfl
  · have hid := h.nodeId_lt_cap hc hnn hr
    rw [cellOf]
    split <;> exact hid

/-- A stem's location is no child of the next node. -/
theorem Grown.cellOf_ne_new (h : Grown lens tb b nodes k) {q : Nat × Nat} (hr : Reached nodes q) :
    cellOf lens.length nodes q ≠ .left b.avail ∧ cellOf lens.length nodes q ≠ .right b.avail := by
  obtain ⟨_ | j, p⟩ := q
  · exact ⟨nofun, nofun⟩
  · have hid := nodeId_lt (nn := lens.length) hr
    have havail := h.avail
    rw [cellOf]
    constructor <;> split <;> simp only [ne_eq, Cell.left.injEq, Cell.right.injEq, reduceCtorEq, not_false_eq_true] <;>
      omega

include hc hnn hn in
/-- A node is made for an inner stem that has none (R156, R325). -/
theorem Grown.allocate (h : Grown lens tb b nodes k) {q : Nat × Nat} (hr : Reached nodes q) (hi : Inner lens tb q)
    (hq : q ∉ nodes) : Grown lens tb (b.allocate (cellOf lens.length nodes q)) (nodes ++ [q]) k := by
  have hsub : nodes ⊆ nodes ++ [q] := List.subset_append_left _ _
  have hkeep : ∀ r, Reached nodes r → r ≠ q → (b.allocate (cellOf lens.length nodes q)).read
      (cellOf lens.length (nodes ++ [q]) r) = b.read (cellOf lens.length nodes r) := by
    intro r hrr hne
    obtain ⟨hleft, hright⟩ := h.cellOf_ne_new hrr
    rw [cellOf_append hrr, Builder.read_allocate_ne _ (fun he => hne (cellOf_inj hrr he)) hleft hright]
  have hfits : (cellOf lens.length nodes q).fits n :=
    h.fits hc hnn hr fun h0 => by simpa [Inner, h0, hn] using hi.2.2
  constructor
  case avail =>
    simp [h.avail, Nat.add_assoc]
  case nodup =>
    exact h.nodup.append (List.nodup_singleton q) (List.disjoint_singleton.2 hq)
  case inner =>
    simpa [or_imp, forall_and, hi] using h.inner
  case parent =>
    intro r hmem
    obtain hmem | hmem := List.mem_append.1 hmem
    · exact (h.parent r hmem).mono hsub
    · exact List.mem_singleton.1 hmem ▸ hr.mono hsub
  case node =>
    intro r hmem
    by_cases hne : r = q
    · rw [hne, cellOf_append hr, Builder.read_allocate_same _ hfits, nodeId_append_new hq, h.avail]
    · have hmem : r ∈ nodes := by simpa [hne] using hmem
      rw [hkeep r (h.parent r hmem) hne, h.node r hmem, nodeId_append hmem]
  case leaf =>
    intro t r ht hl
    obtain ⟨hrr, hread⟩ := h.leaf t r ht hl
    refine ⟨hrr.mono hsub, (hkeep r hrr ?_).trans hread⟩
    rintro rfl
    exact hl.not_inner hc hi
  case empty =>
    intro r hir hrr hmem
    obtain ⟨hmem, hne⟩ : r ∉ nodes ∧ r ≠ q := by simpa using hmem
    by_cases hold : Reached nodes r
    · rw [hkeep r hold hne, h.empty r hir hold hmem]
    · have hchild := cellOf_of_new (nn := lens.length) hq hold hrr
      rw [← h.avail] at hchild
      refine Builder.read_allocate_child _ ?_ hchild
      obtain ⟨hleft, hright⟩ := h.cellOf_ne_new hr
      obtain he | he := hchild <;> rw [he]
      · exact hleft.symm
      · exact hright.symm

include hc htb in
/-- Planting symbol `k` writes `k` where its leaves are, and no other location in use. -/
theorem Grown.plant (h : Grown lens tb b nodes k) {b' : Builder n} (havail : b'.avail = b.avail)
    (hleaf : ∀ q, LeafAt lens tb k q → Reached nodes q ∧ b'.read (cellOf lens.length nodes q) = k)
    (hkeep : ∀ q, Reached nodes q → ¬ LeafAt lens tb k q →
      b'.read (cellOf lens.length nodes q) = b.read (cellOf lens.length nodes q)) :
    Grown lens tb b' nodes (k + 1) := by
  have hinner : ∀ q, Reached nodes q → Inner lens tb q →
      b'.read (cellOf lens.length nodes q) = b.read (cellOf lens.length nodes q) :=
    fun q hr hi => hkeep q hr fun hl => hl.not_inner hc hi
  refine ⟨havail.trans h.avail, h.nodup, h.inner, h.parent, fun q hq => ?_, fun t q ht hl => ?_, fun q hi hr hq => ?_⟩
  · rw [hinner q (h.parent q hq) (h.inner q hq), h.node q hq]
  · by_cases htk : t = k
    · exact htk ▸ hleaf q (htk ▸ hl)
    · obtain ⟨hr, hread⟩ := h.leaf t q (by omega) hl
      exact ⟨hr, (hkeep q hr fun hk => htk (hl.unique htb hc.2.1 hk)).trans hread⟩
  · rw [hinner q hr hi, h.empty q hi hr hq]

include hc hnn hn in
/-- One level of a long code: its stem has a node, or gets one. -/
theorem Grown.ensure (h : Grown lens tb b nodes k) {q : Nat × Nat} (hr : Reached nodes q) (hi : Inner lens tb q) :
    ∃ nodes', q ∈ nodes' ∧ Grown lens tb (b.ensure (cellOf lens.length nodes q)) nodes' k ∧
      (b.ensure (cellOf lens.length nodes q)).read (cellOf lens.length nodes q) = nodeId lens.length nodes' q := by
  by_cases hq : q ∈ nodes
  · have hpos : b.read (cellOf lens.length nodes q) ≠ 0 := by
      rw [h.node q hq, nodeId]
      have := length_lt_of_inner hc h.nodup h.inner (List.ne_nil_of_mem hq)
      omega
    rw [Builder.ensure, if_neg hpos]
    exact ⟨nodes, hq, h, h.node q hq⟩
  · have hnew := h.allocate hc hnn hn hr hi hq
    have hmem : q ∈ nodes ++ [q] := List.mem_append_right _ (List.mem_singleton_self q)
    have hread := hnew.node q hmem
    rw [cellOf_append hr] at hread
    rw [Builder.ensure, if_pos (h.empty q hi hr hq)]
    exact ⟨nodes ++ [q], hmem, hnew, hread⟩

include hc hnn htb hn in
/-- A long code's descent (R156): nodes for its inner stems, then its symbol. -/
theorem Grown.descend {c : Nat} (ho : CodeOpens lens k c) {levels j : Nat} (hlevels : tb + j + levels = lens.getD k 0)
    (hlong : tb < lens.getD k 0) (h : Grown lens tb b nodes k) (hr : Reached nodes (stemOf tb j c)) :
    ∃ nodes', Grown lens tb (Builder.descend tb c k levels j (cellOf lens.length nodes (stemOf tb j c)) b) nodes'
      (k + 1) := by
  have h16 : lens.getD k 0 ≤ 16 := getD_le hc.2.1 k
  induction levels generalizing b nodes j with
  | zero =>
    have hj : j = lens.getD k 0 - tb := by omega
    subst hj
    have hfits := h.fits hc hnn hr fun h0 => absurd h0 (show lens.getD k 0 - tb ≠ 0 by omega)
    refine ⟨nodes, h.plant hc htb (Builder.write_avail b _ k) (fun q hl => ?_) fun q hrq hl => ?_⟩
    · rw [(leafAt_iff_of_long hlong ho).1 hl]
      exact ⟨hr, Builder.read_write_same b hfits k⟩
    · exact Builder.read_write_ne b (fun he => hl ((leafAt_iff_of_long hlong ho).2 (cellOf_inj hrq he))) k
  | succ levels ih =>
    obtain ⟨nodes', hmem, hg, hid⟩ := h.ensure hc hnn hn hr (inner_of_opens hc ho (by omega))
    rw [Builder.descend_succ, hid, ← cellOf_stemOf_succ c (by omega)]
    exact ih (by omega) hg ((reached_stemOf_succ c (by omega)).2 hmem)

/-! ### The symbol loop -/

/-- `next[l]` holds the code of the next symbol of length `l` (R151). -/
def NextCodes {n : Nat} (lens : List Nat) (b : Builder n) (k : Nat) : Prop :=
  ∀ l, l < 16 → b.next.read (l + 1) =
    cumulative lens l + (lens.take k).count (l + 1) * 2 ^ (16 - (l + 1))

theorem nextCodes_initial {table : Tab n} {left right : Tab Config.NODECAP} :
    NextCodes lens (Builder.initial lens tb table left right) 0 := by
  intro l hl
  have hl17 : l + 1 < 17 := by omega
  simp [Builder.initial, startCodes, Tab.read, List.getElem?_range hl17]

/-- A symbol of length `l` moves `next[l]` on by its width. -/
theorem Builder.plant_next (s l : Nat) (b : Builder n) :
    (b.plant tb s l).next = if l = 0 then b.next else b.next.write l (b.next.read l + 2 ^ (16 - l)) := by
  unfold Builder.plant
  split
  · rfl
  · dsimp only
    split
    · rfl
    · rw [Builder.descend_next]

theorem NextCodes.plant (h : NextCodes lens b k) (hk : k < lens.length) :
    NextCodes lens (b.plant tb k (lens.getD k 0)) (k + 1) := by
  intro l hl
  have hcount : (lens.take (k + 1)).count (l + 1) =
      (lens.take k).count (l + 1) + if lens.getD k 0 = l + 1 then 1 else 0 := by
    rw [List.take_add_one, List.getElem?_eq_getElem hk, List.count_append, List.getD_eq_getElem _ _ hk]
    simp [List.count_singleton]
  rw [Builder.plant_next, hcount]
  by_cases hlen : lens.getD k 0 = l + 1
  · rw [hlen, if_neg (Nat.succ_ne_zero l), if_pos rfl, Tab.read_write, if_pos ⟨rfl, by omega⟩, h l hl, Nat.add_one_mul,
      Nat.add_assoc]
  · simp only [hlen, if_false, Nat.add_zero]
    split
    · exact h l hl
    · rw [Tab.read_write_ne _ _ (Ne.symm hlen), h l hl]

theorem NextCodes.read_eq_code16 (h : NextCodes lens b k) (h0 : lens.getD k 0 ≠ 0) (h16 : lens.getD k 0 ≤ 16) :
    b.next.read (lens.getD k 0) = code16 lens k := by
  obtain ⟨l, hl⟩ := Nat.exists_eq_add_one_of_ne_zero h0
  rw [code16_eq hl, hl, h l (by omega)]

include hn in
/-- Before the first symbol every table entry above the short codes is Empty (R157). -/
theorem grown_initial {table : Tab n} {left right : Tab Config.NODECAP} :
    Grown lens tb (Builder.initial lens tb table left right) [] 0 := by
  refine ⟨rfl, List.nodup_nil, nofun, nofun, nofun, nofun, fun q hi hr _ => ?_⟩
  obtain ⟨_ | j, p⟩ := q
  · have hcum : cumulative lens tb < Config.FULLCODE := hi.cumulative_lt
    obtain ⟨_, hlow, hhigh⟩ := hi
    simp only [Nat.add_zero] at hlow hhigh
    show (clearHigh lens tb table).read p = 0
    rw [clearHigh, if_pos hcum, Tab.read_fill, if_pos (by omega)]
  · cases hr

include hc htb hn in
/-- A short code fills its table entries (R155). -/
theorem Grown.fill (h : Grown lens tb b nodes k) (h0 : lens.getD k 0 ≠ 0) (hshort : lens.getD k 0 ≤ tb) {lo hi : Nat}
    (hlo : lo = code16 lens k / 2 ^ (16 - tb)) (hhi : hi = (code16 lens k + 2 ^ (16 - lens.getD k 0)) / 2 ^ (16 - tb)) :
    Grown lens tb { b with table := b.table.fill lo (hi - lo) k } nodes (k + 1) := by
  have hleaf : ∀ q, LeafAt lens tb k q ↔ q.1 = 0 ∧ lo ≤ q.2 ∧ q.2 < hi := by
    intro q
    rw [leafAt_iff_of_short htb h0 hshort, hlo, hhi]
  have hend : hi ≤ n := by
    rw [hhi, hn]
    refine Nat.div_le_of_le_mul ((code16_add_le_full hc h0).trans_eq ?_)
    rw [← Nat.pow_add, Nat.sub_add_cancel htb]
  refine h.plant hc htb rfl (fun q hl => ?_) fun q hr hl => ?_
  · obtain ⟨_ | j, p⟩ := q
    · obtain ⟨_, hlow, hhigh⟩ := (hleaf _).1 hl
      exact ⟨trivial, (Tab.read_fill _ _ _ _ _).trans (if_pos (by omega))⟩
    · exact absurd ((hleaf _).1 hl).1 (Nat.succ_ne_zero j)
  · obtain ⟨_ | j, p⟩ := q
    · have hout : ¬ (lo ≤ p ∧ p < hi) := fun hp => hl ((hleaf _).2 ⟨rfl, hp⟩)
      exact (Tab.read_fill _ _ _ _ _).trans (if_neg (by omega))
    · rw [cellOf]
      split <;> rfl

include hc hnn htb hn in
/-- Steps (4) and (5) of R151 for the next symbol. -/
theorem Grown.plant_symbol (h : Grown lens tb b nodes k) (hnext : NextCodes lens b k) :
    ∃ nodes', Grown lens tb (b.plant tb k (lens.getD k 0)) nodes' (k + 1) := by
  by_cases h0 : lens.getD k 0 = 0
  · rw [Builder.plant, if_pos h0]
    exact ⟨nodes, h.plant hc htb rfl (fun q ⟨v, hv, _⟩ => absurd h0 hv.1) fun _ _ _ => rfl⟩
  have h16 := getD_le hc.2.1 k
  have hcode := hnext.read_eq_code16 h0 h16
  have h' : Grown lens tb { b with next := b.next.write (lens.getD k 0) (code16 lens k + 2 ^ (16 - lens.getD k 0)) } nodes k :=
    ⟨h.avail, h.nodup, h.inner, h.parent, h.node, h.leaf, h.empty⟩
  simp only [Builder.plant, if_neg h0, hcode]
  split
  · next hshort => exact ⟨nodes, h'.fill hc htb hn h0 hshort rfl rfl⟩
  · next hlong =>
    exact h'.descend (j := 0) hc hnn htb hn (opens_code16 h0) (by omega) (by omega) trivial

include hc hnn htb hn in
theorem Grown.plantAll (ls : List Nat) (hls : lens.drop k = ls) (h : Grown lens tb b nodes k) (hnext : NextCodes lens b k) :
    ∃ nodes', Grown lens tb (Builder.plantAll tb ls k b) nodes' (k + ls.length) := by
  induction ls generalizing b nodes k with
  | nil => exact ⟨nodes, h⟩
  | cons l ls ih =>
    have hk : k < lens.length := by
      by_contra hk
      simp [List.drop_eq_nil_of_le (Nat.le_of_not_lt hk)] at hls
    rw [List.drop_eq_getElem_cons hk, List.cons.injEq] at hls
    obtain ⟨hl, htail⟩ := hls
    have hget : lens.getD k 0 = l := (List.getD_eq_getElem _ _ hk).trans hl
    obtain ⟨nodes', hg⟩ := h.plant_symbol hc hnn htb hn hnext
    rw [hget] at hg
    rw [List.length_cons, Nat.add_comm ls.length 1, ← Nat.add_assoc]
    exact ih htail hg (hget ▸ hnext.plant hk)

/-! ### The lookup -/

theorem walk_symbol {nn v : Nat} (left right : Tab Config.NODECAP) (w : Window) (fuel : Nat) (h : v < nn) :
    walk nn left right w fuel v = some v := by
  cases fuel <;> simp [walk, h]

theorem walk_node {nn v : Nat} (left right : Tab Config.NODECAP) (w : Window) (i : Nat) (h : nn ≤ v)
    (hcap : v < Config.NODECAP) :
    walk nn left right w (i + 1) v = walk nn left right w i (if w.getLsbD i then right.read v else left.read v) := by
  rw [walk, if_neg (Nat.not_lt.2 h), if_pos hcap]

/-- Above a stem that is stored somewhere, every shorter stem is. -/
theorem Grown.reached_of_le (h : Grown lens tb b nodes k) {j m v : Nat} (hj : tb + (j + m) ≤ 16)
    (hr : Reached nodes (stemOf tb (j + m) v)) : Reached nodes (stemOf tb j v) := by
  induction m with
  | zero => exact hr
  | succ m ih => exact ih (by omega) (h.parent _ ((reached_stemOf_succ v (by omega)).1 hr))

include hc hnn in
/-- The walk of R159 follows the window's bits from a stem to the leaf. -/
theorem Grown.walk (h : Grown lens tb b nodes lens.length) {w : Window} {sym j m : Nat}
    (ho : CodeOpens lens sym (w.toNat / 65536)) (hm : j + m = lens.getD sym 0 - tb) :
    walk lens.length b.left b.right w (32 - tb - j) (b.read (cellOf lens.length nodes (stemOf tb j (w.toNat / 65536)))) =
      some sym := by
  have h16 := getD_le hc.2.1 sym
  obtain ⟨hr, hread⟩ := h.leaf sym _ (lt_length_of_getD_ne_zero ho.1) ⟨_, ho, rfl⟩
  induction m generalizing j with
  | zero =>
    obtain rfl : j = lens.getD sym 0 - tb := hm
    rw [hread]
    exact walk_symbol _ _ _ _ (lt_length_of_getD_ne_zero ho.1)
  | succ m ih =>
    have hnode : stemOf tb j (w.toNat / 65536) ∈ nodes := by
      rw [← hm, ← Nat.succ_add_eq_add_succ] at hr
      exact (reached_stemOf_succ _ (by omega)).1 (h.reached_of_le (by omega) hr)
    have hbit : w.getLsbD (32 - tb - (j + 1)) = (w.toNat / 65536).testBit (15 - tb - j) := by
      rw [BitVec.getLsbD, show 65536 = 2 ^ 16 from rfl, Nat.testBit_div_two_pow]
      congr 1
      omega
    have hchild := ih (j := j + 1) (by omega)
    rw [cellOf_stemOf_succ _ (by omega)] at hchild
    have hge : lens.length ≤ nodeId lens.length nodes (stemOf tb j (w.toNat / 65536)) := Nat.le_add_right _ _
    rw [h.node _ hnode, show 32 - tb - j = 32 - tb - (j + 1) + 1 by omega,
      walk_node _ _ _ _ hge (h.nodeId_lt_cap hc hnn hnode), hbit, ← hchild]
    split <;> rfl

end

/-- The top `d` bits of a window are those of its top 16 bits. -/
theorem div_65536_div_two_pow {w d : Nat} (hd : d ≤ 16) : w / 65536 / 2 ^ (16 - d) = w / 2 ^ (32 - d) := by
  rw [Nat.div_div_eq_div_mul, show 65536 = 2 ^ 16 from rfl, ← Nat.pow_add, show 16 + (16 - d) = 32 - d by omega]

/-- Every accepted list of at most 510 lengths builds, over any storage, a structure that decodes every window (R160). -/
theorem makeTable_decodes {n tb : Nat} {lens : List Nat} {table : Tab n} {left right : Tab Config.NODECAP} {b : Builder n}
    (hn : n = 2 ^ tb) (htb : tb ≤ 16) (hnn : lens.length ≤ 510) (h : makeTable lens tb table left right = some b) :
    b.decodes lens tb := by
  obtain ⟨hc, rfl⟩ := makeTable_eq_some_iff.1 h
  obtain ⟨nodes, hg⟩ := (grown_initial (table := table) (left := left) (right := right) hn).plantAll hc hnn htb hn lens
    List.drop_zero nextCodes_initial
  rw [Nat.zero_add] at hg
  intro w
  have hv : w.toNat / 65536 < cumulative lens 16 := by
    rw [hc.2.2, Nat.div_lt_iff_lt_mul (by decide)]
    exact w.isLt
  obtain ⟨sym, hsym⟩ := exists_opens hv
  have hl := getD_le hc.2.1 sym
  refine ⟨sym, ?_, Nat.one_le_iff_ne_zero.2 hsym.1, ?_⟩
  · have hindex : (w >>> (32 - tb)).toNat = w.toNat / 65536 / 2 ^ (16 - tb) := by
      rw [BitVec.toNat_ushiftRight, Nat.shiftRight_eq_div_pow, div_65536_div_two_pow htb]
    rw [lookup, hindex]
    exact hg.walk hc hnn (j := 0) hsym (Nat.zero_add _)
  · rw [← div_65536_div_two_pow hl]
    exact hsym.2

/-- Settles O10: every alphabet has at most 510 symbols, and every symbol planted keeps `Grown`, from which the walk reads the
symbol that opens the window (`makeTable_decodes`). -/
theorem builtStructureDecodesEveryWindow : Obligations.BuiltStructureDecodesEveryWindow := by
  unfold Obligations.BuiltStructureDecodesEveryWindow
  exact ⟨fun lens table left right b hlen => makeTable_decodes rfl (by decide) (by omega),
    fun lens table left right b hlen => makeTable_decodes rfl (by decide) hlen.le⟩

/-- Settles O9: a list of short codes is one of the lists of `makeTable_decodes`; its leaves are all table entries. -/
theorem shortCodeTableDecodesEveryWindow : Obligations.ShortCodeTableDecodesEveryWindow := by
  unfold Obligations.ShortCodeTableDecodesEveryWindow
  exact fun lens tb table left right b _ htb hnn _ => makeTable_decodes rfl (by omega) hnn

end Sys2Proof.Machine
end

section
/-! A Build state (R180, R190, R215): passed on where it is filled, else the builder's structure or `BadTable`. -/

namespace Sys2Proof.Machine

theorem length_lengths (s : State) (a : Alphabet) : (s.lengths a).length = alphabetSize a := by
  cases a <;> simp [State.lengths, alphabetSize, show Config.NT ≤ Config.NPT by decide]

/-- The builder answers in an alphabet's storage exactly on lengths that pass the checks (R152, R153). -/
theorem exists_build_iff (s : State) (a : Alphabet) :
    (∃ u, s.build a = some u) ↔ completeLengths (alphabetSize a) (s.lengths a) := by
  have hbuild : (∃ u, s.build a = some u) ↔ (s.build a).isSome = true := Option.isSome_iff_exists.symm
  rw [hbuild, ← length_lengths s a]
  cases a <;> simp only [State.build, Option.isSome_map, Option.isSome_iff_exists] <;>
    exact buildAcceptsExactlyCompleteLengths _ _ _ _ _ _

/-- A build leaves the other alphabet's direct table. -/
theorem build_other_table {s u : State} {a : Alphabet} (h : s.build a = some u) :
    (a = .C → u.ptTable = s.ptTable) ∧ (a ≠ .C → u.cTable = s.cTable) := by
  cases a <;> simp only [State.build, Option.map_eq_some_iff] at h <;> obtain ⟨b, -, rfl⟩ := h
  · exact ⟨nofun, fun _ => rfl⟩
  · exact ⟨fun _ => rfl, fun hne => absurd rfl hne⟩
  · exact ⟨nofun, fun _ => rfl⟩

/-- A Build state is no place for the loop test: its step is the build. -/
theorem step_of_building {s : State} {a : Alphabet} (hrun : s.run = .decode) (hb : s.building = some a)
    (hbounds : s.inBounds = true) : step s = .next (s.buildTable a) := by
  have hpass : s.passStart = false := by
    cases hf : s.fsm <;> simp [State.building, hf] at hb <;> simp [State.passStart, hf]
  simp [step, hrun, hpass, hbounds, hb]

/-- Settles O11: the step is `buildTable` (`step_of_building`), whose three outcomes are told apart by `point` and by the checks
(`exists_build_iff`). -/
theorem buildStateBuildsOrAborts : Obligations.BuildStateBuildsOrAborts := by
  unfold Obligations.BuildStateBuildsOrAborts
  intro s a hrun hb hbounds
  rw [step_of_building hrun hb hbounds, ← exists_build_iff]
  obtain ⟨hfilled, he⟩ | ⟨hne, u, hu, he⟩ | ⟨hne, hnone, he⟩ := buildTable_cases s a
  · exact ⟨fun _ => congrArg _ he, fun hne => absurd hfilled hne, fun hne => absurd hfilled hne⟩
  · refine ⟨fun hfilled => absurd hfilled hne, fun _ _ => ?_, fun _ hno => absurd ⟨u, hu⟩ hno⟩
    obtain ⟨hpt, hc⟩ := build_other_table hu
    exact ⟨_, u, hu, congrArg _ he, rfl, rfl, rfl, rfl, rfl, rfl, hpt, hc, (build_buildFrom hu :)⟩
  · refine ⟨fun hfilled => absurd hfilled hne, fun _ ⟨u, hu⟩ => by simp [hnone] at hu, fun _ _ => ?_⟩
    exact ⟨_, congrArg _ he, rfl, rfl, rfl, rfl, rfl⟩

end Sys2Proof.Machine
end

section
/-! A degenerate description (R161, R177, R184): the uniform fill of an alphabet's storage, and the lookup in it. -/

namespace Sys2Proof.Machine

/-- A table that holds one symbol everywhere gives it for every window, and no bit below the index is read. -/
theorem lookup_uniform {n nn tb c : Nat} {table : Tab n} (left right : Tab Config.NODECAP) (w : Window) (htb : tb ≤ 32)
    (hn : n = 2 ^ tb) (ht : ∀ j, j < n → table.read j = c) (hc : c < nn) :
    lookup nn tb table left right w = some c := by
  have hindex : (w >>> (32 - tb)).toNat < n := by
    rw [hn, BitVec.toNat_ushiftRight, Nat.shiftRight_eq_div_pow, Nat.div_lt_iff_lt_mul (Nat.two_pow_pos _), ← Nat.pow_add,
      Nat.add_sub_cancel' htb]
    exact w.isLt
  rw [lookup, ht _ hindex]
  exact walk_symbol _ _ _ _ hc

/-- `t` with all that a degenerate description may write past its guard as in `s`. -/
def State.uniformFrom (t s : State) : State :=
  { t with ptLen := s.ptLen, cLen := s.cLen, ptTable := s.ptTable, cTable := s.cTable, fsm := s.fsm, point := s.point }

/-- A whole array filled reads the same everywhere. -/
theorem Tab.read_fill_all {n : Nat} (t : Tab n) (v : Nat) {j : Nat} (hj : j < n) : (t.fill 0 n v).read j = v := by
  rw [Tab.read_fill, if_pos (by omega)]

section
variable (u : State) (a : Alphabet) (c : Nat)

theorem fillUniform_lookupSym (hc : c < alphabetSize a) (w : Window) :
    ({ u.fillUniform a c with bitBuf := w } : State).lookupSym a = some c := by
  cases a <;> exact lookup_uniform _ _ _ (by decide) rfl (fun j hj => Tab.read_fill_all _ _ hj) hc

theorem fillUniform_codeLength {j : Nat} (hj : j < alphabetSize a) : (u.fillUniform a c).codeLength a j = 0 := by
  have hpt : ∀ k, k ≤ 31 → j < k → (u.ptLen.fill 0 k 0).read j = 0 := fun k hk hj =>
    (Tab.read_fill _ _ _ _ _).trans (if_pos ⟨hj.trans_le hk, Nat.zero_le j, by omega⟩)
  cases a with
  | T | P => exact hpt _ (by decide) hj
  | C => exact Tab.read_fill_all _ _ hj

/-- What the fill leaves in the two alphabets' storage (R161). -/
theorem fillUniform_storage : if a = .C then
      (∀ j, j < 4096 → (u.fillUniform a c).cTable.read j = c) ∧ (u.fillUniform a c).ptTable = u.ptTable ∧
        (u.fillUniform a c).ptLen = u.ptLen
    else
      (∀ j, j < 256 → (u.fillUniform a c).ptTable.read j = c) ∧ (u.fillUniform a c).cTable = u.cTable ∧
        (u.fillUniform a c).cLen = u.cLen ∧ ∀ j, alphabetSize a ≤ j → (u.fillUniform a c).ptLen.read j = u.ptLen.read j := by
  have hbeyond : ∀ k j, k ≤ j → (u.ptLen.fill 0 k 0).read j = u.ptLen.read j := fun k j hj =>
    (Tab.read_fill _ _ _ _ _).trans (if_neg (by omega))
  cases a with
  | C => exact ⟨fun j hj => Tab.read_fill_all _ _ hj, rfl, rfl⟩
  | T | P => exact ⟨fun j hj => Tab.read_fill_all _ _ hj, rfl, rfl, hbeyond _⟩

end

/-- The three degenerate descriptions: two fields of one width each, then the fill (R177, R184). -/
theorem exec_degenerate {s : State} {i : Instr} {a : Alphabet} {c width : Nat}
    (h : (∃ x, i = .tdeg x ∧ a = .T ∧ c = x.toNat ∧ width = 10) ∨
      (∃ x, i = .pdeg x ∧ a = .P ∧ c = x.toNat ∧ width = 2 * s.pBit.toNat) ∨
      (∃ x, i = .cdeg x ∧ a = .C ∧ c = x.toNat ∧ width = 18)) :
    (exec i s = s.element i fun u => u.degenerate a c) ∧ ∃ m, m ≤ 32 ∧ s.widths i = [m, m] ∧ width = m + m := by
  obtain ⟨x, rfl, rfl, rfl, rfl⟩ | ⟨x, rfl, rfl, rfl, rfl⟩ | ⟨x, rfl, rfl, rfl, rfl⟩ := h
  · exact ⟨rfl, 5, by decide, rfl, rfl⟩
  · exact ⟨rfl, s.pBit.toNat, by have := s.pBit.isLt; omega, rfl, Nat.two_mul _⟩
  · exact ⟨rfl, 9, by decide, rfl, rfl⟩

/-- Settles O14: the element consumes its two fields (`exec_degenerate`) and fills the alphabet's storage, in which every lookup
gives the symbol (`fillUniform_lookupSym`). -/
theorem degenerateDescriptionIsUniform : Obligations.DegenerateDescriptionIsUniform := by
  unfold Obligations.DegenerateDescriptionIsUniform
  intro s i a c width hi hready hc
  obtain ⟨hexec, m, hm, hw, rfl⟩ := exec_degenerate hi
  have hrun : exec i s = (s.consume [m, m]).degenerate a c := by rw [hexec, element_ready _ hready, hw]
  obtain ⟨hout, _⟩ | ⟨_, hnext⟩ := degenerate_cases (s.consume [m, m]) a c
  · omega
  have hframe := fillUniform_frame (s.consume [m, m]) a c
  have hsrc : ((s.consume [m, m]).fillUniform a c).src = s.src := (congrArg State.src hframe :).trans (consume_src s _)
  have hdst : ((s.consume [m, m]).fillUniform a c).dst = s.dst := (congrArg State.dst hframe :).trans (consume_dst s _)
  refine ⟨_, hrun.trans hnext, rfl, rfl, fun w => ?_, fun j hj => ?_, ?_, fun p hp => ?_, ⟨fun x => ?_, fun x => ?_⟩, ?_⟩
  · exact fillUniform_lookupSym _ a c hc w
  · exact fillUniform_codeLength _ a c hj
  · have hst := fillUniform_storage (s.consume [m, m]) a c
    simpa only [consume_ptTable, consume_ptLen, consume_cTable, consume_cLen] using hst
  · have hreader := consume_readerAt (ws := [m, m]) (by simpa using hm) hp
    exact hreader.of_readerFrom (congrArg (s.consume [m, m]).readerFrom hframe :) (congrArg State.compSize hframe :)
      (congrArg State.src hframe :)
  · exact congrArg (fun mem => Memory.read mem x) hsrc
  · exact congrArg (fun mem => Memory.read mem x) hdst
  · exact (congrArg (fun v : State => (v.readerFrom s).uniformFrom s) hframe :).trans
      (congrArg (·.uniformFrom s) (consume_frame s [m, m]))

end Sys2Proof.Machine
end

section
/-! The entries of the descriptions (R176 to R191): what a count, a length, a skip or a zero run leaves in the length arrays
and as the next place. Every one of them is an `Effect` that writes no byte, so its reader and its bytes are settled once. -/

namespace Sys2Proof.Machine

/-! ### What an element's effect leaves, its reader's move included -/

/-- Only a header is read outside a decode. -/
theorem run_of_slot {s : State} {sl : Slot} (h : s.slot = some sl) (hsl : sl ≠ .hdr) : s.run = .decode := by
  cases hrun : s.run with
  | idle => simp [State.slot, hrun] at h
  | header c => exact absurd (by simpa [State.slot, hrun] using h.symm) hsl
  | decode => rfl

theorem standsAt_of_ready {s : State} {i : Instr} (h : s.ready i) (hsl : i.slot ≠ .hdr) : s.standsAt i.slot :=
  standsAt_of_slot (run_of_slot h.1 hsl) h.1

/-- An element's effect leaves the reader behind the bits it consumed (R30). -/
theorem Effect.advancedBy {s t : State} {sl : Slot} {ws : List Nat} (h : Effect (s.consume ws) sl t)
    (hw : ∀ w ∈ ws, w ≤ 32) : s.advancedBy t ws.sum := fun _ hp =>
  (consume_readerAt hw hp).of_readerFrom ((congrArg (fun v => v.readerFrom t) h.frame).symm.trans h.frame)
    (congrArg State.compSize h.frame :) (congrArg State.src h.frame :)

/-- Only a symbol and a match's copy write DST (R27). -/
theorem Effect.dst_eq {u t : State} {sl : Slot} (h : Effect u sl t) (hsym : sl ≠ .csym) (hoff : sl ≠ .off) :
    t.dst = u.dst := by
  cases h with
  | blksize | count => rfl
  | degenerate a c => exact (congrArg State.dst (fillUniform_frame u a c) :)
  | ptlen l => exact (congrArg State.dst (storePTLength_frame u l) :)
  | tskip r => exact (congrArg State.dst (skipEntries_frame u r) :)
  | clength l => exact (congrArg State.dst (storeCLength_frame u l) :)
  | zeroRun r => exact (congrArg State.dst (zeroRun_frame u r) :)
  | lit | matchLen => exact absurd rfl hsym
  | copy => exact absurd rfl hoff

theorem Effect.sameBytes {s t : State} {sl : Slot} {ws : List Nat} (h : Effect (s.consume ws) sl t) (hsym : sl ≠ .csym)
    (hoff : sl ≠ .off) : s.sameBytes t :=
  ⟨fun a => by rw [h.keeps.src], fun a => by rw [h.dst_eq hsym hoff, consume_dst]⟩

/-- A ready element is its meaning behind the bits it consumes. -/
theorem exec_of_ready {s : State} {i : Instr} {k : State → Result} {ws : List Nat} (hexec : exec i s = s.element i k)
    (hready : s.ready i) (hw : s.widths i = ws) : exec i s = k (s.consume ws) := by
  rw [hexec, element_ready k hready, hw]

/-! ### Counts (R177, R184) -/

/-- The position of an alphabet's length entries (R91). -/
def entrySlot : Alphabet → Slot
  | .T => .ptlen
  | .C => .citem
  | .P => .ptlen

theorem startEntries_slot {u : State} {a : Alphabet} {n : Nat} (hrun : u.run = .decode) (hf : u.fsm = readState a)
    (hn : 0 < n) : (u.startEntries n).slot = some (entrySlot a) := by
  cases a with
  | T => exact slot_of_standsAt (sl := .ptlen) hrun ⟨n, 0, rfl, .inl hf, hn, by decide⟩
  | C => exact slot_of_standsAt (sl := .citem) hrun ⟨n, 0, rfl, hf, hn, by decide⟩
  | P => exact slot_of_standsAt (sl := .ptlen) hrun ⟨n, 0, rfl, .inr hf, hn, by decide⟩

/-- A non-zero count of any alphabet, in a field of the width `w`. -/
theorem count_opens_entries {s : State} {i : Instr} {a : Alphabet} {n w : Nat}
    (hexec : exec i s = s.element i fun u => .next (u.startEntries n)) (hslot : i.slot = countSlot a) (hn : 0 < n)
    (hw : s.widths i = [w]) (hw32 : w ≤ 32) (hready : s.ready i) :
    ∃ t, exec i s = .next t ∧ t.point = .entries n 0 ∧ t.slot = some (entrySlot a) ∧ s.advancedBy t w ∧ s.sameBytes t ∧
      { t.readerFrom s with point := s.point } = s := by
  have hne : countSlot a ≠ .hdr ∧ countSlot a ≠ .csym ∧ countSlot a ≠ .off := by cases a <;> decide
  obtain ⟨hhdr, hsym, hoff⟩ := hne
  obtain ⟨_, hf⟩ := standsAt_countSlot.1 (hslot ▸ standsAt_of_ready hready (hslot ▸ hhdr))
  have hrun := run_of_slot hready.1 (hslot ▸ hhdr)
  have he : Effect (s.consume [w]) (countSlot a) ((s.consume [w]).startEntries n) := .count a n hn
  refine ⟨_, exec_of_ready (k := fun u => .next (u.startEntries n)) hexec hready hw, rfl, ?_, ?_, he.sameBytes hsym hoff, ?_⟩
  · exact startEntries_slot (by simpa using hrun) (by simpa using hf) hn
  · exact he.advancedBy (by simpa using hw32)
  · exact (congrArg (fun v : State => { v with point := s.point }) (consume_frame s [w]) :)

/-- Settles O13: the three counts are `count_opens_entries` with their alphabets and widths. -/
theorem countFieldsOpenTheEntries : Obligations.CountFieldsOpenTheEntries := by
  unfold Obligations.CountFieldsOpenTheEntries
  refine ⟨fun s n hready => ?_, fun s n hready => ?_, fun s n hready => ?_⟩
  · exact count_opens_entries (a := .T) rfl rfl (toNat_pos_of_bne hready.2.1) rfl (by decide) hready
  · have hn := toNat_pos_of_bne (Bool.and_eq_true_iff.1 hready.2.1).1
    exact count_opens_entries (a := .P) rfl rfl hn rfl (by have := s.pBit.isLt; omega) hready
  · exact count_opens_entries (a := .C) rfl rfl (toNat_pos_of_bne hready.2.1) rfl (by decide) hready

/-! ### T and P entries (R178 to R180) -/

/-- A run of zeros; it needs no bound, since nothing but 0 is read past the end (R65). -/
theorem Tab.read_fill_zero {n : Nat} (t : Tab n) (a k j : Nat) :
    (t.fill a k 0).read j = if a ≤ j ∧ j < a + k then 0 else t.read j := by
  rw [Tab.read_fill]
  by_cases hj : j < n
  · simp only [hj, true_and]
  · simp [hj, Tab.read_of_ge t (Nat.le_of_not_lt hj)]

/-- `t` with all that a T or P entry may write past its guard as in `s`. -/
def State.ptFrom (t s : State) : State := { t with ptLen := s.ptLen, fsm := s.fsm, point := s.point }

theorem ptFrom_of_consume {s t : State} {ws : List Nat} (h : t.ptFrom (s.consume ws) = s.consume ws) :
    (t.readerFrom s).ptFrom s = s :=
  (congrArg (fun v => (v.readerFrom s).ptFrom s) h :).trans (congrArg (·.ptFrom s) (consume_frame s ws))

theorem nextPTEntry_of_more {u : State} {number idx : Nat} (h : idx < number ∧ idx < 31) :
    u.nextPTEntry number idx = { u with point := .entries number idx } := if_pos h

/-- Past the last entry the tail is zeroed and the alphabet's Build state entered (R180). -/
theorem nextPTEntry_of_last {u : State} {number idx : Nat} (h : ¬ (idx < number ∧ idx < 31)) :
    (u.nextPTEntry number idx).point = .start ∧
    (u.nextPTEntry number idx).building = some (if u.fsm = .readExtraLengths then .T else .P) ∧
    ∀ j, (u.nextPTEntry number idx).ptLen.read j =
      if idx ≤ j ∧ j < (if u.fsm = .readExtraLengths then 19 else 31) then 0 else u.ptLen.read j := by
  have htail : ∀ nn j, (u.ptLen.fill idx (nn - idx) 0).read j = if idx ≤ j ∧ j < nn then 0 else u.ptLen.read j :=
    fun _ _ => (Tab.read_fill_zero _ _ _ _).trans (if_congr (by omega) rfl rfl)
  rw [State.nextPTEntry, if_neg h]
  by_cases hT : u.fsm = .readExtraLengths
  · simp only [if_pos hT, true_and]
    exact ⟨rfl, htail 19⟩
  · simp only [if_neg hT, true_and]
    exact ⟨rfl, htail 31⟩

theorem storePTLength_of_entries {u : State} {number idx : Nat} (hp : u.point = .entries number idx) (l : Nat) :
    u.storePTLength l =
      if u.fsm = .readExtraLengths ∧ idx = 2 then { u with ptLen := u.ptLen.write idx l, point := .skip number }
      else { u with ptLen := u.ptLen.write idx l }.nextPTEntry number (idx + 1) := by
  simp only [State.storePTLength, hp, Config.SPECIAL_T, Nat.reduceEqDiff]

theorem skipEntries_of_skip {u : State} {number : Nat} (hp : u.point = .skip number) (r : Nat) :
    u.skipEntries r = { u with ptLen := u.ptLen.fill 3 r 0 }.nextPTEntry number (min (3 + r) 31) := by
  simp only [State.skipEntries, hp]

/-- What storing a length leaves in `ptLen`, and what comes next. -/
theorem storePTLength_stores {u : State} {number idx : Nat} (hp : u.point = .entries number idx) (hi : idx < 31) (l : Nat) :
    (u.storePTLength l).ptLen.read idx = l ∧ (∀ j, j < idx → (u.storePTLength l).ptLen.read j = u.ptLen.read j) ∧
    if u.fsm = .readExtraLengths ∧ idx = 2 then
      (u.storePTLength l).point = .skip number ∧ (u.storePTLength l).fsm = u.fsm ∧
        ∀ j, idx < j → (u.storePTLength l).ptLen.read j = u.ptLen.read j
    else if idx + 1 < number ∧ idx + 1 < 31 then
      (u.storePTLength l).point = .entries number (idx + 1) ∧ (u.storePTLength l).fsm = u.fsm ∧
        ∀ j, idx < j → (u.storePTLength l).ptLen.read j = u.ptLen.read j
    else
      (u.storePTLength l).point = .start ∧
      (u.storePTLength l).building = some (if u.fsm = .readExtraLengths then .T else .P) ∧
      ∀ j, idx < j → (u.storePTLength l).ptLen.read j =
        if j < (if u.fsm = .readExtraLengths then 19 else 31) then 0 else u.ptLen.read j := by
  have hself : (u.ptLen.write idx l).read idx = l := by rw [Tab.read_write, if_pos ⟨rfl, hi⟩]
  have hother : ∀ j, j ≠ idx → (u.ptLen.write idx l).read j = u.ptLen.read j := fun j hj => Tab.read_write_ne _ l hj
  rw [storePTLength_of_entries hp]
  by_cases hskip : u.fsm = .readExtraLengths ∧ idx = 2
  · rw [if_pos hskip, if_pos hskip]
    exact ⟨hself, fun j hj => hother j (by omega), rfl, rfl, fun j hj => hother j (by omega)⟩
  rw [if_neg hskip, if_neg hskip]
  by_cases hmore : idx + 1 < number ∧ idx + 1 < 31
  · rw [nextPTEntry_of_more hmore, if_pos hmore]
    exact ⟨hself, fun j hj => hother j (by omega), rfl, rfl, fun j hj => hother j (by omega)⟩
  · obtain ⟨hpoint, hbuild, hread⟩ := nextPTEntry_of_last (u := { u with ptLen := u.ptLen.write idx l }) hmore
    rw [if_neg hmore]
    refine ⟨?_, fun j hj => ?_, hpoint, hbuild, fun j hj => ?_⟩
    · rw [hread, if_neg (by omega), hself]
    · rw [hread, if_neg (by omega), hother j (by omega)]
    · rw [hread, hother j (by omega)]
      exact if_congr (and_iff_right hj) rfl rfl

/-- What a skip leaves in `ptLen`, and what comes next. -/
theorem skipEntries_zeroes {u : State} {number r : Nat} (hp : u.point = .skip number) (hf : u.fsm = .readExtraLengths)
    (hr : r < 4) :
    (∀ j, j < 3 → (u.skipEntries r).ptLen.read j = u.ptLen.read j) ∧
    (∀ j, 3 ≤ j → j < 3 + r → (u.skipEntries r).ptLen.read j = 0) ∧
    if 3 + r < number then
      (u.skipEntries r).point = .entries number (3 + r) ∧ (u.skipEntries r).fsm = u.fsm ∧
        ∀ j, 3 + r ≤ j → (u.skipEntries r).ptLen.read j = u.ptLen.read j
    else
      (u.skipEntries r).point = .start ∧ (u.skipEntries r).building = some .T ∧
        ∀ j, 3 + r ≤ j → (u.skipEntries r).ptLen.read j = if j < 19 then 0 else u.ptLen.read j := by
  have hrun : ∀ j, 3 ≤ j → j < 3 + r → (u.ptLen.fill 3 r 0).read j = 0 := fun j h3 hj =>
    (Tab.read_fill_zero _ _ _ _).trans (if_pos ⟨h3, hj⟩)
  have hother : ∀ j, j < 3 ∨ 3 + r ≤ j → (u.ptLen.fill 3 r 0).read j = u.ptLen.read j := fun j hj =>
    (Tab.read_fill_zero _ _ _ _).trans (if_neg (by omega))
  rw [skipEntries_of_skip hp, Nat.min_eq_left (by omega)]
  by_cases hmore : 3 + r < number
  · rw [nextPTEntry_of_more ⟨hmore, by omega⟩, if_pos hmore]
    exact ⟨fun j hj => hother j (.inl hj), hrun, rfl, rfl, fun j hj => hother j (.inr hj)⟩
  · obtain ⟨hpoint, hbuild, hread⟩ := nextPTEntry_of_last (u := { u with ptLen := u.ptLen.fill 3 r 0 })
      (number := number) (idx := 3 + r) (fun h => hmore h.1)
    rw [if_pos hf] at hbuild hread
    rw [if_neg hmore]
    refine ⟨fun j hj => ?_, fun j h3 hj => ?_, hpoint, hbuild, fun j hj => ?_⟩
    · rw [hread, if_neg (by omega), hother j (.inl hj)]
    · rw [hread, if_neg (by omega), hrun j h3 hj]
    · rw [hread, hother j (.inr hj)]
      exact if_congr (and_iff_right hj) rfl rfl

theorem widths_ptlen {l : Nat} {i : Instr} (h : ptlenInstr l = some i) (s : State) :
    s.widths i = [if l < 7 then 3 else l - 3] := by
  unfold ptlenInstr at h
  split at h <;> cases h <;> rfl

/-- Settles O16: the element consumes its one field and stores its length (`storePTLength_stores`). -/
theorem ptLengthEntryIsStored : Obligations.PtLengthEntryIsStored := by
  unfold Obligations.PtLengthEntryIsStored
  intro s l number idx i hl hready hp
  have hslot := slot_of_ptlenInstr hl
  have hl16 := ptlenInstr_le hl
  obtain ⟨_, _, hp', _, _, hi⟩ : s.standsAt .ptlen := hslot ▸ standsAt_of_ready hready (by rw [hslot]; decide)
  cases hp.symm.trans hp'
  generalize hw : (if l < 7 then 3 else l - 3) = w
  have hw32 : w ≤ 32 := by rw [← hw]; split <;> omega
  have he : Effect (s.consume [w]) .ptlen ((s.consume [w]).storePTLength l) := .ptlen l hl16
  have hst := storePTLength_stores (u := s.consume [w]) ((consume_point s _).trans hp) hi l
  simp only [consume_ptLen, consume_fsm] at hst
  obtain ⟨hself, hbelow, hnext⟩ := hst
  refine ⟨_, exec_of_ready (k := fun u => .next (u.storePTLength l)) (exec_ptlen hl s) hready
    ((widths_ptlen hl s).trans (by rw [hw])), hself, hbelow, hnext, ?_⟩
  exact ⟨he.advancedBy (by simpa using hw32), he.sameBytes (by decide) (by decide),
    ptFrom_of_consume (storePTLength_frame _ l)⟩

/-- Settles O17: the run is zeroed, and behind it the entries go on or end (`nextPTEntry_of_more`, `nextPTEntry_of_last`). -/
theorem skipZeroesEntries : Obligations.SkipZeroesEntries := by
  unfold Obligations.SkipZeroesEntries
  intro s r number hready hp
  obtain ⟨_, _, hf⟩ : s.standsAt .tskip := standsAt_of_ready hready nofun
  have he : Effect (s.consume [2]) .tskip ((s.consume [2]).skipEntries r.toNat) := .tskip r.toNat
  have hst := skipEntries_zeroes (u := s.consume [2]) ((consume_point s _).trans hp) ((consume_fsm s _).trans hf) r.isLt
  simp only [consume_ptLen, consume_fsm] at hst
  obtain ⟨hbelow, hzero, hnext⟩ := hst
  refine ⟨_, exec_of_ready (k := fun u => .next (u.skipEntries r.toNat)) rfl hready rfl, hbelow, hzero, hnext, ?_⟩
  exact ⟨he.advancedBy (by simp), he.sameBytes (by decide) (by decide), ptFrom_of_consume (skipEntries_frame _ _)⟩

/-! ### C items (R186 to R191) -/

/-- `t` with all that a C item may write past its guard as in `s`. -/
def State.cFrom (t s : State) : State := { t with cLen := s.cLen, fsm := s.fsm, point := s.point }

theorem cFrom_of_consume {s t : State} {ws : List Nat} (h : t.cFrom (s.consume ws) = s.consume ws) :
    (t.readerFrom s).cFrom s = s :=
  (congrArg (fun v => (v.readerFrom s).cFrom s) h :).trans (congrArg (·.cFrom s) (consume_frame s ws))

/-- Behind a C item the next one comes, or the tail is zeroed and the Build state entered (R190). -/
theorem nextCItem_leaves (u : State) (number idx : Nat) :
    (∀ j, j < idx → (u.nextCItem number idx).cLen.read j = u.cLen.read j) ∧
    if idx < number ∧ idx < 510 then
      (u.nextCItem number idx).point = .entries number idx ∧ (u.nextCItem number idx).fsm = u.fsm ∧
        ∀ j, idx ≤ j → (u.nextCItem number idx).cLen.read j = u.cLen.read j
    else
      (u.nextCItem number idx).point = .start ∧ (u.nextCItem number idx).building = some .C ∧
        ∀ j, idx ≤ j → (u.nextCItem number idx).cLen.read j = 0 := by
  by_cases hmore : idx < number ∧ idx < 510
  · rw [State.nextCItem, if_pos hmore, if_pos hmore]
    exact ⟨fun _ _ => rfl, rfl, rfl, fun _ _ => rfl⟩
  · rw [State.nextCItem, if_neg hmore, if_neg hmore]
    refine ⟨fun j hj => ?_, rfl, rfl, fun j hj => ?_⟩
    · exact (Tab.read_fill_zero _ _ _ _).trans (if_neg (by omega))
    · by_cases hlast : j < 510
      · exact (Tab.read_fill_zero _ _ _ _).trans (if_pos ⟨hj, by show j < idx + (510 - idx); omega⟩)
      · exact Tab.read_of_ge _ (Nat.le_of_not_lt hlast)

theorem storeCLength_of_entries {u : State} {number idx : Nat} (hp : u.point = .entries number idx) (l : Nat) :
    u.storeCLength l = { u with cLen := u.cLen.write idx l }.nextCItem number (idx + 1) := by
  simp only [State.storeCLength, hp]

theorem zeroRun_of_entries {u : State} {number idx : Nat} (hp : u.point = .entries number idx) (r : Nat) :
    u.zeroRun r = { u with cLen := u.cLen.fill idx r 0 }.nextCItem number (min (idx + r) 510) := by
  simp only [State.zeroRun, hp]

theorem index_lt_of_citem {s : State} {number idx : Nat} (h : s.standsAt .citem) (hp : s.point = .entries number idx) :
    idx < 510 := by
  obtain ⟨_, _, hp', _, _, hi⟩ := h
  cases hp.symm.trans hp'
  exact hi

/-- What storing a length leaves in `cLen`, and what comes next. -/
theorem storeCLength_stores {u : State} {number idx : Nat} (hp : u.point = .entries number idx) (hi : idx < 510) (l : Nat) :
    (u.storeCLength l).cLen.read idx = l ∧ (∀ j, j < idx → (u.storeCLength l).cLen.read j = u.cLen.read j) ∧
    if idx + 1 < number ∧ idx + 1 < 510 then
      (u.storeCLength l).point = .entries number (idx + 1) ∧ (u.storeCLength l).fsm = u.fsm ∧
        ∀ j, idx < j → (u.storeCLength l).cLen.read j = u.cLen.read j
    else
      (u.storeCLength l).point = .start ∧ (u.storeCLength l).building = some .C ∧
        ∀ j, idx < j → (u.storeCLength l).cLen.read j = 0 := by
  have hself : (u.cLen.write idx l).read idx = l := by rw [Tab.read_write, if_pos ⟨rfl, hi⟩]
  have hother : ∀ j, j ≠ idx → (u.cLen.write idx l).read j = u.cLen.read j := fun j hj => Tab.read_write_ne _ l hj
  rw [storeCLength_of_entries hp]
  obtain ⟨hkept, hnext⟩ := nextCItem_leaves { u with cLen := u.cLen.write idx l } number (idx + 1)
  refine ⟨(hkept idx (Nat.lt_succ_self idx)).trans hself,
    fun j hj => (hkept j (by omega)).trans (hother j (by omega)), ?_⟩
  split at hnext
  · next hmore =>
    obtain ⟨hpoint, hfsm, hread⟩ := hnext
    rw [if_pos hmore]
    exact ⟨hpoint, hfsm, fun j hj => (hread j hj).trans (hother j (by omega))⟩
  · next hmore =>
    rw [if_neg hmore]
    exact hnext

/-- What a zero run leaves in `cLen`, and what comes next: nothing is stored past entry 509 (R191). -/
theorem zeroRun_zeroes {u : State} {number idx : Nat} (hp : u.point = .entries number idx) (hi : idx < 510) (r : Nat) :
    (∀ j, j < idx → (u.zeroRun r).cLen.read j = u.cLen.read j) ∧
    (∀ j, idx ≤ j → j < min (idx + r) 510 → (u.zeroRun r).cLen.read j = 0) ∧
    if min (idx + r) 510 < number ∧ min (idx + r) 510 < 510 then
      (u.zeroRun r).point = .entries number (min (idx + r) 510) ∧ (u.zeroRun r).fsm = u.fsm ∧
        ∀ j, min (idx + r) 510 ≤ j → (u.zeroRun r).cLen.read j = u.cLen.read j
    else
      (u.zeroRun r).point = .start ∧ (u.zeroRun r).building = some .C ∧
        ∀ j, min (idx + r) 510 ≤ j → (u.zeroRun r).cLen.read j = 0 := by
  have hrun : ∀ j, idx ≤ j → j < idx + r → (u.cLen.fill idx r 0).read j = 0 := fun j hle hj =>
    (Tab.read_fill_zero _ _ _ _).trans (if_pos ⟨hle, hj⟩)
  have hother : ∀ j, j < idx ∨ idx + r ≤ j → (u.cLen.fill idx r 0).read j = u.cLen.read j := fun j hj =>
    (Tab.read_fill_zero _ _ _ _).trans (if_neg (by omega))
  rw [zeroRun_of_entries hp]
  obtain ⟨hkept, hnext⟩ := nextCItem_leaves { u with cLen := u.cLen.fill idx r 0 } number (min (idx + r) 510)
  refine ⟨fun j hj => (hkept j (by omega)).trans (hother j (.inl hj)),
    fun j hle hj => (hkept j hj).trans (hrun j hle (by omega)), ?_⟩
  split at hnext
  · next hmore =>
    obtain ⟨hpoint, hfsm, hread⟩ := hnext
    rw [if_pos hmore]
    exact ⟨hpoint, hfsm, fun j hj => (hread j hj).trans (hother j (by omega))⟩
  · next hmore =>
    rw [if_neg hmore]
    exact hnext

theorem widths_cl {l : Nat} {i : Instr} (h : clInstr l = some i) (s : State) : s.widths i = [s.ptLen.read (l + 2)] := by
  unfold clInstr at h
  split at h <;> cases h <;> rfl

/-- Settles O18: the element consumes its code and stores its length (`storeCLength_stores`). -/
theorem cLengthEntryIsStored : Obligations.CLengthEntryIsStored := by
  unfold Obligations.CLengthEntryIsStored
  intro s l number idx i hl hready hfit hp
  have hslot := slot_of_clInstr hl
  have hi := index_lt_of_citem (hslot ▸ standsAt_of_ready hready (by rw [hslot]; decide)) hp
  have hw := widths_cl hl s
  have hw32 := widths_le hfit i
  rw [hw] at hw32
  have he : Effect (s.consume [s.ptLen.read (l + 2)]) .citem ((s.consume [s.ptLen.read (l + 2)]).storeCLength l) :=
    .clength l (clInstr_le hl)
  have hst := storeCLength_stores (u := s.consume [s.ptLen.read (l + 2)]) ((consume_point s _).trans hp) hi l
  simp only [consume_cLen, consume_fsm] at hst
  obtain ⟨hself, hbelow, hnext⟩ := hst
  exact ⟨_, exec_of_ready (k := fun u => .next (u.storeCLength l)) (exec_cl hl s) hready hw, hself, hbelow, hnext,
    he.advancedBy hw32, he.sameBytes (by decide) (by decide), cFrom_of_consume (storeCLength_frame _ l)⟩

/-- The three zero runs: a T code, the operand's bits if it has any, then the run (R186 to R188). -/
theorem exec_zeroRun {s : State} {i : Instr} {run width : Nat}
    (h : (i = .cz1 ∧ run = 1 ∧ width = s.ptLen.read 0) ∨
      (∃ r, i = .czs r ∧ run = r.toNat + 3 ∧ width = s.ptLen.read 1 + 4) ∨
      (∃ r, i = .czl r ∧ run = r.toNat + 20 ∧ width = s.ptLen.read 2 + 9)) :
    (exec i s = s.element i fun u => .next (u.zeroRun run)) ∧ width = (s.widths i).sum ∧ i.slot = .citem := by
  obtain ⟨rfl, rfl, rfl⟩ | ⟨r, rfl, rfl, rfl⟩ | ⟨r, rfl, rfl, rfl⟩ := h <;> exact ⟨rfl, rfl, rfl⟩

/-- Settles O19: the element consumes its bits in full (`exec_zeroRun`) and its run is cut at the array's end
(`zeroRun_zeroes`). -/
theorem zeroRunStopsAtTheLastEntry : Obligations.ZeroRunStopsAtTheLastEntry := by
  unfold Obligations.ZeroRunStopsAtTheLastEntry
  intro s number idx run width i hi hready hfit hp
  obtain ⟨hexec, rfl, hslot⟩ := exec_zeroRun hi
  have hidx := index_lt_of_citem (hslot ▸ standsAt_of_ready hready (by rw [hslot]; decide)) hp
  have he : Effect (s.consume (s.widths i)) .citem ((s.consume (s.widths i)).zeroRun run) := .zeroRun run
  have hst := zeroRun_zeroes (u := s.consume (s.widths i)) ((consume_point s _).trans hp) hidx run
  simp only [consume_cLen, consume_fsm] at hst
  obtain ⟨hbelow, hzero, hnext⟩ := hst
  exact ⟨_, exec_of_ready (k := fun u => .next (u.zeroRun run)) hexec hready rfl, hbelow, hzero, hnext,
    he.advancedBy (widths_le hfit i), he.sameBytes (by decide) (by decide), cFrom_of_consume (zeroRun_frame _ run)⟩

end Sys2Proof.Machine
end

section
/-! The copy of a match (R234 to R238): byte by byte from `d` bytes back, so that the last `d` bytes repeat (R237). -/

namespace Sys2Proof.Machine

theorem copyLoop_of_room {s : State} (m src : Nat) (h : s.outPos < s.origSize.toNat) :
    State.copyLoop (m + 1) src s = State.copyLoop m (src + 1) (s.putByte (s.dst.read src)) := if_pos h

theorem copyLoop_of_full {s : State} (m src : Nat) (h : ¬ s.outPos < s.origSize.toNat) :
    State.copyLoop (m + 1) src s = s := if_neg h

theorem putByte_outPos {s : State} (v : Byte) (h : s.outPos < s.origSize.toNat) : (s.putByte v).outPos = s.outPos + 1 := by
  rw [putByte_of_room v h]

theorem putByte_read {s : State} (v : Byte) (hwf : s.dst.wf = true) (h : s.outPos < s.origSize.toNat) (a : Nat) :
    (s.putByte v).dst.read a = if a = s.outPos then v else s.dst.read a := by
  rw [putByte_of_room v h]
  exact Memory.read_write hwf s.outPos a v

/-- A copy writes its bytes, cut at `origSize` (R238). -/
theorem copyLoop_outPos (m src : Nat) {s : State} (hroom : s.outPos ≤ s.origSize.toNat) :
    (State.copyLoop m src s).outPos = min (s.outPos + m) s.origSize.toNat := by
  induction m generalizing src s with
  | zero => exact (Nat.min_eq_left hroom).symm
  | succ m ih =>
    by_cases h : s.outPos < s.origSize.toNat
    · rw [copyLoop_of_room m src h, ih _ (by rw [putByte_outPos _ h, putByte_origSize]; exact h), putByte_outPos _ h,
        putByte_origSize, Nat.add_right_comm, Nat.add_assoc]
    · rw [copyLoop_of_full m src h]
      omega

/-- The byte a period before the next position: the byte just written from there, or the old one behind it. -/
theorem putByte_read_periodic {s : State} {d : Nat} (hwf : s.dst.wf = true) (h : s.outPos < s.origSize.toNat) (hd : 0 < d)
    (hback : d ≤ s.outPos) (k : Nat) :
    (s.putByte (s.dst.read (s.outPos - d))).dst.read (s.outPos + 1 - d + k % d) =
      s.dst.read (s.outPos - d + (k + 1) % d) := by
  have hlt := Nat.mod_lt k hd
  rw [putByte_read _ hwf h, ← Nat.mod_add_mod k d 1]
  by_cases hwrap : k % d + 1 = d
  · rw [if_pos (by omega), hwrap, Nat.mod_self, Nat.add_zero]
  · rw [if_neg (by omega), Nat.mod_eq_of_lt (show k % d + 1 < d by omega)]
    congr 1
    omega

/-- Byte `k` of a copy from `d` bytes back is byte `k mod d` of the last `d` bytes (R237). -/
theorem copyLoop_read_periodic {m d : Nat} {s : State} (hwf : s.dst.wf = true) (hd : 0 < d) (hback : d ≤ s.outPos) {k : Nat}
    (hk : k < m) (hroom : s.outPos + k < s.origSize.toNat) :
    (State.copyLoop m (s.outPos - d) s).dst.read (s.outPos + k) = s.dst.read (s.outPos - d + k % d) := by
  induction m generalizing s k with
  | zero => exact absurd hk (Nat.not_lt_zero k)
  | succ m ih =>
    have h : s.outPos < s.origSize.toNat := by omega
    rw [copyLoop_of_room m _ h, ← Nat.sub_add_comm hback]
    have hpos := putByte_outPos (s.dst.read (s.outPos - d)) h
    have hwf' := putByte_dstWf (s.dst.read (s.outPos - d)) hwf
    have horig := congrArg BitVec.toNat (putByte_origSize s (s.dst.read (s.outPos - d)))
    have hbyte := putByte_read_periodic hwf h hd hback
    have hread := putByte_read (s.dst.read (s.outPos - d)) hwf h
    generalize s.putByte (s.dst.read (s.outPos - d)) = v at *
    rw [← hpos]
    cases k with
    | zero =>
      have hup := copyLoop_writesUp m (v.outPos - d) hwf' (by omega)
      rw [hup.kept _ (.inl (by omega)), hread, if_pos (Nat.add_zero _), Nat.zero_mod, Nat.add_zero]
    | succ k =>
      have hnext := ih hwf' (by omega) (Nat.lt_of_succ_lt_succ hk) (by omega)
      rw [show s.outPos + (k + 1) = v.outPos + k by omega, hnext, hpos, hbyte]

/-! ### `OFF.c x` -/

theorem widths_off {c x : Nat} {i : Instr} (h : offInstr c x = some i) (s : State) :
    (s.widths i).sum = s.ptLen.read c + (c - 1) := by
  unfold offInstr at h
  split at h <;> cases h <;> rfl

theorem copyMatch_of_back {u : State} {m off : Nat} (hp : u.point = .offset m) (h : off + 1 ≤ u.outPos) :
    u.copyMatch off = .next { State.copyLoop m (u.outPos - off - 1) u with point := .start } := by
  simp only [State.copyMatch, hp]
  exact if_neg (by omega)

/-- `t` with all that a match's copy may write as in `s`. -/
def State.copyFrom (t s : State) : State := { t with dst := s.dst, outPos := s.outPos, point := s.point }

/-- Settles O24: the element consumes its code and extra bits and copies from `off + 1` bytes back (`copyLoop_read_periodic`),
writing DST upwards only (`copyLoop_writesUp`). -/
theorem offsetCopiesTheMatch : Obligations.OffsetCopiesTheMatch := by
  unfold Obligations.OffsetCopiesTheMatch
  intro s c x m off i hi hx hoff hready hfit hwf hp hback hroom
  have hexec : exec i s = s.element i fun u => u.copyMatch off := by
    rw [exec_off hi, Nat.mod_eq_of_lt hx, hoff]
    rfl
  have hpos : (s.consume (s.widths i)).outPos = s.outPos := consume_outPos s _
  have horig : (s.consume (s.widths i)).origSize.toNat = s.origSize.toNat := by rw [consume_origSize]
  have hdst : (s.consume (s.widths i)).dst = s.dst := consume_dst s _
  have hpoint : (s.consume (s.widths i)).point = .offset m := (consume_point s _).trans hp
  have he := Effect.copy m off hpoint (by omega)
  have hadv := he.advancedBy (widths_le hfit i)
  rw [widths_off hi] at hadv
  have hup := he.writesUp_of_consume hwf hroom
  have hframe := copyLoop_frame m ((s.consume (s.widths i)).outPos - off - 1) (s.consume (s.widths i))
  refine ⟨_, (exec_of_ready hexec hready rfl).trans (copyMatch_of_back hpoint (by omega)), ?_, fun k hk hlt => ?_, hup.kept,
    fun a => by rw [he.keeps.src], rfl, hadv, ?_⟩
  · exact (copyLoop_outPos m _ (by omega)).trans (by rw [hpos, horig])
  · have hread := copyLoop_read_periodic (d := off + 1) (hdst ▸ hwf) (Nat.succ_pos off) (by omega) hk (by omega)
    rw [hpos, hdst, Nat.sub_add_eq] at hread
    rw [hpos]
    exact hread
  · exact (congrArg (fun v => (v.readerFrom s).copyFrom s) hframe :).trans
      (congrArg (·.copyFrom s) (consume_frame s (s.widths i)))

end Sys2Proof.Machine
end

section
/-! The block decoder's bookkeeping (R212 to R215): what `BLKSIZE` leaves, how the counter runs down, and the edges that the
states follow. -/

namespace Sys2Proof.Machine

/-! ### `BLKSIZE n` (R213) -/

/-- `t` with all that a `BLKSIZE` may write past its guard as in `s`. -/
def State.blockFrom (t s : State) : State := { t with blockCount := s.blockCount, fsm := s.fsm, point := s.point }

/-- Settles O12: the element's effect is `Effect.blksize`, behind the 16 bits it consumes. -/
theorem blockSizeOpensTheHeader : Obligations.BlockSizeOpensTheHeader := by
  unfold Obligations.BlockSizeOpensTheHeader
  intro s n hready
  have hrun : (s.consume [16]).run = .decode := (consume_run s _).trans (run_of_slot hready.1 nofun)
  have he : Effect (s.consume [16]) .blksize _ := .blksize n
  exact ⟨_, exec_of_ready (k := fun u => .next { u with blockCount := n, fsm := .readExtraLengths, point := .start })
    rfl hready rfl, rfl, rfl, slot_of_standsAt (sl := .tcount) hrun ⟨rfl, rfl⟩, he.advancedBy (by simp),
    he.sameBytes (by decide) (by decide), (congrArg (·.blockFrom s) (consume_frame s [16]) :)⟩

/-! ### The block counter (R214) -/

/-- A counted symbol asks for a header exactly where it leaves no symbol in the block. -/
theorem countSymbol_fsm_iff (s : State) : s.countSymbol.fsm = .needNewBlock ↔ s.countSymbol.blockCount = 0 := by
  rw [countSymbol_fsm, countSymbol_blockCount]
  split
  · next h => exact iff_of_true rfl h
  · next h => exact iff_of_false nofun h

theorem iterate_countSymbol_blockCount (s : State) (k : Nat) :
    (State.countSymbol^[k] s).blockCount = s.blockCount - BitVec.ofNat 16 k := by
  induction k with
  | zero => simp
  | succ k ih =>
    rw [Function.iterate_succ_apply', countSymbol_blockCount, ih]
    bv_omega

/-- Settles O21: the counter is `k` down after `k` symbols (`iterate_countSymbol_blockCount`), modulo 65536. -/
theorem blockEndsAfterItsSymbols : Obligations.BlockEndsAfterItsSymbols := by
  unfold Obligations.BlockEndsAfterItsSymbols
  intro s k hk hle
  obtain ⟨j, rfl⟩ : ∃ j, k = j + 1 := ⟨k - 1, by omega⟩
  have hcount := iterate_countSymbol_blockCount s (j + 1)
  rw [Function.iterate_succ_apply'] at hcount ⊢
  rw [countSymbol_fsm_iff, hcount]
  by_cases h0 : s.blockCount = 0
  · rw [if_pos h0] at hle ⊢
    rw [h0]
    bv_omega
  · rw [if_neg h0] at hle ⊢
    bv_omega

/-! ### The states (R215) -/

/-- The state machine stays or takes an edge of R215's table. -/
def FsmMoves (s t : State) : Prop := t.fsm = s.fsm ∨ (s.fsm, t.fsm) ∈ fsmEdges

theorem FsmMoves.of_edge {s t : State} {f : Fsm} (g : Fsm) (hs : s.fsm = f) (ht : t.fsm = g) (h : (f, g) ∈ fsmEdges) :
    FsmMoves s t := .inr (hs ▸ ht ▸ h)

theorem nextPTEntry_fsmMoves {u : State} (hf : u.fsm = .readExtraLengths ∨ u.fsm = .readOffsetLengths) (number idx : Nat) :
    FsmMoves u (u.nextPTEntry number idx) := by
  unfold State.nextPTEntry
  split
  · exact .inl rfl
  split
  · next hT => exact .of_edge .buildExtraTable hT rfl (by decide)
  · next hT => exact .of_edge .buildOffsetTable (hf.resolve_left hT) rfl (by decide)

theorem nextCItem_fsmMoves {u : State} (hf : u.fsm = .readLiteralLengths) (number idx : Nat) :
    FsmMoves u (u.nextCItem number idx) := by
  unfold State.nextCItem
  split
  · exact .inl rfl
  · exact .of_edge .buildLiteralTable hf rfl (by decide)

/-- A symbol is counted in a block (R214). -/
theorem countSymbol_fsmMoves {u : State} (hf : u.fsm = .decodingBlock) : FsmMoves u u.countSymbol := by
  obtain ⟨hg | hg, _⟩ := countSymbol_fsm_cases u
  · exact .of_edge .needNewBlock hf hg (by decide)
  · exact .of_edge .decodingBlock hf hg (by decide)

/-- A meaning at its position follows the table. -/
theorem Meaning.fsmMoves {sl : Slot} {k : State → Result} (hk : Meaning sl k) {u t : State} (hu : u.standsAt sl)
    (h : k u = .next t) : FsmMoves u t := by
  cases hk with
  | blksize n =>
    cases h
    exact .of_edge .readExtraLengths hu.2 rfl (by decide)
  | count a n =>
    cases h
    exact .inl rfl
  | degenerate a c =>
    obtain ⟨_, he⟩ | ⟨_, he⟩ := degenerate_cases u a c <;> simp only [he] at h <;> cases h
    exact .of_edge (buildState a) (standsAt_countSlot.1 hu).2 rfl (by cases a <;> decide)
  | ptlen l =>
    obtain ⟨number, idx, hp, hf, _⟩ := hu
    cases h
    rw [storePTLength_of_entries hp]
    split
    · exact .inl rfl
    · exact nextPTEntry_fsmMoves (u := { u with ptLen := u.ptLen.write idx l }) hf number (idx + 1)
  | tskip r =>
    obtain ⟨number, hp, hf⟩ := hu
    cases h
    rw [skipEntries_of_skip hp]
    exact nextPTEntry_fsmMoves (u := { u with ptLen := u.ptLen.fill 3 r 0 }) (.inl hf) number _
  | clength l =>
    obtain ⟨number, idx, hp, hf, _⟩ := hu
    cases h
    rw [storeCLength_of_entries hp]
    exact nextCItem_fsmMoves (u := { u with cLen := u.cLen.write idx l }) hf number _
  | zeroRun r =>
    obtain ⟨number, idx, hp, hf, _⟩ := hu
    cases h
    rw [zeroRun_of_entries hp]
    exact nextCItem_fsmMoves (u := { u with cLen := u.cLen.fill idx r 0 }) hf number _
  | lit b =>
    cases h
    have hput : (u.countSymbol.putByte b).fsm = u.countSymbol.fsm := (congrArg State.fsm (putByte_frame u.countSymbol b) :)
    unfold FsmMoves
    rw [hput]
    exact countSymbol_fsmMoves hu.2
  | matchLen m =>
    cases h
    exact countSymbol_fsmMoves hu.2
  | copy off =>
    obtain ⟨m, _, _, rfl⟩ := copyMatch_next h
    exact .inl (congrArg State.fsm (copyLoop_frame m (u.outPos - off - 1) u) :)

theorem slot_of_decodeRaw_lengthAbove16 {pBit : Nat} {sl : Slot} {b : List Bool}
    (h : decodeRaw pBit sl b = .error .lengthAbove16) : sl = .ptlen := by
  cases sl with
  | ptlen => rfl
  | hdr | blksize | tskip | citem | csym | off => cases h
  | tcount | pcount | ccount =>
    simp only [decodeRaw] at h
    split at h <;> cases h

theorem decodeCoded_ne_lengthAbove16 {sl : Slot} {sym : Nat} {b : List Bool} :
    decodeCoded sl sym b ≠ .error .lengthAbove16 := by
  cases sl with
  | citem | csym | off =>
    simp only [decodeCoded]
    repeat' split
    all_goals nofun
  | hdr | blksize | tcount | pcount | ccount | ptlen | tskip => nofun

/-- A length above 16 is read at a `PTLEN` only (R178). -/
theorem slot_of_lengthAbove16 {s : State} (h : s.fetch = .error .lengthAbove16) : s.slot = some .ptlen := by
  cases hsl : s.slot with
  | none => simp [State.fetch, hsl] at h
  | some sl =>
    obtain ⟨_, he⟩ | ⟨_, _, he | ⟨_, _, he⟩⟩ := fetch_cases hsl <;> rw [he] at h
    · rw [slot_of_decodeRaw_lengthAbove16 h]
    · cases h
    · exact absurd h decodeCoded_ne_lengthAbove16

theorem runElement_fsmMoves {s t : State} (hrun : s.run = .decode) (h : runElement s = .next t) : FsmMoves s t := by
  unfold runElement at h
  split at h
  · next i hf =>
    obtain ⟨sl, hsl, he⟩ := fetch_elementOf hf
    obtain ⟨k, hexec, hk⟩ := he.meaning (slot_ne_hdr hrun hsl)
    obtain ⟨_, hnext⟩ := element_next ((hexec s).symm.trans h)
    have hmoves := hk.fsmMoves (standsAt_consume _ (standsAt_of_slot hrun hsl)) hnext
    unfold FsmMoves at hmoves ⊢
    rwa [consume_fsm] at hmoves
  · next r hf =>
    cases r <;> cases h
    obtain ⟨_, _, _, hT | hP, _⟩ := standsAt_of_slot hrun (slot_of_lengthAbove16 hf)
    · exact .of_edge .failed hT rfl (by decide)
    · exact .of_edge .failed hP rfl (by decide)

theorem fsm_of_building {s : State} {a : Alphabet} (h : s.building = some a) : s.fsm = buildState a := by
  cases hf : s.fsm <;> simp [State.building, hf] at h <;> subst h <;> rfl

theorem buildTable_fsmMoves {s : State} {a : Alphabet} (h : s.building = some a) : FsmMoves s (s.buildTable a) := by
  obtain ⟨_, hf, _⟩ | he := buildTable_next s a
  · exact .of_edge (afterBuild a) (fsm_of_building h) hf (by cases a <;> decide)
  · rw [he]
    exact .of_edge .failed (fsm_of_building h) rfl (by cases a <;> decide)

/-- Settles O47: the loop test leaves the state, a Build state takes its edges (`buildTable_fsmMoves`), and so does each
meaning at its position (`Meaning.fsmMoves`). -/
theorem fsmFollowsItsTable : Obligations.FsmFollowsItsTable := by
  unfold Obligations.FsmFollowsItsTable
  intro s t hrun h
  change FsmMoves s t
  simp only [step, hrun] at h
  split at h
  · cases h
    exact .inl rfl
  split at h
  · cases h
  split at h
  · next a hb =>
    cases h
    exact buildTable_fsmMoves hb
  · exact runElement_fsmMoves hrun h

end Sys2Proof.Machine
end

section
/-! Runs, and what it is for a run to follow an operation of the spec's pseudocode (R15, R17). -/

namespace Sys2Proof.Machine

/-! ### Runs -/

/-- Some number of steps from `s` ends in `r`. -/
def Reaches (s : State) (r : Result) : Prop := ∃ k, Host.Core.run Sys2Proof.core k s = r

theorem reaches_refl (s : State) : Reaches s (.next s) := ⟨0, rfl⟩

theorem core_run_succ {s t : State} (h : step s = .next t) (k : Nat) :
    Host.Core.run Sys2Proof.core (k + 1) s = Host.Core.run Sys2Proof.core k t := by
  have hc : Sys2Proof.core.step s = .next t := h
  simp only [Host.Core.run, hc]

theorem Reaches.of_step {s t : State} {r : Result} (h : step s = .next t) (ht : Reaches t r) : Reaches s r := by
  obtain ⟨k, hk⟩ := ht
  exact ⟨k + 1, (core_run_succ h k).trans hk⟩

theorem core_run_fault {s : State} {f : Fault} (h : step s = .fault f) (k : Nat) :
    Host.Core.run Sys2Proof.core (k + 1) s = .fault f := by
  have hc : Sys2Proof.core.step s = .fault f := h
  simp only [Host.Core.run, hc]

theorem core_run_refused {s : State} {r : Refusal} (h : step s = .refused r) (k : Nat) :
    Host.Core.run Sys2Proof.core (k + 1) s = .refused r := by
  have hc : Sys2Proof.core.step s = .refused r := h
  simp only [Host.Core.run, hc]

theorem reaches_of_fault {s : State} {f : Fault} (h : step s = .fault f) : Reaches s (.fault f) :=
  ⟨1, core_run_fault h 0⟩

theorem Reaches.trans {s t : State} {r : Result} (h : Reaches s (.next t)) (ht : Reaches t r) : Reaches s r := by
  obtain ⟨k, hk⟩ := h
  induction k generalizing s with
  | zero =>
    cases hk
    exact ht
  | succ k ih =>
    cases hs : step s with
    | next u => exact .of_step hs (ih ((core_run_succ hs k).symm.trans hk))
    | fault f => cases (core_run_fault hs k).symm.trans hk
    | refused f => cases (core_run_refused hs k).symm.trans hk

/-! ### Following an operation -/

/-- The run from `m` does what the operation `o` does: where `o` returns, it reaches a state that `Q` ties to what `o` returned;
where `o` raises `BadTable` or a fault, the run ends with that. -/
def Follows {α : Type} (m : State) (o : Op α) (Q : α → State → State → Prop) : Prop :=
  match o with
  | .ok (v, t) => ∃ n, Reaches m (.next n) ∧ Q v t n
  | .error (.badTable t) => Reaches m (.next t.raiseBadTable)
  | .error (.fault f) => Reaches m (.fault f)

/-- One operation after another; the first that stops stops the whole. -/
def Op.andThen {α β : Type} (o : Op α) (g : α → State → Op β) : Op β :=
  match o with
  | .ok (v, t) => g v t
  | .error e => .error e

theorem andThen_ok {α β : Type} (r : α × State) (g : α → State → Op β) : Op.andThen (.ok r) g = g r.1 r.2 := rfl

theorem andThen_error {α β : Type} (e : Stop) (g : α → State → Op β) : Op.andThen (.error e) g = .error e := rfl

section
variable {α β : Type} {m n : State} {Q : α → State → State → Prop} {R : β → State → State → Prop}

theorem follows_ok {v : α} {t : State} (h : Q v t m) : Follows m (.ok (v, t)) Q := ⟨m, reaches_refl m, h⟩

theorem follows_fault {f : Fault} (h : step m = .fault f) : Follows m (.error (.fault f)) Q := reaches_of_fault h

theorem follows_badTable {t : State} (h : step m = .next t.raiseBadTable) : Follows m (.error (.badTable t)) Q :=
  .of_step h (reaches_refl _)

theorem Follows.of_reaches {o : Op α} (hm : Reaches m (.next n)) (h : Follows n o Q) : Follows m o Q := by
  obtain ⟨t | f⟩ | ⟨v, t⟩ := o
  · exact hm.trans h
  · exact hm.trans h
  · obtain ⟨n', hn, hq⟩ := h
    exact ⟨n', hm.trans hn, hq⟩

theorem Follows.of_step {o : Op α} (hm : step m = .next n) (h : Follows n o Q) : Follows m o Q :=
  .of_reaches (.of_step hm (reaches_refl n)) h

theorem Follows.andThen {o : Op α} {g : α → State → Op β} (h : Follows m o Q)
    (hg : ∀ v t n, Q v t n → Follows n (g v t) R) : Follows m (o.andThen g) R := by
  obtain ⟨t | f⟩ | ⟨v, t⟩ := o
  · exact h
  · exact h
  · obtain ⟨n, hn, hq⟩ := h
    exact .of_reaches hn (hg v t n hq)

end

end Sys2Proof.Machine
end

section
/-! The state of a pass and the machine's: the machine holds the pass's state, but for `fsm` and `point`, which say where in the
pass it stands (assumption log 1). What the pass does never looks at these two. -/

namespace Sys2Proof.Machine

/-- The state at another place: another block counter, `fsm` and `point`. -/
def State.atBlock (u : State) (b : BitVec 16) (f : Fsm) (p : Point) : State := { u with blockCount := b, fsm := f, point := p }

/-- The state at another place of the same block. -/
def State.placed (u : State) (f : Fsm) (p : Point) : State := { u with fsm := f, point := p }

theorem placed_eq_self {u : State} {f : Fsm} {p : Point} (hf : u.fsm = f) (hp : u.point = p) : u.placed f p = u := by
  subst hf hp
  rfl

/-! ### What does not see the place -/

section
variable (u : State) (b : BitVec 16) (f : Fsm) (p : Point)

theorem refill_atBlock (k : Nat) : (u.atBlock b f p).refill k = (u.refill k).atBlock b f p := by
  simp only [State.refill, apply_ite (State.atBlock · b f p)]
  rfl

theorem refillLoop_atBlock (k fuel : Nat) :
    (u.atBlock b f p).refillLoop k fuel = ((u.refillLoop k fuel).1.atBlock b f p, (u.refillLoop k fuel).2) := by
  induction fuel generalizing u k with
  | zero => rfl
  | succ fuel ih =>
    unfold State.refillLoop
    by_cases hlt : u.bitCount < k
    · rw [if_pos hlt, ← ih, ← refill_atBlock]
      exact if_pos hlt
    · rw [if_neg hlt]
      exact if_neg hlt

theorem fillBits_atBlock (n : Nat) : (u.atBlock b f p).fillBits n = (u.fillBits n).atBlock b f p := by
  have hloop := refillLoop_atBlock { u with bitBuf := u.bitBuf <<< n } b f p n 5
  unfold State.atBlock at hloop
  simp only [State.fillBits, State.atBlock, hloop]

theorem fillBits_placed (n : Nat) : (u.placed f p).fillBits n = (u.fillBits n).placed f p :=
  (fillBits_atBlock u u.blockCount f p n).trans (by simp [State.atBlock, State.placed])

/-- Counting a symbol before its code is consumed, as `decodeC` does, is counting it after. -/
theorem fillBits_countSymbol (n : Nat) : u.countSymbol.fillBits n = (u.fillBits n).countSymbol :=
  (fillBits_atBlock u u.countSymbol.blockCount u.countSymbol.fsm u.point n).trans
    (by simp [State.atBlock, State.countSymbol])

theorem placed_lookupSym (a : Alphabet) : (u.placed f p).lookupSym a = u.lookupSym a := by cases a <;> rfl

theorem placed_codeLength (a : Alphabet) (sym : Nat) : (u.placed f p).codeLength a sym = u.codeLength a sym := by
  cases a <;> rfl

theorem build_placed (a : Alphabet) : (u.placed f p).build a = (u.build a).map (·.placed f p) := by
  cases a <;> simp only [State.build, Option.map_map] <;> rfl

theorem putByte_placed (v : Byte) : (u.placed f p).putByte v = (u.putByte v).placed f p := by
  simp only [State.putByte, apply_ite (State.placed · f p)]
  rfl

theorem copyLoop_placed (m src : Nat) : State.copyLoop m src (u.placed f p) = (State.copyLoop m src u).placed f p := by
  induction m generalizing u src with
  | zero => rfl
  | succ m ih =>
    simp only [State.copyLoop, apply_ite (State.placed · f p), ← ih, ← putByte_placed]
    rfl

end

end Sys2Proof.Machine
end

section
/-! The machine inside a pass: its steps in terms of the pass's state. -/

namespace Sys2Proof.Machine

/-! ### Fields of the window -/

/-- A field at the head of the window is what `peekBits` gives (R135). -/
theorem field_windowBits {n : Nat} (hn : n ≤ 32) (s : State) : field n (windowBits s.bitBuf) = s.peekBits n := by
  have hadd := field_add n (32 - n) (windowBits s.bitBuf)
  have hall : field 32 (windowBits s.bitBuf) = s.bitBuf.toNat :=
    (field_toBits 32 _).trans (Nat.mod_eq_of_lt s.bitBuf.isLt)
  rw [Nat.add_sub_cancel' hn, hall] at hadd
  rw [State.peekBits, BitVec.toNat_ushiftRight, Nat.shiftRight_eq_div_pow, hadd, Nat.mul_add_div (Nat.two_pow_pos _),
    Nat.div_eq_of_lt (field_lt _ _), Nat.add_zero]

theorem streamValue_add (s : State) (a n k : Nat) :
    s.streamValue a (n + k) = 2 ^ k * s.streamValue a n + s.streamValue (a + n) k := by
  induction k with
  | zero => simp [State.streamValue]
  | succ k ih =>
    rw [← Nat.add_assoc, State.streamValue, State.streamValue, ih, Nat.pow_succ, Nat.add_assoc a]
    ring

/-- The field behind it is what `peekBits` gives once the first is consumed (R136, R137). -/
theorem field_drop_windowBits {s : State} {p n k : Nat} (h : ReaderAt s p) (hnk : n + k ≤ 32) :
    field k ((windowBits s.bitBuf).drop n) = (s.fillBits n).peekBits k := by
  have hadd := field_add n k (windowBits s.bitBuf)
  rw [field_windowBits hnk, field_windowBits (by omega), peekBits_eq_streamValue hnk h,
    peekBits_eq_streamValue (by omega) h, streamValue_add] at hadd
  rw [peekBits_eq_streamValue (by omega) (fillBits_readerAt (by omega) h),
    streamValue_congr (fillBits_compSize s n) (fillBits_src s n)]
  exact (Nat.add_left_cancel hadd).symm

/-! ### The machine inside a pass -/

/-- What no step inside a pass moves before the symbol's bytes are written. -/
def State.command (s : State) : Run × Nat × BitVec 32 := (s.run, s.outPos, s.origSize)

@[simp] theorem fillBits_command (s : State) (n : Nat) : (s.fillBits n).command = s.command := by
  simp [State.command]

/-- The machine at `m` is inside a pass whose own state is `u`, from which `m` differs by its place (`placed`). -/
structure InPass (u m : State) : Prop where
  inv : m.Inv
  run : m.run = .decode
  room : m.hasRoom = true
  start : u.point = .start

/-- The pass goes on where the machine's step does. -/
theorem InPass.next {u m v n : State} (h : InPass u m) (hstep : step m = .next n) (hkeep : n.command = m.command)
    (hp : v.point = u.point) : InPass v n := by
  simp only [State.command, Prod.mk.injEq] at hkeep
  obtain ⟨hrun, hpos, horig⟩ := hkeep
  refine ⟨everyStepKeepsTheInvariant m n h.inv hstep, hrun.trans h.run, ?_, hp.trans h.start⟩
  simpa only [State.hasRoom, hpos, horig] using h.room

section
variable {u m : State} (h : InPass u m)
include h

theorem InPass.inBounds : m.inBounds = true := (h.inv.running h.run).inBounds

theorem InPass.pWidth_le : m.pWidth ≤ 5 := by simp [State.pWidth, h.inv.wired]

theorem InPass.step_eq_runElement {sl : Slot} (hs : m.standsAt sl) : step m = runElement m :=
  step_of_decode h.run (fun _ => h.room) h.inBounds (building_of_standsAt hs)

/-- The element that the fetch reads runs, behind the bits it consumes. -/
theorem InPass.step_of_fetch {sl : Slot} {i : Instr} {k : State → Result} (hs : m.standsAt sl) (hf : m.fetch = .ok i)
    (hexec : exec i m = m.element i k) : step m = k (m.consume (m.widths i)) := by
  obtain ⟨sl', hsl, he⟩ := fetch_elementOf hf
  rw [h.step_eq_runElement hs, runElement_of_fetch hf, hexec,
    element_ready k ⟨by rw [hsl, he.slot], he.wellFormed h.pWidth_le, h.inBounds⟩]

theorem InPass.step_of_reject {sl : Slot} {r : Reject} (hs : m.standsAt sl) (hf : m.fetch = .error r) :
    step m = m.rejectElement r := by
  rw [h.step_eq_runElement hs]
  simp only [runElement, hf]

theorem InPass.fetch_raw {sl : Slot} (hs : m.standsAt sl) (ha : sl.alphabet = none) :
    m.fetch = decodeRaw m.pWidth sl (windowBits m.bitBuf) := by
  have hsl := slot_of_standsAt h.run hs
  rw [fetch_of_raw hsl ha, State.rawAt, if_neg (slot_ne_hdr h.run hsl)]

theorem InPass.step_build {a : Alphabet} (hf : m.fsm = buildState a) : step m = .next (m.buildTable a) :=
  step_of_building h.run (building_of_buildState m a hf) h.inBounds

end

/-! ### The lookup -/

theorem walk_lt {nn : Nat} {left right : Tab Config.NODECAP} {w : Window} {fuel v sym : Nat}
    (h : walk nn left right w fuel v = some sym) : sym < nn := by
  induction fuel generalizing v with
  | zero =>
    unfold walk at h
    split at h <;> cases h
    assumption
  | succ fuel ih =>
    unfold walk at h
    split at h
    · cases h
      assumption
    split at h
    · exact ih h
    · cases h

/-- A lookup finds symbols of its alphabet only (R159). -/
theorem lookupSym_lt {s : State} {a : Alphabet} {sym : Nat} (h : s.lookupSym a = some sym) : sym < alphabetSize a := by
  cases a <;> exact walk_lt h

/-- Where the lookup fails, the machine stops, and so does `decodeSym`. -/
theorem InPass.step_noCode {u m : State} {sl : Slot} {a : Alphabet} (h : InPass u m) (hs : m.standsAt sl)
    (ha : sl.alphabet = some a) (hm : m.lookupSym a = none) : step m = .fault .lookupOverrun := by
  have hf : m.fetch = .error .noCode := by simp only [State.fetch, slot_of_standsAt h.run hs, ha, hm]
  exact h.step_of_reject hs hf

theorem decodeSym_of_none {u : State} {a : Alphabet} (hu : u.lookupSym a = none) :
    u.decodeSym a = .error (.fault .lookupOverrun) := by
  simp only [State.decodeSym, hu]

theorem decodeSym_of_some {u : State} {a : Alphabet} {sym : Nat} (hu : u.lookupSym a = some sym) :
    u.decodeSym a = .ok (sym, u.fillBits (u.codeLength a sym)) := by
  simp only [State.decodeSym, hu]

/-! ### Counts and degenerate descriptions (R177, R184) -/

/-- The width of an alphabet's count field and of its degenerate symbol (R176, R183). -/
def State.countWidth (s : State) : Alphabet → Nat
  | .T => Config.TBIT
  | .C => Config.CBIT
  | .P => s.pWidth

theorem placed_countWidth (u : State) (f : Fsm) (p : Point) (a : Alphabet) :
    (u.placed f p).countWidth a = u.countWidth a := by cases a <;> rfl

theorem placed_peekBits (u : State) (f : Fsm) (p : Point) (n : Nat) : (u.placed f p).peekBits n = u.peekBits n := rfl

section
variable {u m : State} {a : Alphabet} (h : InPass u m) (hs : m.standsAt (countSlot a))
include h

theorem InPass.countWidth_le (a : Alphabet) : m.countWidth a ≤ 9 := by
  have hp := h.pWidth_le
  cases a with
  | T => exact (by decide : Config.TBIT ≤ 9)
  | C => exact Nat.le_refl 9
  | P => exact hp.trans (by decide)

include hs

/-- A count field that is not zero opens the entries. -/
theorem InPass.step_count (hn : m.peekBits (m.countWidth a) ≠ 0) :
    step m = .next ((m.fillBits (m.countWidth a)).startEntries (m.peekBits (m.countWidth a))) := by
  have hw := h.countWidth_le a
  have hfetch := h.fetch_raw hs (by cases a <;> rfl)
  rw [← field_windowBits (by omega)] at hn ⊢
  generalize windowBits m.bitBuf = b at *
  cases a with
  | T =>
    exact h.step_of_fetch (k := fun t => .next (t.startEntries (field 5 b))) hs (hfetch.trans (if_neg hn))
      (congrArg (fun n => m.element _ fun t => .next (t.startEntries n)) (toNat_ofNat_field 5 b))
  | C =>
    exact h.step_of_fetch (k := fun t => .next (t.startEntries (field 9 b))) hs (hfetch.trans (if_neg hn))
      (congrArg (fun n => m.element _ fun t => .next (t.startEntries n)) (toNat_ofNat_field 9 b))
  | P =>
    exact h.step_of_fetch (k := fun t => .next (t.startEntries (field m.pWidth b))) hs (hfetch.trans (if_neg hn))
      (congrArg (fun n => m.element _ fun t => .next (t.startEntries n)) (toNat_ofNat_pfield h.pWidth_le b))

/-- A count field of zero is a degenerate description: its symbol is the next field. -/
theorem InPass.step_degenerate (hn : m.peekBits (m.countWidth a) = 0) :
    step m = ((m.fillBits (m.countWidth a)).fillBits (m.countWidth a)).degenerate a
      ((m.fillBits (m.countWidth a)).peekBits (m.countWidth a)) := by
  have hw := h.countWidth_le a
  have hfetch := h.fetch_raw hs (by cases a <;> rfl)
  obtain ⟨p, hp⟩ := (h.inv.running h.run).reader
  rw [← field_windowBits (by omega)] at hn
  rw [← field_drop_windowBits hp (by omega)]
  generalize windowBits m.bitBuf = b at *
  cases a with
  | T =>
    exact h.step_of_fetch (k := fun t => t.degenerate .T (field 5 (b.drop 5))) hs (hfetch.trans (if_pos hn))
      (congrArg (fun c => m.element _ fun t => t.degenerate .T c) (toNat_ofNat_field 5 _))
  | C =>
    exact h.step_of_fetch (k := fun t => t.degenerate .C (field 9 (b.drop 9))) hs (hfetch.trans (if_pos hn))
      (congrArg (fun c => m.element _ fun t => t.degenerate .C c) (toNat_ofNat_field 9 _))
  | P =>
    exact h.step_of_fetch (k := fun t => t.degenerate .P (field m.pWidth (b.drop m.pWidth))) hs
      (hfetch.trans (if_pos hn))
      (congrArg (fun c => m.element _ fun t => t.degenerate .P c) (toNat_ofNat_pfield h.pWidth_le _))

end

/-! ### Table builds (R180, R190, R215) -/

/-- Where the machine arrives after an operation: its place, with the state the operation returned. -/
def Arrives {α : Type} (f : Fsm) (p : Point) : α → State → State → Prop := fun _ t n => n = t.placed f p ∧ InPass t n

section
variable {u : State} {a : Alphabet}

/-- A count field that is not zero, inside a pass. -/
theorem InPass.step_count_placed (h : InPass u (u.placed (readState a) .start)) (hn : u.peekBits (u.countWidth a) ≠ 0) :
    step (u.placed (readState a) .start) =
      .next ((u.fillBits (u.countWidth a)).placed (readState a) (.entries (u.peekBits (u.countWidth a)) 0)) ∧
    InPass (u.fillBits (u.countWidth a))
      ((u.fillBits (u.countWidth a)).placed (readState a) (.entries (u.peekBits (u.countWidth a)) 0)) := by
  have hstep := h.step_count (standsAt_countSlot.2 ⟨rfl, rfl⟩) (by rwa [placed_countWidth])
  rw [placed_countWidth, fillBits_placed, placed_peekBits] at hstep
  exact ⟨hstep, h.next hstep (fillBits_command _ _) (fillBits_point _ _)⟩

/-- The build that ends a description. -/
theorem follows_finishLengths (h : InPass u (u.placed (buildState a) .start)) :
    Follows (u.placed (buildState a) .start) (u.finishLengths a) (Arrives (afterBuild a) .start) := by
  have hstep := h.step_build rfl
  have hbuild := build_placed u (buildState a) .start a
  cases hb : u.build a with
  | none =>
    rw [hb, Option.map_none] at hbuild
    simp only [State.finishLengths, hb]
    refine follows_badTable (hstep.trans ?_)
    simp only [State.buildTable, hbuild]
    rfl
  | some t =>
    rw [hb, Option.map_some] at hbuild
    have hnext : step (u.placed (buildState a) .start) = .next (t.placed (afterBuild a) .start) := by
      simp only [hstep, State.buildTable, hbuild]
      rfl
    have hframe := build_frame hb
    simp only [State.finishLengths, hb]
    exact .of_step hnext (follows_ok ⟨rfl, h.next hnext (congrArg State.command hframe :) (congrArg State.point hframe :)⟩)

/-- A degenerate description, and the Build state that it passes through. -/
theorem follows_readDegenerate (h : InPass u (u.placed (readState a) .start)) (hn : u.peekBits (u.countWidth a) = 0) :
    Follows (u.placed (readState a) .start) ((u.fillBits (u.countWidth a)).readDegenerate a (u.countWidth a))
      (Arrives (afterBuild a) .start) := by
  have hstep := h.step_degenerate (standsAt_countSlot.2 ⟨rfl, rfl⟩) (by rwa [placed_countWidth])
  rw [placed_countWidth, fillBits_placed, fillBits_placed, placed_peekBits] at hstep
  have hkeep : ((u.fillBits (u.countWidth a)).fillBits (u.countWidth a)).command = u.command := by simp
  have hpoint : ((u.fillBits (u.countWidth a)).fillBits (u.countWidth a)).point = u.point := by simp
  unfold State.readDegenerate State.getBits
  generalize (u.fillBits (u.countWidth a)).peekBits (u.countWidth a) = c at *
  generalize (u.fillBits (u.countWidth a)).fillBits (u.countWidth a) = v at *
  have hframe := fillUniform_frame v a c
  obtain ⟨hout, he⟩ | ⟨hin, he⟩ := degenerate_cases (v.placed (readState a) .start) a c
  · simp only [if_pos hout]
    exact follows_fault (hstep.trans he)
  · have hfill : step (u.placed (readState a) .start) = .next ((v.fillUniform a c).placed (buildState a) .filled) :=
      (hstep.trans he).trans (by cases a <;> rfl)
    have h' : InPass (v.fillUniform a c) ((v.fillUniform a c).placed (buildState a) .filled) :=
      h.next hfill ((congrArg State.command hframe :).trans hkeep) ((congrArg State.point hframe :).trans hpoint)
    have hpass : step ((v.fillUniform a c).placed (buildState a) .filled) =
        .next ((v.fillUniform a c).placed (afterBuild a) .start) := h'.step_build rfl
    simp only [if_neg (Nat.not_le.2 hin)]
    exact .of_step hfill (.of_step hpass (follows_ok ⟨rfl, h'.next hpass rfl rfl⟩))

end

end Sys2Proof.Machine
end

section
/-! The entries of the descriptions inside a pass (R176 to R191): each turn of the pseudocode's loops is one element, a `TSKIP`
one more. -/

namespace Sys2Proof.Machine

/-! ### Entry elements -/

theorem exists_ptlenInstr {l : Nat} (h : l ≤ 16) : ∃ i, ptlenInstr l = some i :=
  Option.isSome_iff_exists.1 ((by decide : ∀ k ≤ 16, (ptlenInstr k).isSome = true) l h)

theorem exists_clInstr {l : Nat} (h1 : 1 ≤ l) (h : l ≤ 16) : ∃ i, clInstr l = some i :=
  Option.isSome_iff_exists.1 ((by decide : ∀ k ≤ 16, 1 ≤ k → (clInstr k).isSome = true) l h h1)

theorem ptlenInstr_eq_none {l : Nat} (h : 16 < l) : ptlenInstr l = none := by
  cases hi : ptlenInstr l with
  | none => rfl
  | some i => exact absurd (ptlenInstr_le hi) (Nat.not_le.2 h)

/-- A run of zero C lengths as `readCLen` reads it (R183): its length, and the state behind its operand. -/
def State.zeroField (t : State) (c : Nat) : Nat × State :=
  if c = 0 then (1, t) else if c = 1 then (t.peekBits 4 + 3, t.fillBits 4)
  else (t.peekBits Config.CBIT + 20, t.fillBits Config.CBIT)

theorem zeroField_placed (t : State) (f : Fsm) (p : Point) (c : Nat) :
    (t.placed f p).zeroField c = ((t.zeroField c).1, (t.zeroField c).2.placed f p) := by
  unfold State.zeroField
  split
  · rfl
  split <;> rw [fillBits_placed] <;> rfl

theorem zeroField_keeps (t : State) (c : Nat) :
    (t.zeroField c).2.command = t.command ∧ (t.zeroField c).2.point = t.point := by
  unfold State.zeroField
  split
  · exact ⟨rfl, rfl⟩
  split <;> exact ⟨fillBits_command _ _, fillBits_point _ _⟩

section
variable {u m : State} (h : InPass u m)
include h

/-- A length above 16 is `BadTable` at once (R178). -/
theorem InPass.step_longLength (hs : m.standsAt .ptlen) (hl : 16 < lengthField (windowBits m.bitBuf)) :
    step m = .next m.raiseBadTable := by
  have hf : m.fetch = .error .lengthAbove16 := by simp only [h.fetch_raw hs rfl, decodeRaw, ptlenInstr_eq_none hl]
  exact h.step_of_reject hs hf

theorem InPass.step_ptlen (hs : m.standsAt .ptlen) {l : Nat} (hl : lengthField (windowBits m.bitBuf) = l) (h16 : l ≤ 16) :
    step m = .next ((m.fillBits (if l < 7 then 3 else l - 3)).storePTLength l) := by
  obtain ⟨i, hi⟩ := exists_ptlenInstr h16
  have hf : m.fetch = .ok i := by simp only [h.fetch_raw hs rfl, decodeRaw, hl, hi]
  have hstep := h.step_of_fetch (k := fun t => .next (t.storePTLength l)) hs hf (exec_ptlen hi m)
  rwa [widths_ptlen hi] at hstep

theorem InPass.step_tskip (hs : m.standsAt .tskip) :
    step m = .next ((m.fillBits 2).skipEntries (m.peekBits 2)) := by
  rw [← field_windowBits (by decide)]
  exact h.step_of_fetch (k := fun t => .next (t.skipEntries (field 2 (windowBits m.bitBuf)))) hs (h.fetch_raw hs rfl)
    (congrArg (fun n => m.element _ fun t => .next (t.skipEntries n)) (toNat_ofNat_field 2 _))

variable (hs : m.standsAt .citem) {c : Nat} (hc : m.lookupSym .T = some c)
include hs hc

/-- `CZ1`, `CZS r`, `CZL r` (R186 to R188). -/
theorem InPass.step_zeroItem (h2 : c ≤ 2) : step m = .next (((m.fillBits (m.codeLength .T c)).zeroField c).2.zeroRun
    ((m.fillBits (m.codeLength .T c)).zeroField c).1) := by
  have hf := fetch_of_coded (slot_of_standsAt h.run hs) rfl hc
  generalize ht : m.fillBits (m.codeLength .T c) = t at *
  unfold State.zeroField
  rw [← field_windowBits (by decide), ← field_windowBits (by decide)]
  generalize windowBits t.bitBuf = b at *
  subst ht
  match c, h2 with
  | 0, _ => exact h.step_of_fetch (k := fun t => .next (t.zeroRun 1)) hs hf rfl
  | 1, _ =>
    exact h.step_of_fetch (k := fun t => .next (t.zeroRun (field 4 b + 3))) hs hf
      (congrArg (fun n => m.element _ fun t => .next (t.zeroRun (n + 3))) (toNat_ofNat_field 4 b))
  | 2, _ =>
    exact h.step_of_fetch (k := fun t => .next (t.zeroRun (field 9 b + 20))) hs hf
      (congrArg (fun n => m.element _ fun t => .next (t.zeroRun (n + 20))) (toNat_ofNat_field 9 b))

/-- `CL.l` (R189). -/
theorem InPass.step_lengthItem (h2 : 2 < c) :
    step m = .next ((m.fillBits (m.codeLength .T c)).storeCLength (c - 2)) := by
  have hlt : c < 19 := lookupSym_lt hc
  obtain ⟨i, hi⟩ := exists_clInstr (l := c - 2) (by omega) (by omega)
  have hf : m.fetch = .ok i := by
    rw [fetch_of_coded (slot_of_standsAt h.run hs) rfl hc, decodeCoded, if_neg (by omega), if_neg (by omega),
      if_neg (by omega), hi]
  have hstep := h.step_of_fetch (k := fun t => .next (t.storeCLength (c - 2))) hs hf (exec_cl hi m)
  rwa [widths_cl hi, Nat.sub_add_cancel (by omega)] at hstep

end

/-! ### The loop of R176 -/

/-- The entry before which `readPTLen` looks for a skip (R176, R179). -/
def specialEntry : Alphabet → Option Nat
  | .T => some Config.SPECIAL_T
  | .C => none
  | .P => none

theorem specialEntry_eq_iff (a : Alphabet) (idx : Nat) :
    specialEntry a = some (idx + 1) ↔ readState a = .readExtraLengths ∧ idx = 2 := by
  cases a <;> simp [specialEntry, readState, Config.SPECIAL_T, eq_comm]

/-- The tail of R180. -/
def State.ptTail (u : State) (a : Alphabet) (idx : Nat) : State :=
  { u with ptLen := u.ptLen.fill idx (alphabetSize a - idx) 0 }

/-- One entry read and stored (R178). -/
def State.readPTEntry (u : State) (idx l : Nat) : State :=
  { u.fillBits (if l < 7 then 3 else l - 3) with ptLen := (u.fillBits (if l < 7 then 3 else l - 3)).ptLen.write idx l }

/-- The zero entries of a skip behind entry `idx` (R179). -/
def State.readSkip (u : State) (idx : Nat) : State :=
  { u.fillBits 2 with ptLen := (u.fillBits 2).ptLen.fill (idx + 1) (u.peekBits 2) 0 }

section
variable {special : Option Nat} {number fuel idx : Nat} {u : State}

theorem readPTEntries_of_last (h : ¬ (idx < number ∧ idx < 31)) :
    State.readPTEntries special number fuel idx u = .ok (idx, u) := by
  cases fuel with
  | zero => rfl
  | succ fuel => exact if_neg h

theorem readPTEntries_of_long (h : idx < number ∧ idx < 31) (hl : 16 < lengthField (windowBits u.bitBuf)) :
    State.readPTEntries special number (fuel + 1) idx u = .error (.badTable u) := by
  simp only [State.readPTEntries, Config.NPT, if_pos h, if_pos hl]

theorem readPTEntries_of_more (h : idx < number ∧ idx < 31) {l : Nat} (hl : lengthField (windowBits u.bitBuf) = l)
    (h16 : l ≤ 16) : State.readPTEntries special number (fuel + 1) idx u =
      if special = some (idx + 1) then
        State.readPTEntries special number fuel (min (idx + 1 + (u.readPTEntry idx l).peekBits 2) 31)
          ((u.readPTEntry idx l).readSkip idx)
      else State.readPTEntries special number fuel (idx + 1) (u.readPTEntry idx l) := by
  simp only [State.readPTEntries, Config.NPT, if_pos h, hl, if_neg (Nat.not_lt.2 h16)]
  rfl

end

theorem nextPTEntry_command (s : State) (number idx : Nat) : (s.nextPTEntry number idx).command = s.command :=
  (congrArg State.command (nextPTEntry_frame s number idx) :)

theorem nextPTEntry_placed_of_more {number idx : Nat} (h : idx < number ∧ idx < 31) (u : State) (f : Fsm) (p : Point) :
    (u.placed f p).nextPTEntry number idx = u.placed f (.entries number idx) := nextPTEntry_of_more h

theorem standsAt_ptlen_placed {number idx : Nat} {a : Alphabet} (ha : a ≠ .C) (h : idx < number ∧ idx < 31) (u : State) :
    (u.placed (readState a) (.entries number idx)).standsAt .ptlen := by
  refine ⟨number, idx, rfl, ?_, h⟩
  cases a with
  | T => exact .inl rfl
  | P => exact .inr rfl
  | C => exact absurd rfl ha

theorem nextPTEntry_placed_of_last {number idx : Nat} {a : Alphabet} (ha : a ≠ .C) (u : State) (p : Point)
    (h : ¬ (idx < number ∧ idx < 31)) :
    (u.placed (readState a) p).nextPTEntry number idx = (u.ptTail a idx).placed (buildState a) .start := by
  rw [State.nextPTEntry, if_neg h]
  cases a with
  | T | P => rfl
  | C => exact absurd rfl ha

section
variable {a : Alphabet} {number idx : Nat} {u : State}

/-- A `PTLEN` inside a pass: the entry is stored, and a skip or the next entry follows. -/
theorem InPass.step_entry (ha : a ≠ .C) (hmore : idx < number ∧ idx < 31)
    (h : InPass u (u.placed (readState a) (.entries number idx))) {l : Nat} (hl : lengthField (windowBits u.bitBuf) = l)
    (h16 : l ≤ 16) : step (u.placed (readState a) (.entries number idx)) =
      .next (if specialEntry a = some (idx + 1) then (u.readPTEntry idx l).placed (readState a) (.skip number)
        else ((u.readPTEntry idx l).placed (readState a) (.entries number idx)).nextPTEntry number (idx + 1)) := by
  have hs := standsAt_ptlen_placed ha hmore u
  rw [h.step_ptlen hs hl h16, fillBits_placed, storePTLength_of_entries rfl]
  simp only [specialEntry_eq_iff]
  rfl

/-- A `TSKIP` inside a pass. -/
theorem InPass.step_skip (h : InPass u (u.placed .readExtraLengths (.skip number))) :
    step (u.placed .readExtraLengths (.skip number)) = .next
      (((u.readSkip 2).placed .readExtraLengths (.skip number)).nextPTEntry number (min (3 + u.peekBits 2) 31)) := by
  have hs : (u.placed .readExtraLengths (.skip number)).standsAt .tskip := ⟨number, rfl, rfl⟩
  rw [h.step_tskip hs, fillBits_placed, skipEntries_of_skip rfl]
  rfl

end

/-- The loop of R176, from any of its entries on; behind the last one the machine stands in the Build state, with the tail
of R180 zeroed. -/
theorem follows_readPTEntries {a : Alphabet} (ha : a ≠ .C) {number : Nat} (fuel : Nat) {idx : Nat} {u : State} {p : Point}
    (hfuel : 31 < fuel + idx) (hidx : idx ≤ 31) (h : InPass u ((u.placed (readState a) p).nextPTEntry number idx)) :
    Follows ((u.placed (readState a) p).nextPTEntry number idx)
      (State.readPTEntries (specialEntry a) number fuel idx u)
      fun i t n => Arrives (buildState a) .start () (t.ptTail a i) n := by
  induction fuel generalizing idx u p with
  | zero => omega
  | succ fuel ih =>
    by_cases hmore : idx < number ∧ idx < 31
    · rw [nextPTEntry_placed_of_more hmore] at h ⊢
      by_cases hlong : 16 < lengthField (windowBits u.bitBuf)
      · rw [readPTEntries_of_long hmore hlong]
        exact follows_badTable (h.step_longLength (standsAt_ptlen_placed ha hmore u) hlong)
      obtain ⟨l, hl⟩ : ∃ l, lengthField (windowBits u.bitBuf) = l := ⟨_, rfl⟩
      have h16 : l ≤ 16 := by omega
      have hstep := h.step_entry ha hmore hl h16
      have hkeep : (u.readPTEntry idx l).command = u.command := fillBits_command u _
      have hpoint : (u.readPTEntry idx l).point = u.point := fillBits_point u _
      rw [readPTEntries_of_more hmore hl h16]
      by_cases hskip : specialEntry a = some (idx + 1)
      · rw [if_pos hskip] at hstep ⊢
        obtain ⟨hT, rfl⟩ := (specialEntry_eq_iff a idx).1 hskip
        have h' : InPass (u.readPTEntry 2 l) _ := h.next hstep hkeep hpoint
        rw [hT] at h'
        have hstep' := h'.step_skip
        rw [← hT] at h' hstep'
        exact .of_step hstep (.of_step hstep' (ih (by omega) (by omega)
          (h'.next hstep' ((nextPTEntry_command _ _ _).trans (fillBits_command _ 2)) (fillBits_point _ 2))))
      · rw [if_neg hskip] at hstep ⊢
        exact .of_step hstep (ih (by omega) (by omega)
          (h.next hstep ((nextPTEntry_command _ _ _).trans hkeep) hpoint))
    · rw [nextPTEntry_placed_of_last ha u p hmore] at h ⊢
      rw [readPTEntries_of_last hmore]
      exact follows_ok ⟨rfl, h.inv, h.run, h.room, h.start⟩

/-! ### `readPTLen` (R176) -/

theorem readPTLen_eq (s : State) (a : Alphabet) (nbit : Nat) (special : Option Nat) :
    s.readPTLen a nbit special = if s.peekBits nbit = 0 then (s.fillBits nbit).readDegenerate a nbit
      else (State.readPTEntries special (s.peekBits nbit) 32 0 (s.fillBits nbit)).andThen fun i t =>
        (t.ptTail a i).finishLengths a := by
  unfold State.readPTLen State.getBits
  dsimp only
  generalize State.readPTEntries special (s.peekBits nbit) 32 0 (s.fillBits nbit) = o
  cases o <;> rfl

/-- The T and P descriptions. -/
theorem follows_readPTLen {a : Alphabet} (ha : a ≠ .C) {u : State} (h : InPass u (u.placed (readState a) .start)) :
    Follows (u.placed (readState a) .start) (u.readPTLen a (u.countWidth a) (specialEntry a))
      (Arrives (afterBuild a) .start) := by
  rw [readPTLen_eq]
  by_cases hn : u.peekBits (u.countWidth a) = 0
  · rw [if_pos hn]
    exact follows_readDegenerate h hn
  · rw [if_neg hn]
    obtain ⟨hstep, h'⟩ := h.step_count_placed hn
    rw [← nextPTEntry_placed_of_more ⟨Nat.pos_of_ne_zero hn, by decide⟩ _ _ .start] at hstep h'
    refine .of_step hstep (.andThen (follows_readPTEntries ha 32 (by decide) (by decide) h') ?_)
    rintro i t n ⟨rfl, ht⟩
    exact follows_finishLengths ht

end Sys2Proof.Machine
end

section
/-! The C description inside a pass (R183 to R191), and the block header (R211, R212). -/

namespace Sys2Proof.Machine

/-! ### The loop of R183 -/

/-- The tail of R190. -/
def State.cTail (u : State) (idx : Nat) : State := { u with cLen := u.cLen.fill idx (Config.NC - idx) 0 }

/-- A run of zero lengths read and stored (R186 to R188). -/
def State.readZeroRun (t : State) (idx c : Nat) : State :=
  { (t.zeroField c).2 with cLen := (t.zeroField c).2.cLen.fill idx (t.zeroField c).1 0 }

/-- A length stored (R189). -/
def State.writeCLength (t : State) (idx l : Nat) : State := { t with cLen := t.cLen.write idx l }

section
variable {number fuel idx : Nat} {u : State}

theorem readCItems_of_last (h : ¬ (idx < number ∧ idx < 510)) : State.readCItems number fuel idx u = .ok (idx, u) := by
  cases fuel with
  | zero => rfl
  | succ fuel => exact if_neg h

theorem readCItems_of_more (h : idx < number ∧ idx < 510) : State.readCItems number (fuel + 1) idx u =
    (u.decodeSym .T).andThen fun c t =>
      if c ≤ 2 then State.readCItems number fuel (min (idx + (t.zeroField c).1) 510) (t.readZeroRun idx c)
      else State.readCItems number fuel (idx + 1) (t.writeCLength idx (c - 2)) := by
  simp only [State.readCItems, Config.NC, if_pos h]
  generalize u.decodeSym .T = o
  cases o <;> rfl

end

theorem nextCItem_command (s : State) (number idx : Nat) : (s.nextCItem number idx).command = s.command := by
  unfold State.nextCItem
  split <;> rfl

section
variable {number idx : Nat}

theorem nextCItem_placed_of_more (h : idx < number ∧ idx < 510) (u : State) (f : Fsm) (p : Point) :
    (u.placed f p).nextCItem number idx = u.placed f (.entries number idx) := if_pos h

theorem nextCItem_placed_of_last (h : ¬ (idx < number ∧ idx < 510)) (u : State) (f : Fsm) (p : Point) :
    (u.placed f p).nextCItem number idx = (u.cTail idx).placed .buildLiteralTable .start := if_neg h

variable {u : State} {c : Nat} (hmore : idx < number ∧ idx < 510)
  (h : InPass u (u.placed .readLiteralLengths (.entries number idx))) (hc : u.lookupSym .T = some c)
include hmore h hc

/-- `CZ1`, `CZS` or `CZL` inside a pass. -/
theorem InPass.step_zeros (h2 : c ≤ 2) : step (u.placed .readLiteralLengths (.entries number idx)) =
    .next ((((u.fillBits (u.codeLength .T c)).readZeroRun idx c).placed .readLiteralLengths (.entries number idx)).nextCItem
      number (min (idx + ((u.fillBits (u.codeLength .T c)).zeroField c).1) 510)) := by
  have hs : (u.placed .readLiteralLengths (.entries number idx)).standsAt .citem := ⟨number, idx, rfl, rfl, hmore⟩
  rw [h.step_zeroItem hs (by rwa [placed_lookupSym]) h2, placed_codeLength, fillBits_placed, zeroField_placed,
    zeroRun_of_entries rfl]
  rfl

/-- `CL.l` inside a pass. -/
theorem InPass.step_length (h2 : 2 < c) : step (u.placed .readLiteralLengths (.entries number idx)) =
    .next ((((u.fillBits (u.codeLength .T c)).writeCLength idx (c - 2)).placed .readLiteralLengths
      (.entries number idx)).nextCItem number (idx + 1)) := by
  have hs : (u.placed .readLiteralLengths (.entries number idx)).standsAt .citem := ⟨number, idx, rfl, rfl, hmore⟩
  rw [h.step_lengthItem hs (by rwa [placed_lookupSym]) h2, placed_codeLength, fillBits_placed, storeCLength_of_entries rfl]
  rfl

end

theorem one_le_zeroField (t : State) (c : Nat) : 1 ≤ (t.zeroField c).1 := by
  unfold State.zeroField
  split
  · exact Nat.le_refl 1
  split <;> exact Nat.le_add_left _ _

/-- The loop of R183, from any of its items on; behind the last one the machine stands in the Build state, with the tail of
R190 zeroed. -/
theorem follows_readCItems {number : Nat} (fuel : Nat) {idx : Nat} {u : State} {p : Point} (hfuel : 510 < fuel + idx)
    (hidx : idx ≤ 510) (h : InPass u ((u.placed .readLiteralLengths p).nextCItem number idx)) :
    Follows ((u.placed .readLiteralLengths p).nextCItem number idx) (State.readCItems number fuel idx u)
      fun i t n => Arrives .buildLiteralTable .start () (t.cTail i) n := by
  induction fuel generalizing idx u p with
  | zero => omega
  | succ fuel ih =>
    by_cases hmore : idx < number ∧ idx < 510
    · rw [nextCItem_placed_of_more hmore] at h ⊢
      rw [readCItems_of_more hmore]
      cases hc : u.lookupSym .T with
      | none =>
        rw [decodeSym_of_none hc, andThen_error]
        exact follows_fault (h.step_noCode (sl := .citem) ⟨number, idx, rfl, rfl, hmore⟩ rfl (by rwa [placed_lookupSym]))
      | some c =>
        rw [decodeSym_of_some hc, andThen_ok]
        obtain ⟨hkeep, hpoint⟩ := zeroField_keeps (u.fillBits (u.codeLength .T c)) c
        have hrun := one_le_zeroField (u.fillBits (u.codeLength .T c)) c
        by_cases h2 : c ≤ 2
        · have hstep := h.step_zeros hmore hc h2
          rw [if_pos h2]
          exact .of_step hstep (ih (by omega) (by omega) (h.next hstep
            ((nextCItem_command _ _ _).trans (hkeep.trans (fillBits_command u _))) (hpoint.trans (fillBits_point u _))))
        · have hstep := h.step_length hmore hc (Nat.lt_of_not_le h2)
          rw [if_neg h2]
          exact .of_step hstep (ih (by omega) (by omega) (h.next hstep
            ((nextCItem_command _ _ _).trans (fillBits_command u _)) (fillBits_point u _)))
    · rw [nextCItem_placed_of_last hmore] at h ⊢
      rw [readCItems_of_last hmore]
      exact follows_ok ⟨rfl, h.inv, h.run, h.room, h.start⟩

/-! ### `readCLen` (R183) -/

theorem readCLen_eq (s : State) : s.readCLen = if s.peekBits Config.CBIT = 0
    then (s.fillBits Config.CBIT).readDegenerate .C Config.CBIT
    else (State.readCItems (s.peekBits Config.CBIT) 511 0 (s.fillBits Config.CBIT)).andThen fun i t =>
      (t.cTail i).finishLengths .C := by
  unfold State.readCLen State.getBits
  dsimp only
  generalize State.readCItems (s.peekBits Config.CBIT) 511 0 (s.fillBits Config.CBIT) = o
  cases o <;> rfl

/-- The C description. -/
theorem follows_readCLen {u : State} (h : InPass u (u.placed .readLiteralLengths .start)) :
    Follows (u.placed .readLiteralLengths .start) u.readCLen (Arrives .readOffsetLengths .start) := by
  rw [readCLen_eq]
  by_cases hn : u.peekBits Config.CBIT = 0
  · rw [if_pos hn]
    exact follows_readDegenerate (a := .C) h hn
  · rw [if_neg hn]
    obtain ⟨hstep, h'⟩ := InPass.step_count_placed (a := .C) h hn
    have hnext := nextCItem_placed_of_more ⟨Nat.pos_of_ne_zero hn, by decide⟩ (u.fillBits 9) .readLiteralLengths .start
    refine .of_step (hstep.trans (congrArg _ hnext.symm))
      (.andThen (follows_readCItems 511 (by decide) (by decide) (hnext.symm ▸ h')) ?_)
    rintro i t n ⟨rfl, ht⟩
    exact follows_finishLengths (a := .C) ht

/-! ### The block header (R211, R212) -/

/-- The block size read (R213). -/
def State.readBlockSize (s : State) : State :=
  { s.fillBits Config.BLOCKBITS with blockCount := BitVec.ofNat 16 (s.peekBits Config.BLOCKBITS) }

theorem readHeader_eq (s : State) : s.readHeader =
    (s.readBlockSize.readPTLen .T Config.TBIT (specialEntry .T)).andThen fun _ u =>
      u.readCLen.andThen fun _ v => v.readPTLen .P v.pWidth (specialEntry .P) := by
  unfold State.readHeader State.getBits specialEntry State.readBlockSize
  dsimp only
  generalize State.readPTLen { s.fillBits Config.BLOCKBITS with
    blockCount := BitVec.ofNat 16 (s.peekBits Config.BLOCKBITS) } .T Config.TBIT (some Config.SPECIAL_T) = o
  obtain e | ⟨_, u⟩ := o
  · rfl
  · rw [andThen_ok]
    dsimp only
    generalize u.readCLen = o
    cases o <;> rfl

/-- The header of a block; behind it the machine asks for a symbol. -/
theorem follows_readHeader {s : State} (h : InPass s s) (hs : s.standsAt .blksize) :
    Follows s s.readHeader (Arrives .decodingBlock .start) := by
  have hstep : step s = .next (s.readBlockSize.placed .readExtraLengths .start) := by
    unfold State.readBlockSize
    rw [← field_windowBits (by decide)]
    exact h.step_of_fetch (k := fun t => .next { t with
      blockCount := BitVec.ofNat 16 (field 16 (windowBits s.bitBuf)), fsm := .readExtraLengths, point := .start })
      hs (h.fetch_raw hs rfl) rfl
  have h' : InPass s.readBlockSize (s.readBlockSize.placed .readExtraLengths .start) :=
    h.next hstep (fillBits_command s 16) (fillBits_point s 16)
  rw [readHeader_eq]
  refine .of_step hstep (.andThen (follows_readPTLen (a := .T) nofun h') ?_)
  rintro _ u _ ⟨rfl, hu⟩
  refine .andThen (follows_readCLen hu) ?_
  rintro _ v _ ⟨rfl, hv⟩
  exact follows_readPTLen (a := .P) nofun hv

end Sys2Proof.Machine
end

section
/-! The symbol of a pass (R212, R231 to R236), and the pass as a whole. -/

namespace Sys2Proof.Machine

/-! ### `decodeP` and the copy (R192, R234 to R236) -/

/-- The offset value of a class as `decodeP` reads it, and the state behind its extra bits (R192). -/
def State.offsetField (t : State) (c : Nat) : Nat × State :=
  if c ≤ 1 then (c, t) else (2 ^ (c - 1) + t.peekBits (c - 1), t.fillBits (c - 1))

theorem offsetField_placed (t : State) (f : Fsm) (p : Point) (c : Nat) :
    (t.placed f p).offsetField c = ((t.offsetField c).1, (t.offsetField c).2.placed f p) := by
  unfold State.offsetField
  split
  · rfl
  · rw [fillBits_placed]
    rfl

theorem offsetField_keeps (t : State) (c : Nat) :
    (t.offsetField c).2.fsm = t.fsm ∧ (t.offsetField c).2.point = t.point := by
  unfold State.offsetField
  split
  · exact ⟨rfl, rfl⟩
  · exact ⟨fillBits_fsm _ _, fillBits_point _ _⟩

theorem decodeP_of_none {u : State} (hc : u.lookupSym .P = none) : u.decodeP = .error (.fault .lookupOverrun) := by
  simp only [State.decodeP, decodeSym_of_none hc]

theorem decodeP_of_some {u : State} {c : Nat} (hc : u.lookupSym .P = some c) :
    u.decodeP = .ok ((u.fillBits (u.codeLength .P c)).offsetField c) := by
  simp only [State.decodeP, decodeSym_of_some hc]
  exact (apply_ite Except.ok _ _ _).symm

theorem exists_offInstr {c : Nat} (h : c ≤ 30) (x : Nat) : ∃ i, offInstr c x = some i := by
  interval_cases c <;> exact ⟨_, rfl⟩

/-- `OFF.c` consumes its code and, from class 2 on, its extra bits (R195, R196). -/
theorem widths_eq_of_offInstr {c x : Nat} {i : Instr} (h : offInstr c x = some i) (s : State) :
    s.widths i = s.ptLen.read c :: if c ≤ 1 then [] else [c - 1] := by
  unfold offInstr at h
  split at h <;> cases h <;> rfl

/-- `OFF.c` inside a pass: the offset value is what `decodeP` reads. -/
theorem InPass.step_off {u m : State} (h : InPass u m) (hs : m.standsAt .off) {c : Nat} (hc : m.lookupSym .P = some c) :
    step m = ((m.fillBits (m.codeLength .P c)).offsetField c).2.copyMatch
      ((m.fillBits (m.codeLength .P c)).offsetField c).1 := by
  have hlt : c < 31 := lookupSym_lt hc
  have hx := field_windowBits (n := c - 1) (by omega) (m.fillBits (m.codeLength .P c))
  obtain ⟨i, hi⟩ := exists_offInstr (Nat.le_of_lt_succ hlt) ((m.fillBits (m.codeLength .P c)).peekBits (c - 1))
  have hf : m.fetch = .ok i := by
    rw [fetch_of_coded (slot_of_standsAt h.run hs) rfl hc, decodeCoded, hx, hi]
  have hstep := h.step_of_fetch (k := fun t => t.copyMatch _) hs hf (exec_off hi m)
  have hmod : (m.fillBits (m.codeLength .P c)).peekBits (c - 1) % 2 ^ (c - 1) =
      (m.fillBits (m.codeLength .P c)).peekBits (c - 1) := Nat.mod_eq_of_lt (hx ▸ field_lt _ _)
  rw [hstep, hmod, widths_eq_of_offInstr hi, offsetValue, State.offsetField]
  split <;> rfl

/-- The rest of a pass behind the length of a match (R234 to R236). -/
def State.expandMatch (t : State) (m : Nat) : Op Unit :=
  t.decodeP.andThen fun off u =>
    if u.outPos < off + 1 then .error (.fault .backRefBeforeStart)
    else .ok ((), State.copyLoop m (u.outPos - off - 1) u)

theorem copyMatch_placed (u : State) (f : Fsm) (m off : Nat) : (u.placed f (.offset m)).copyMatch off =
    if u.outPos < off + 1 then .fault .backRefBeforeStart
    else .next ((State.copyLoop m (u.outPos - off - 1) u).placed f .start) := by
  unfold State.copyMatch
  refine if_congr Iff.rfl rfl (congrArg Host.Outcome.next ?_)
  exact congrArg (fun t : State => { t with point := .start }) (copyLoop_placed u f (.offset m) m _)

theorem follows_expandMatch {u : State} {f : Fsm} {m : Nat} (h : InPass u (u.placed f (.offset m))) (hf : u.fsm = f)
    (hsym : f = .needNewBlock ∨ f = .decodingBlock) :
    Follows (u.placed f (.offset m)) (u.expandMatch m) fun _ t n => n = t := by
  have hs : (u.placed f (.offset m)).standsAt .off := ⟨m, rfl, hsym⟩
  unfold State.expandMatch
  cases hc : u.lookupSym .P with
  | none =>
    rw [decodeP_of_none hc, andThen_error]
    exact follows_fault (h.step_noCode hs rfl (by rwa [placed_lookupSym]))
  | some c =>
    have hstep := h.step_off hs (by rwa [placed_lookupSym])
    rw [placed_codeLength, fillBits_placed, offsetField_placed, copyMatch_placed] at hstep
    rw [decodeP_of_some hc, andThen_ok]
    obtain ⟨hfsm, hpoint⟩ := offsetField_keeps (u.fillBits (u.codeLength .P c)) c
    rw [fillBits_fsm] at hfsm
    rw [fillBits_point] at hpoint
    generalize (u.fillBits (u.codeLength .P c)).offsetField c = r at *
    obtain ⟨off, t⟩ := r
    by_cases hback : t.outPos < off + 1
    · rw [if_pos hback] at hstep ⊢
      exact follows_fault hstep
    · rw [if_neg hback] at hstep ⊢
      have hframe := copyLoop_frame m (t.outPos - off - 1) t
      have hfsm' : (State.copyLoop m (t.outPos - off - 1) t).fsm = f :=
        (congrArg State.fsm hframe :).trans (hfsm.trans hf)
      have hpoint' : (State.copyLoop m (t.outPos - off - 1) t).point = .start :=
        (congrArg State.point hframe :).trans (hpoint.trans h.start)
      exact .of_step hstep (follows_ok (placed_eq_self hfsm' hpoint'))

/-! ### The symbol (R212, R231, R233) -/

/-- The rest of a pass behind the block header. -/
def State.expandSymbol (t : State) : Op Unit :=
  (t.countSymbol.decodeSym .C).andThen fun sym u =>
    if sym < 256 then .ok ((), u.putByte (BitVec.ofNat 8 sym)) else u.expandMatch (matchLength sym)

theorem exec_lit (b : Byte) (s : State) :
    exec (.lit b) s = s.element (.lit b) fun u => .next (u.countSymbol.putByte b) := rfl

theorem widths_lit (b : Byte) (s : State) : s.widths (.lit b) = [s.codeLength .C b.toNat] := rfl

theorem widths_matchLen (m : Nat) (s : State) : s.widths (.matchLen m) = [s.codeLength .C (m + 253)] := rfl

section
variable {u m : State} (h : InPass u m) (hs : m.standsAt .csym) {sym : Nat} (hc : m.lookupSym .C = some sym)
include h hs hc

theorem InPass.step_lit (hlit : sym < 256) :
    step m = .next ((m.fillBits (m.codeLength .C sym)).countSymbol.putByte (BitVec.ofNat 8 sym)) := by
  have hf : m.fetch = .ok (.lit (BitVec.ofNat 8 sym)) := by
    rw [fetch_of_coded (slot_of_standsAt h.run hs) rfl hc, decodeCoded, if_pos hlit]
  have hstep := h.step_of_fetch hs hf (exec_lit _ m)
  rwa [widths_lit, BitVec.toNat_ofNat, Nat.mod_eq_of_lt hlit] at hstep

theorem InPass.step_match (hlit : ¬ sym < 256) :
    step m = .next { (m.fillBits (m.codeLength .C sym)).countSymbol with point := .offset (matchLength sym) } := by
  have hlt : sym < 510 := lookupSym_lt hc
  have hf : m.fetch = .ok (.matchLen (sym - 253)) := by
    rw [fetch_of_coded (slot_of_standsAt h.run hs) rfl hc, decodeCoded, if_neg hlit, if_pos hlt]
  have hstep := h.step_of_fetch hs hf (exec_matchLen _ m)
  rwa [widths_matchLen, Nat.sub_add_cancel (by omega)] at hstep

end

theorem countSymbol_lookupSym (t : State) (a : Alphabet) : t.countSymbol.lookupSym a = t.lookupSym a := by cases a <;> rfl

theorem countSymbol_codeLength (t : State) (a : Alphabet) (sym : Nat) :
    t.countSymbol.codeLength a sym = t.codeLength a sym := by
  cases a <;> rfl

/-- Counting a symbol sets `fsm`, whatever it was. -/
theorem fillBits_placed_countSymbol (t : State) (f : Fsm) (p : Point) (n : Nat) :
    ((t.placed f p).fillBits n).countSymbol = (t.countSymbol.fillBits n).placed t.countSymbol.fsm p := by
  rw [← fillBits_countSymbol, ← fillBits_placed]
  rfl

/-- The symbol of a pass: a literal's byte, or a match. -/
theorem follows_expandSymbol {t : State} (h : InPass t (t.placed .decodingBlock .start)) :
    Follows (t.placed .decodingBlock .start) t.expandSymbol fun _ v n => n = v := by
  have hs : (t.placed .decodingBlock .start).standsAt .csym := ⟨rfl, rfl⟩
  unfold State.expandSymbol
  cases hc : t.lookupSym .C with
  | none =>
    rw [decodeSym_of_none (by rwa [countSymbol_lookupSym]), andThen_error]
    exact follows_fault (h.step_noCode hs rfl (by rwa [placed_lookupSym]))
  | some sym =>
    rw [decodeSym_of_some (by rwa [countSymbol_lookupSym]), andThen_ok, countSymbol_codeLength]
    have hm : (t.placed .decodingBlock .start).lookupSym .C = some sym := by rwa [placed_lookupSym]
    have hfsm : (t.countSymbol.fillBits (t.codeLength .C sym)).fsm = t.countSymbol.fsm := fillBits_fsm _ _
    have hpoint : (t.countSymbol.fillBits (t.codeLength .C sym)).point = t.point := fillBits_point _ _
    by_cases hlit : sym < 256
    · have hstep := h.step_lit hs hm hlit
      rw [placed_codeLength, fillBits_placed_countSymbol, placed_eq_self hfsm (hpoint.trans h.start)] at hstep
      rw [if_pos hlit]
      exact .of_step hstep (follows_ok rfl)
    · have hstep := h.step_match hs hm hlit
      rw [placed_codeLength, fillBits_placed_countSymbol] at hstep
      rw [if_neg hlit]
      refine .of_step hstep (follows_expandMatch (h.next hstep (fillBits_command t.countSymbol _) hpoint) hfsm ?_)
      exact (countSymbol_fsm_cases t).1

/-! ### The pass (R17, R231) -/

theorem expandPass_eq (s : State) : s.expandPass =
    (if s.blockCount = 0 then s.readHeader else .ok ((), s)).andThen fun _ t => t.expandSymbol := by
  unfold State.expandPass State.decodeC
  generalize (if s.blockCount = 0 then s.readHeader else .ok ((), s)) = o
  obtain e | ⟨_, t⟩ := o
  · rfl
  · rw [andThen_ok]
    unfold State.expandSymbol
    dsimp only
    generalize t.countSymbol.decodeSym .C = o
    obtain e | ⟨sym, u⟩ := o
    · rfl
    · refine if_congr Iff.rfl rfl ?_
      unfold State.expandMatch
      generalize u.decodeP = o
      cases o <;> rfl

/-- Where a pass begins, the machine follows it. -/
theorem follows_expandPass {s : State} (h : InPass s s) (hf : s.fsm = .needNewBlock ∨ s.fsm = .decodingBlock)
    (hcount : s.fsm = .decodingBlock → s.blockCount ≠ 0) : Follows s s.expandPass fun _ t n => n = t := by
  rw [expandPass_eq]
  refine .andThen (Q := Arrives .decodingBlock .start) ?_ ?_
  · obtain hf | hf := hf
    · rw [if_pos ((h.inv.running h.run).block hf)]
      exact follows_readHeader h ⟨h.start, hf⟩
    · rw [if_neg (hcount hf)]
      exact follows_ok ⟨(placed_eq_self hf h.start).symm, h⟩
  · rintro _ t _ ⟨rfl, ht⟩
    exact follows_expandSymbol ht

/-- Settles O45: a pass is the header, if the block is used up, and a symbol; the machine follows each of their loops element by
element (`follows_readHeader`, `follows_expandSymbol`). -/
theorem elementStepsRefineOnePass : Obligations.ElementStepsRefineOnePass := by
  unfold Obligations.ElementStepsRefineOnePass
  intro s hinv hrun hpass hcount hroom
  have hhead : s.point = .start ∧ (s.fsm = .needNewBlock ∨ s.fsm = .decodingBlock) := by
    simpa [State.passStart] using hpass
  obtain ⟨hpoint, hf⟩ := hhead
  have h := follows_expandPass ⟨hinv, hrun, hroom, hpoint⟩ hf hcount
  generalize s.expandPass = o at *
  obtain ⟨t | f⟩ | ⟨_, t⟩ := o
  · exact h
  · exact h
  · obtain ⟨n, hn, rfl⟩ := h
    exact hn

end Sys2Proof.Machine
end

section
/-! The symbols of a pass (R233 to R235, R238): a literal's byte, a match that waits for its offset, an offset that reaches
before DST[0], and the loop test once DST is full. -/

namespace Sys2Proof.Machine

/-- `t` with all that a symbol may write past its guard as in `s`. -/
def State.symbolFrom (t s : State) : State :=
  { t with blockCount := s.blockCount, fsm := s.fsm, dst := s.dst, outPos := s.outPos }

/-- The last symbol of a block is the one counted at 1 (R214). -/
theorem countSymbol_fsm_of_one (s : State) :
    s.countSymbol.fsm = if s.blockCount = 1 then .needNewBlock else .decodingBlock :=
  if_congr (by bv_omega) rfl rfl

/-- A counted symbol writes `blockCount` and `fsm` only, behind the bits it consumes. -/
theorem countSymbol_symbolFrom (s : State) (ws : List Nat) : ((s.consume ws).countSymbol.readerFrom s).symbolFrom s = s :=
  (congrArg (·.symbolFrom s) (consume_frame s ws) :)

theorem sum_widths_lit (s : State) (b : Byte) : (s.widths (.lit b)).sum = s.cLen.read b.toNat := rfl

theorem sum_widths_matchLen (s : State) (m : Nat) : (s.widths (.matchLen m)).sum = s.cLen.read (m + 253) := rfl

/-- Settles O22: behind its code the element counts its symbol and writes its byte where there is room (`putByte_read`). -/
theorem literalWritesItsByte : Obligations.LiteralWritesItsByte := by
  unfold Obligations.LiteralWritesItsByte
  intro s b hready hfit hwf hroom
  have hadv := (Effect.lit (u := s.consume (s.widths (.lit b))) b).advancedBy (widths_le hfit (.lit b))
  have hkeeps := (Effect.lit (u := s.consume (s.widths (.lit b))) b).keeps
  have hexec := exec_of_ready (exec_lit b s) hready rfl
  rw [sum_widths_lit] at hadv
  generalize s.widths (.lit b) = ws at hadv hkeeps hexec
  have hpos : (s.consume ws).countSymbol.outPos = s.outPos := consume_outPos s ws
  have hroom' : (s.consume ws).countSymbol.outPos < (s.consume ws).countSymbol.origSize.toNat := by simpa using hroom
  have hread := putByte_read b (s := (s.consume ws).countSymbol) (by simpa using hwf) hroom'
  have hframe := putByte_frame (s.consume ws).countSymbol b
  have hpoint : s.point = .start := (standsAt_of_ready hready nofun : s.standsAt .csym).1
  rw [hpos] at hread
  refine ⟨_, hexec, (hread _).trans (if_pos rfl), (putByte_outPos b hroom').trans (by rw [hpos]), fun a ha => ?_,
    fun a => by rw [hkeeps.src], ?_, ?_, ?_, hadv, ?_⟩
  · rw [hread, if_neg ha]
    exact congrArg (Memory.read · a) (consume_dst s ws)
  · exact (congrArg State.blockCount hframe :).trans (congrArg (· - 1) (consume_blockCount s ws))
  · exact (congrArg State.fsm hframe :).trans (by rw [countSymbol_fsm_of_one, consume_blockCount])
  · exact (congrArg State.point hframe :).trans ((consume_point s ws).trans hpoint)
  · exact (congrArg (fun v => (v.readerFrom s).symbolFrom s) hframe :).trans (countSymbol_symbolFrom s ws)

/-- Settles O23: behind its code the element counts its symbol, and a pending match stands at its offset. -/
theorem matchWaitsForItsOffset : Obligations.MatchWaitsForItsOffset := by
  unfold Obligations.MatchWaitsForItsOffset
  intro s m hready hfit
  obtain ⟨h3, h256⟩ := wellFormed_matchLen.1 hready.2.1
  have hadv := (Effect.matchLen (u := s.consume (s.widths (.matchLen m))) m h3 h256).advancedBy (widths_le hfit (.matchLen m))
  have hkeeps := (Effect.matchLen (u := s.consume (s.widths (.matchLen m))) m h3 h256).keeps
  have hexec := exec_of_ready (exec_matchLen m s) hready rfl
  rw [sum_widths_matchLen] at hadv
  generalize s.widths (.matchLen m) = ws at hadv hkeeps hexec
  have hrun : (s.consume ws).run = .decode := (consume_run s ws).trans (run_of_slot hready.1 nofun)
  refine ⟨_, hexec, rfl, ?_, ?_, ?_, hadv, ⟨fun a => by rw [hkeeps.src], fun a => ?_⟩, ?_⟩
  · exact slot_of_standsAt (sl := .off) hrun ⟨m, rfl, (countSymbol_fsm_cases (s.consume ws)).1⟩
  · exact congrArg (· - 1) (consume_blockCount s ws)
  · exact (countSymbol_fsm_of_one (s.consume ws)).trans (by rw [consume_blockCount])
  · exact congrArg (Memory.read · a) (consume_dst s ws)
  · exact (congrArg (·.blockFrom s) (consume_frame s ws) :)

theorem copyMatch_of_before {u : State} {m off : Nat} (hp : u.point = .offset m) (h : u.outPos < off + 1) :
    u.copyMatch off = .fault .backRefBeforeStart := by
  simp only [State.copyMatch, hp]
  exact if_pos h

/-- Settles O25: the offset is the class's base and its extra bits (`exec_off`), and its test fails behind the element's
bits as before them (`copyMatch_of_before`). -/
theorem backReferenceBeforeStartFaults : Obligations.BackReferenceBeforeStartFaults := by
  unfold Obligations.BackReferenceBeforeStartFaults
  intro s c x m off i hi hx hoff hready hp hbefore
  have hvalue : offsetValue c (x % 2 ^ (c - 1)) = off := by
    rw [Nat.mod_eq_of_lt hx, hoff]
    rfl
  rw [exec_of_ready (exec_off hi s) hready rfl, hvalue]
  exact copyMatch_of_before (m := m) (by simpa using hp) (by simpa using hbefore)

/-- Settles O35: the loop test comes before every other, and a full DST has no room. -/
theorem nothingIsFetchedOnceFull : Obligations.NothingIsFetchedOnceFull := by
  unfold Obligations.NothingIsFetchedOnceFull
  intro s hrun hpass hfull
  have hroom : s.hasRoom = false := by simp [State.hasRoom, hfull]
  have hpoint : s.point = .start := by
    simp only [State.passStart, Bool.and_eq_true, beq_iff_eq] at hpass
    exact hpass.1
  refine ⟨s.succeed, by simp [step, hrun, hpass, hroom], rfl, rfl, ?_⟩
  exact (congrArg (fun p => { s with point := p }) hpoint.symm :)

end Sys2Proof.Machine
end

section
/-! Every decode ends (R240): inside a pass each step is one of a bounded number, and a pass writes a byte. -/

namespace Sys2Proof.Machine

/-! ### The steps of a pass -/

/-- The most steps a pass takes from entry `idx` of a description on; the T description has a `TSKIP` before entry 3. -/
def entrySteps (f : Fsm) (idx : Nat) : Nat :=
  match f with
  | .readExtraLengths => 548 + (if idx < 3 then 32 - idx else 31 - idx)
  | .readLiteralLengths => 36 + (510 - idx)
  | _ => 3 + (31 - idx)

/-- The most steps a pass takes from the head of a state on: two for a symbol, one for each build, 1 + 31, 1 + 510 and 1 + 32 for
the P, C and T descriptions, and one for `BLKSIZE`. -/
def headSteps : Fsm → Nat
  | .needNewBlock => 582
  | .readExtraLengths => 581
  | .buildExtraTable => 548
  | .readLiteralLengths => 547
  | .buildLiteralTable => 36
  | .readOffsetLengths => 35
  | .buildOffsetTable => 3
  | .decodingBlock => 2
  | .failed => 0

/-- The most steps the pass under way still takes. -/
def State.passSteps (s : State) : Nat :=
  match s.point with
  | .start => headSteps s.fsm
  | .filled => headSteps s.fsm
  | .entries _ idx => entrySteps s.fsm idx
  | .skip _ => 577
  | .offset _ => 1

/-- The most steps the decode still takes: those of the pass under way, and 600 for each byte to write. -/
def State.stepsLeft (s : State) : Nat := 600 * (s.origSize.toNat - s.outPos) + s.passSteps

theorem headSteps_le (f : Fsm) : headSteps f ≤ 582 := by cases f <;> decide

theorem headSteps_buildState_lt (a : Alphabet) : headSteps (buildState a) < headSteps (readState a) := by
  cases a <;> decide

theorem headSteps_afterBuild_lt (a : Alphabet) : headSteps (afterBuild a) < headSteps (buildState a) := by
  cases a <;> decide

theorem entrySteps_zero_lt (a : Alphabet) : entrySteps (readState a) 0 < headSteps (readState a) := by
  cases a <;> decide

theorem entrySteps_le (f : Fsm) (idx : Nat) : entrySteps f idx ≤ 580 := by
  unfold entrySteps
  split
  · split <;> omega
  all_goals omega

theorem passSteps_le (s : State) : s.passSteps ≤ 582 := by
  unfold State.passSteps
  split
  · exact headSteps_le _
  · exact headSteps_le _
  · exact (entrySteps_le _ _).trans (by decide)
  · decide
  · decide

theorem passSteps_of_start {s : State} (hp : s.point = .start) : s.passSteps = headSteps s.fsm := by
  simp only [State.passSteps, hp]

theorem passSteps_of_filled {s : State} (hp : s.point = .filled) : s.passSteps = headSteps s.fsm := by
  simp only [State.passSteps, hp]

theorem passSteps_of_entries {s : State} {number idx : Nat} (hp : s.point = .entries number idx) :
    s.passSteps = entrySteps s.fsm idx := by
  simp only [State.passSteps, hp]

theorem passSteps_of_skip {s : State} {number : Nat} (hp : s.point = .skip number) : s.passSteps = 577 := by
  simp only [State.passSteps, hp]

@[simp] theorem consume_passSteps (s : State) (ws : List Nat) : (s.consume ws).passSteps = s.passSteps := by
  simp [State.passSteps]

/-! ### Progress -/

/-- A step goes on in its pass or writes a byte. -/
def Progress (s t : State) : Prop := t.passSteps < s.passSteps ∨ s.outPos < t.outPos

theorem Progress.stepsLeft_lt {s t : State} (h : Progress s t) (hw : WritesUp s t) (ho : t.origSize = s.origSize) :
    t.stepsLeft < s.stepsLeft := by
  have hlower := hw.lower
  have hupper := hw.upper
  have hle := passSteps_le t
  unfold State.stepsLeft
  rw [ho]
  obtain h | h := h <;> omega

theorem progress_of_consume {s t : State} {ws : List Nat} (h : Progress (s.consume ws) t) : Progress s t := by
  simpa [Progress] using h

/-- Behind an entry comes the next, or the build with fewer steps still. -/
theorem nextPTEntry_passSteps {u : State} (hf : u.fsm = .readExtraLengths ∨ u.fsm = .readOffsetLengths) (number idx : Nat) :
    (u.nextPTEntry number idx).passSteps ≤ entrySteps u.fsm idx := by
  unfold State.nextPTEntry
  split
  · exact Nat.le_refl _
  split
  · next hT =>
    rw [hT]
    exact Nat.le_add_right 548 _
  · next hT =>
    rw [hf.resolve_left hT]
    exact Nat.le_add_right 3 _

theorem nextCItem_passSteps {u : State} (hf : u.fsm = .readLiteralLengths) (number idx : Nat) :
    (u.nextCItem number idx).passSteps ≤ 36 + (510 - idx) := by
  unfold State.nextCItem
  split
  · exact (passSteps_of_entries rfl).trans_le (by rw [hf]; exact Nat.le_refl _)
  · exact Nat.le_add_right 36 _

theorem entrySteps_succ_lt {f : Fsm} {idx : Nat} (hf : f = .readExtraLengths ∨ f = .readOffsetLengths) (hi : idx < 31)
    (hskip : ¬ (f = .readExtraLengths ∧ idx = 2)) : entrySteps f (idx + 1) < entrySteps f idx := by
  obtain rfl | rfl := hf
  · simp only [true_and] at hskip
    simp only [entrySteps]
    split <;> split <;> omega
  · simp only [entrySteps]
    omega

theorem storePTLength_passSteps {u : State} (hs : u.standsAt .ptlen) (l : Nat) : (u.storePTLength l).passSteps < u.passSteps := by
  obtain ⟨number, idx, hp, hf, _, hi⟩ := hs
  rw [storePTLength_of_entries hp, passSteps_of_entries hp]
  split
  · next hthird =>
    obtain ⟨hT, rfl⟩ := hthird
    rw [hT]
    exact Nat.lt_succ_self 577
  · next hother =>
    exact (nextPTEntry_passSteps (u := { u with ptLen := u.ptLen.write idx l }) hf number (idx + 1)).trans_lt
      (entrySteps_succ_lt hf hi hother)

theorem skipEntries_passSteps {u : State} (hs : u.standsAt .tskip) (r : Nat) : (u.skipEntries r).passSteps < u.passSteps := by
  obtain ⟨number, hp, hf⟩ := hs
  rw [skipEntries_of_skip hp, passSteps_of_skip hp]
  refine (nextPTEntry_passSteps (u := { u with ptLen := u.ptLen.fill 3 r 0 }) (.inl hf) number _).trans_lt ?_
  simp only [hf, entrySteps]
  split <;> omega

/-- An element that is no C item, at its position: a description and a symbol go on in the pass, a literal and an offset write
a byte. -/
theorem Effect.progress {u t : State} {sl : Slot} (h : Effect u sl t) (hs : u.standsAt sl) (hitem : sl ≠ .citem)
    (hroom : sl = .csym → u.outPos < u.origSize.toNat)
    (hpending : ∀ m, u.point = .offset m → 3 ≤ m ∧ m ≤ 256 ∧ u.outPos < u.origSize.toNat) : Progress u t := by
  cases h with
  | blksize n =>
    obtain ⟨hp, hf⟩ := hs
    left
    rw [passSteps_of_start hp, hf]
    exact Nat.lt_succ_self 581
  | count a n hn =>
    obtain ⟨hp, hf⟩ := standsAt_countSlot.1 hs
    left
    show entrySteps u.fsm 0 < u.passSteps
    rw [passSteps_of_start hp, hf]
    exact entrySteps_zero_lt a
  | degenerate a c hc =>
    obtain ⟨hp, hf⟩ := standsAt_countSlot.1 hs
    left
    rw [passSteps_of_start hp, hf]
    exact headSteps_buildState_lt a
  | ptlen l hl => exact .inl (storePTLength_passSteps hs l)
  | tskip r => exact .inl (skipEntries_passSteps hs r)
  | clength l hl => exact absurd rfl hitem
  | zeroRun r => exact absurd rfl hitem
  | lit b =>
    right
    exact (Nat.lt_succ_self u.outPos).trans_eq (putByte_outPos (s := u.countSymbol) b (hroom rfl)).symm
  | matchLen m h3 h256 =>
    obtain ⟨hp, hf⟩ := hs
    left
    rw [passSteps_of_start hp, hf]
    exact Nat.lt_succ_self 1
  | copy m off hp ho =>
    obtain ⟨h3, _, hlt⟩ := hpending m hp
    right
    have hcopy := copyLoop_outPos m (u.outPos - off - 1) hlt.le
    show u.outPos < (State.copyLoop m (u.outPos - off - 1) u).outPos
    omega

/-! ### C items -/

/-- What a C item continues with past its guard; no run of zeros is empty (R186 to R189). -/
inductive ItemMeaning : (State → Result) → Prop
  | clength (l : Nat) : ItemMeaning fun u => .next (u.storeCLength l)
  | zeroRun (r : Nat) (hr : 1 ≤ r) : ItemMeaning fun u => .next (u.zeroRun r)

theorem itemMeaning_of_decodeCoded {sym : Nat} {b : List Bool} {i : Instr} (hd : decodeCoded .citem sym b = .ok i) :
    ∃ k, (∀ s, exec i s = s.element i k) ∧ ItemMeaning k := by
  simp only [decodeCoded] at hd
  split at hd
  · cases hd
    exact ⟨_, fun _ => rfl, .zeroRun 1 (Nat.le_refl 1)⟩
  split at hd
  · cases hd
    exact ⟨_, fun _ => rfl, .zeroRun (shortRun _) (Nat.le_add_left 1 _)⟩
  split at hd
  · cases hd
    exact ⟨_, fun _ => rfl, .zeroRun (longRun _) (Nat.le_add_left 1 _)⟩
  split at hd <;> cases hd
  next hc => exact ⟨_, exec_cl hc, .clength _⟩

/-- Every C item stores an entry. -/
theorem ItemMeaning.progress {k : State → Result} (hk : ItemMeaning k) {u t : State} (hs : u.standsAt .citem)
    (h : k u = .next t) : Progress u t := by
  obtain ⟨number, idx, hp, hf, _, hi⟩ := hs
  have hlt : idx < 510 := hi
  left
  rw [passSteps_of_entries hp, hf]
  cases hk with
  | clength l =>
    cases h
    rw [storeCLength_of_entries hp]
    refine (nextCItem_passSteps (u := { u with cLen := u.cLen.write idx l }) hf number _).trans_lt ?_
    simp only [entrySteps]
    omega
  | zeroRun r hr =>
    cases h
    rw [zeroRun_of_entries hp]
    refine (nextCItem_passSteps (u := { u with cLen := u.cLen.fill idx r 0 }) hf number _).trans_lt ?_
    simp only [entrySteps]
    omega

theorem runElement_progress_of_citem {s t : State} (hrun : s.run = .decode) (hs : s.standsAt .citem) (h : runElement s = .next t) :
    Progress s t := by
  obtain ⟨ha, _⟩ | ⟨_, _, hf | ⟨sym, b, hf⟩⟩ := fetch_cases (slot_of_standsAt hrun hs)
  · cases ha
  · simp only [runElement, hf] at h
    cases h
  cases hd : decodeCoded .citem sym b with
  | error r =>
    rw [hd] at hf
    simp only [runElement, hf] at h
    cases r with
    | lengthAbove16 => exact absurd hd decodeCoded_ne_lengthAbove16
    | notASymbol | noCode | noElement => cases h
  | ok i =>
    obtain ⟨k, hexec, hk⟩ := itemMeaning_of_decodeCoded hd
    rw [runElement_of_fetch (hf.trans hd), hexec] at h
    obtain ⟨_, hnext⟩ := element_next h
    exact progress_of_consume (hk.progress (standsAt_consume _ hs) hnext)

/-! ### The decode -/

/-- A table built is a step of the pass, else the command ends. -/
theorem buildTable_progress {s : State} {a : Alphabet} (hrun : s.run = .decode) (hb : s.building = some a)
    (hp : s.point = .start ∨ s.point = .filled) :
    (s.buildTable a).run = .idle ∨ ((s.buildTable a).run = .decode ∧ Progress s (s.buildTable a)) := by
  obtain ⟨hframe, hf, hpoint⟩ | he := buildTable_next s a
  · refine .inr ⟨(Keeps.of_buildFrom hframe).run.trans hrun, .inl ?_⟩
    have hhead : s.passSteps = headSteps s.fsm := hp.elim passSteps_of_start passSteps_of_filled
    rw [passSteps_of_start hpoint, hf, hhead, fsm_of_building hb]
    exact headSteps_afterBuild_lt a
  · exact .inl (by rw [he]; rfl)

/-- A step of a decode ends the command, or the decode goes on with progress. -/
theorem step_progress {s t : State} (h : s.Inv) (hrun : s.run = .decode) (hstep : step s = .next t) :
    t.run = .idle ∨ (t.run = .decode ∧ Progress s t) := by
  have hr := h.running hrun
  cases step_stepTo hstep with
  | idle hidle => exact .inl hidle
  | shortHeader c hc | truncated c _ _ hc | accepted c _ _ hc => rw [hrun] at hc; cases hc
  | full | longLength => exact .inl rfl
  | build _ a hb =>
    obtain ⟨_, hp⟩ | ⟨hnone, _⟩ := hr.place
    · exact buildTable_progress hrun hb hp
    · rw [hnone] at hb
      cases hb
  | element _ hroom i hi he =>
    refine .inr ⟨he.keeps.run.trans hrun, ?_⟩
    have hs := standsAt_of_slot hrun hi.1
    by_cases hitem : i.slot = .citem
    · rw [hitem] at hs
      rw [step_of_decode hrun hroom hr.inBounds (building_of_standsAt hs)] at hstep
      exact runElement_progress_of_citem hrun hs hstep
    · refine progress_of_consume (he.progress (standsAt_consume _ hs) hitem (fun hsl => ?_) ?_)
      · simpa using hasRoom_of_csym (hsl ▸ hs) hroom
      · simpa using hr.pending

/-- Between commands nothing happens (R297). -/
theorem core_run_idle {s : State} (h : s.run = .idle) (k : Nat) : Host.Core.run Sys2Proof.core k s = .next s := by
  have hstep : step s = .next s := by simp only [step, h]
  induction k with
  | zero => rfl
  | succ k ih => exact (core_run_succ hstep k).trans ih

/-- A decode has ended once its steps are used up. -/
theorem run_idle_of_stepsLeft_lt {n : Nat} {s t : State} (h : s.Inv) (hrun : s.run = .decode) (hn : s.stepsLeft < n)
    (hend : Host.Core.run Sys2Proof.core n s = .next t) : t.run = .idle := by
  induction n generalizing s with
  | zero => exact absurd hn (Nat.not_lt_zero _)
  | succ n ih =>
    cases hstep : step s with
    | fault f => cases (core_run_fault hstep n).symm.trans hend
    | refused r => cases (core_run_refused hstep n).symm.trans hend
    | next u =>
      rw [core_run_succ hstep] at hend
      obtain hidle | ⟨hdecode, hprogress⟩ := step_progress h hrun hstep
      · rw [core_run_idle hidle] at hend
        cases hend
        exact hidle
      · obtain ⟨hw, ho⟩ := step_writesUp hrun h.dstWf (h.running hrun).room hstep
        have hlt := hprogress.stepsLeft_lt hw ho
        exact ih (everyStepKeepsTheInvariant s u h hstep) hdecode (by omega) hend

/-- Settles O46: `stepsLeft` falls in every step of a decode (`step_progress`), and is below the bound at once, since no pass
takes 600 steps (`passSteps_le`). -/
theorem everyDecodeEnds : Obligations.EveryDecodeEnds := by
  unfold Obligations.EveryDecodeEnds
  intro s t h hrun hend
  have hlt : s.stepsLeft < 600 * (s.origSize.toNat - s.outPos) + 600 :=
    Nat.add_lt_add_left ((passSteps_le s).trans_lt (by decide)) _
  exact run_idle_of_stepsLeft_lt h hrun hlt hend

end Sys2Proof.Machine
end

section
/-! The host commands (R255 to R263): a source shorter than a header, the header's words as the source's first eight bytes, the
host's actions between commands, and how a decode ends. -/

namespace Sys2Proof.Machine

/-! ### The header -/

/-- A source shorter than a header is truncated, and none of it is read (R256, R277). -/
theorem step_shortHeader {s : State} {c : Command} (hrun : s.run = .header c) (hprom : s.brokenPromise c = none)
    (hlen : s.srcLen < 8) : step s = .next s.raiseTruncated := by
  have hshort : s.srcLen < Config.HDRLEN := hlen
  simp only [step, hrun, if_pos hshort, State.shortHeader, hprom]

theorem headerBits_congr {s u : State} (h : ∀ a, a < 8 → u.src.read a = s.src.read a) : u.headerBits = s.headerBits :=
  List.flatMap_congr fun k hk => by rw [h k (List.mem_range.1 hk)]

/-- A command whose promises hold is answered: the size of DST matters only where there is a header that names one. -/
theorem step_header_answers {s : State} {c : Command} (hrun : s.run = .header c) (hprom : s.brokenPromise c = none)
    (hdst : 8 ≤ s.srcLen → s.dstFits c (leWord (s.headerBits.drop 32)) = true) : ∃ t, step s = .next t := by
  obtain hshort | hlen := Nat.lt_or_ge s.srcLen 8
  · exact ⟨_, step_shortHeader hrun hprom hshort⟩
  · exact ⟨_, (step_header hrun hlen).trans (exec_hdr_of_promises hrun hprom (hdst hlen) hlen)⟩

/-- The `origSize` of a placed source is the little-endian word of its bytes 4 to 7 (R33). -/
theorem origWord_of_placed {s : State} {bytes : List Byte} (hsrc : s.src = Memory.ofBytes 0 bytes) :
    (leWord (s.headerBits.drop 32)).toNat =
      wordOf (bytes.getD 4 0) (bytes.getD 5 0) (bytes.getD 6 0) (bytes.getD 7 0) := by
  have hread : ∀ a, s.src.read a = bytes.getD a 0 := fun a => by rw [hsrc, Memory.read_ofBytes, if_pos (Nat.zero_le a)]; rfl
  rw [(leWord_headerBits s).2, toNat_wordOf, hread, hread, hread, hread]

/-- Settles O27: equal header bytes are equal header words (`headerBits_congr`), and the length tests compare these with
`srcLen`. -/
theorem sizeQueryDependsOnTheHeaderOnly : Obligations.SizeQueryDependsOnTheHeaderOnly := by
  unfold Obligations.SizeQueryDependsOnTheHeaderOnly
  intro s u hs hu hps hpu hlen hread
  obtain hshort | hlong := Nat.lt_or_ge s.srcLen 8
  · exact ⟨_, _, step_shortHeader hs hps hshort, step_shortHeader hu hpu (hlen ▸ hshort), rfl, nofun⟩
  · have hulong : 8 ≤ u.srcLen := hlen ▸ hlong
    refine ⟨_, _, (step_header hs hlong).trans (exec_hdr_of_promises hs hps rfl hlong),
      (step_header hu hulong).trans (exec_hdr_of_promises hu hpu rfl hulong), ?_⟩
    rw [headerBits_congr hread, hlen]
    split
    · exact ⟨rfl, nofun⟩
    · exact ⟨rfl, fun _ => ⟨rfl, rfl, rfl⟩⟩

/-- Settles O48: the host's actions make the promises, and the header's `origSize` is the size of DST (`origWord_of_placed`). -/
theorem hostsOrderIsAnswered : Obligations.HostsOrderIsAnswered := by
  unfold Obligations.HostsOrderIsAnswered
  intro s bytes dst
  refine ⟨step_header_answers rfl (brokenPromise_sizeQuery s bytes) fun _ => rfl, fun hsize => ?_⟩
  refine step_header_answers rfl (brokenPromise_decompress s bytes dst) fun hlen => ?_
  exact beq_iff_eq.2 ((hsize hlen).trans (origWord_of_placed rfl).symm)

/-- Settles O29: the second length test decides (`exec_hdr_of_promises`), and DECOMPRESS of no bytes succeeds as it is accepted. -/
theorem emptyOutputSucceedsAtOnce : Obligations.EmptyOutputSucceedsAtOnce := by
  unfold Obligations.EmptyOutputSucceedsAtOnce
  intro s comp hrun hprom hdst hlen
  have hexec := exec_hdr_of_promises (comp := comp) (orig := 0) hrun hprom (beq_iff_eq.2 hdst) hlen
  constructor
  · intro hlong
    rw [if_neg (Nat.not_lt.2 hlong)] at hexec
    exact ⟨_, hexec, rfl, rfl, rfl, rfl, rfl⟩
  · intro hshort
    rw [if_pos hshort] at hexec
    exact ⟨_, hexec, rfl, rfl⟩

/-! ### The host's actions -/

theorem placeSource_inv {s : State} (h : s.Inv) (hrun : s.run ≠ .decode) (bytes : List Byte) (plain : Bool) :
    (s.placeSource bytes plain).Inv where
  srcWf := Memory.wf_ofBytes bytes
  dstWf := h.dstWf
  wired := h.wired
  ptLens := h.ptLens
  cLens := h.cLens
  running := fun hd => absurd hd hrun

theorem provide_inv {s : State} (h : s.Inv) (hrun : s.run ≠ .decode) (bytes : List Byte) (plain disjoint scratchOk : Bool) :
    (s.provide bytes plain disjoint scratchOk).Inv where
  srcWf := h.srcWf
  dstWf := Memory.wf_ofBytes bytes
  wired := h.wired
  ptLens := h.ptLens
  cLens := h.cLens
  running := fun hd => absurd hd hrun

theorem issue_inv {s : State} (h : s.Inv) (c : Command) (exclusive : Bool) : (s.issue c exclusive).Inv :=
  h.of_not_decoding (by simp) rfl rfl rfl rfl rfl

/-- Settles O41: a placed buffer is canonical, and between commands nothing decodes. -/
theorem hostActionsKeepTheInvariant : Obligations.HostActionsKeepTheInvariant := by
  unfold Obligations.HostActionsKeepTheInvariant
  intro s bytes c p d k e h hidle
  have hrun : s.run ≠ .decode := by simp [hidle]
  exact ⟨placeSource_inv h hrun bytes p, provide_inv h hrun bytes p d k, issue_inv h c e⟩

/-! ### The end of a decode -/

/-- A step that ends a decode is the loop test with no room left (R238), or `BadTable` (R288). -/
theorem step_ends_decode {s t : State} (hrun : s.run = .decode) (hstep : step s = .next t) (hidle : t.run = .idle) :
    (t = s.succeed ∧ s.hasRoom = false) ∨ t = s.raiseBadTable := by
  have hgoesOn : t.run ≠ s.run := by simp [hidle, hrun]
  simp only [step, hrun] at hstep
  split at hstep
  · next hfull =>
    cases hstep
    exact .inl ⟨rfl, by simpa using (Bool.and_eq_true_iff.1 hfull).2⟩
  split at hstep
  · cases hstep
  split at hstep
  · next a _ =>
    cases hstep
    obtain ⟨hframe, _⟩ | he := buildTable_next s a
    · exact absurd (Keeps.of_buildFrom hframe).run hgoesOn
    · exact .inr he
  · obtain he | ⟨i, _, he⟩ := runElement_decode hrun hstep
    · exact .inr he
    · exact absurd he.keeps.run hgoesOn

/-- Settles O44: without `BadTable` the end is the loop test's (`step_ends_decode`), and `outPos` never passes `origSize`. -/
theorem successMeansTheDestinationIsFull : Obligations.SuccessMeansTheDestinationIsFull := by
  unfold Obligations.SuccessMeansTheDestinationIsFull
  intro s t h hrun hstep hidle hflag
  obtain ⟨rfl, hroom⟩ | rfl := step_ends_decode hrun hstep hidle
  · have hfull : s.origSize.toNat ≤ s.outPos := by simpa [State.hasRoom] using hroom
    exact ⟨rfl, Nat.le_antisymm (h.running hrun).room hfull, rfl⟩
  · cases hflag

end Sys2Proof.Machine
end

section
/-! The aborts of a decode (R178, R283, R288): a length above 16, whatever else latches `badTable`, and the fault of a degenerate
symbol outside its alphabet. -/

namespace Sys2Proof.Machine

/-! ### `BadTable` (R288) -/

/-- R288: the abort writes the flag, `fsm` and what ends the command only. -/
theorem raiseBadTable_frame (s : State) :
    { s.raiseBadTable with badTable := s.badTable, fsm := s.fsm, run := s.run, status := s.status, point := s.point } = s := rfl

theorem acceptHeader_badTable {s : State} (c : Command) (h : s.badTable = false) : (s.acceptHeader c).badTable = false := by
  obtain ⟨size, he⟩ | ⟨_, he⟩ := acceptHeader_cases s c <;> rw [he]
  · exact h
  · exact startDecoding_badTable s

/-- Only `BadTable`, raised in a decode, latches the flag (R29, R288). -/
theorem step_latches_badTable {s t : State} (hstep : step s = .next t) (hs : s.badTable = false) (ht : t.badTable = true) :
    s.run = .decode ∧ t = s.raiseBadTable := by
  have hne : t.badTable ≠ s.badTable := by simp [hs, ht]
  cases step_stepTo hstep with
  | idle | shortHeader | truncated | full => exact absurd rfl hne
  | accepted c comp orig =>
    exact absurd ((acceptHeader_badTable c (s := s.parseHeader comp orig) hs).trans hs.symm) hne
  | longLength hrun => exact ⟨hrun, rfl⟩
  | build hrun a =>
    obtain ⟨hframe, _⟩ | he := buildTable_next s a
    · exact absurd (Keeps.of_buildFrom hframe).badTable hne
    · exact ⟨hrun, he⟩
  | element _ _ _ _ he => exact absurd he.keeps.badTable hne

/-- Settles O38: a step that latches the flag is `raiseBadTable` (`step_latches_badTable`), whose frame is R288's. -/
theorem badTableEndsTheCommand : Obligations.BadTableEndsTheCommand := by
  unfold Obligations.BadTableEndsTheCommand
  intro s t hstep hs ht
  obtain ⟨hrun, rfl⟩ := step_latches_badTable hstep hs ht
  exact ⟨hrun, rfl, rfl, rfl, raiseBadTable_frame s⟩

/-! ### A length above 16 (R178) -/

/-- A field of one bits opens a run of ones at least as long. -/
theorem le_ones_of_field {n : Nat} {b : List Bool} (h : field n b = 2 ^ n - 1) : n ≤ ones b := by
  induction n generalizing b with
  | zero => exact Nat.zero_le _
  | succ n ih =>
    have hpow : 2 ^ (n + 1) = 2 ^ n + 2 ^ n := Nat.two_pow_succ n
    have hpos := Nat.two_pow_pos n
    cases b with
    | nil =>
      rw [field_nil] at h
      omega
    | cons x b =>
      have hlt := field_lt n b
      rw [field_cons] at h
      cases x with
      | false =>
        rw [if_neg Bool.false_ne_true] at h
        omega
      | true =>
        rw [if_pos rfl] at h
        exact Nat.succ_le_succ (ih (by omega))

/-- Three ones and then ten more spell a length above 16. -/
theorem lengthField_of_ones {b : List Bool} (h : field 13 b = 2 ^ 13 - 1) : 16 < lengthField b := by
  have hadd : field 13 b = 2 ^ 10 * field 3 b + field 10 (b.drop 3) := field_add 3 10 b
  have hhead := field_lt 3 b
  have htail := field_lt 10 (b.drop 3)
  have h7 : field 3 b = 7 := by omega
  have hrun : 10 ≤ ones (b.drop 3) := le_ones_of_field (by omega)
  rw [lengthField, if_pos h7]
  omega

/-- At an entry of a description no symbol is about to be asked for. -/
theorem passStart_of_ptlen {s : State} (h : s.standsAt .ptlen) : s.passStart = false := by
  obtain ⟨number, idx, hp, _⟩ := h
  simp [State.passStart, hp]

/-- Settles O20: the thirteen ones are a length above 16 (`lengthField_of_ones`), so the fetch finds no element and the step is
`raiseBadTable`. -/
theorem lengthAboveSixteenAborts : Obligations.LengthAboveSixteenAborts := by
  unfold Obligations.LengthAboveSixteenAborts
  intro s hrun hslot hbounds hones
  have hs : s.standsAt .ptlen := standsAt_of_slot hrun hslot
  have hfield : field 13 (windowBits s.bitBuf) = 2 ^ 13 - 1 := by
    rw [field_windowBits (by decide), State.peekBits, BitVec.toNat_ushiftRight, Nat.shiftRight_eq_div_pow]
    exact hones
  have hfetch : s.fetch = .error .lengthAbove16 := by
    simp only [fetch_of_raw hslot rfl, State.rawAt, if_neg (slot_ne_hdr hrun hslot), decodeRaw,
      ptlenInstr_eq_none (lengthField_of_ones hfield)]
  have hstep : step s = .next s.raiseBadTable := by
    rw [step_of_decode hrun (by simp [passStart_of_ptlen hs]) hbounds (building_of_standsAt hs), runElement, hfetch]
    rfl
  exact ⟨_, hstep, rfl, rfl, rfl, rfl, raiseBadTable_frame s⟩

/-! ### A degenerate symbol outside its alphabet (R283) -/

theorem exec_degenerate_outOfRange {s : State} {i : Instr} {a : Alphabet} {c : Nat}
    (hexec : exec i s = s.element i fun u => u.degenerate a c) (hready : s.ready i) (hc : alphabetSize a ≤ c) :
    exec i s = .fault .degenerateSymbolOutOfRange := by
  rw [hexec, element_ready _ hready]
  exact if_pos hc

/-- Settles O15: each of the three elements is `degenerate` of its alphabet, which has 19, 31 or 510 symbols. -/
theorem degenerateSymbolOutOfRangeFaults : Obligations.DegenerateSymbolOutOfRangeFaults := by
  unfold Obligations.DegenerateSymbolOutOfRangeFaults
  exact ⟨fun _ _ => exec_degenerate_outOfRange (a := .T) rfl, fun _ _ => exec_degenerate_outOfRange (a := .P) rfl,
    fun _ _ => exec_degenerate_outOfRange (a := .C) rfl⟩

end Sys2Proof.Machine
end

section
/-! A header that is not accepted (R277, R285), and what an accepted one forgets (R290, R310 to R312). -/

namespace Sys2Proof.Machine

/-! ### A source that is too short (R277) -/

/-- Settles O30: `step_shortHeader` below 8 bytes; from 8 on, the second length test of `exec_hdr_of_promises`. -/
theorem shortSourceIsTruncatedHeader : Obligations.ShortSourceIsTruncatedHeader := by
  unfold Obligations.ShortSourceIsTruncatedHeader
  constructor
  · intro s c hrun hprom hlen
    exact ⟨_, step_shortHeader hrun hprom hlen, rfl, rfl, rfl, rfl⟩
  · intro s c comp orig hrun hprom hdst hlen hshort
    have hexec := exec_hdr_of_promises (comp := comp) hrun hprom hdst hlen
    rw [if_pos hshort] at hexec
    exact ⟨_, hexec, rfl, rfl, rfl, rfl⟩

/-! ### Broken promises (R70, R285, R326) -/

/-- The refusals of a command's promises, the size of DST apart: a SIZE_QUERY uses SRC only (R257). -/
def promiseRefusals : Command → List Refusal
  | .sizeQuery => [.notPlainMemory, .buffersShared]
  | .decompress => [.notPlainMemory, .buffersOverlap, .buffersShared, .scratchTooSmall]

theorem mem_promiseRefusals {s : State} {c : Command} {r : Refusal} (h : s.brokenPromise c = some r) :
    r ∈ promiseRefusals c := by
  cases c <;> simp only [State.brokenPromise] at h <;> repeat' split at h
  all_goals cases h
  all_goals decide

theorem sizeQuery_promises {s : State} (h : s.brokenPromise .sizeQuery = none) :
    s.grant.srcPlain = true ∧ s.grant.exclusive = true := by
  simpa [State.brokenPromise, ite_eq_iff] using h

theorem decompress_promises {s : State} (h : s.brokenPromise .decompress = none) :
    s.grant.srcPlain = true ∧ s.grant.dstPlain = true ∧ s.grant.disjoint = true ∧ s.grant.exclusive = true ∧
      s.grant.scratchOk = true := by
  simpa [State.brokenPromise, ite_eq_iff, and_assoc] using h

/-- A broken promise is refused before the header is read (R282). -/
theorem exec_hdr_of_brokenPromise {s : State} {c : Command} {r : Refusal} (comp orig : BitVec 32) (hrun : s.run = .header c)
    (h : s.brokenPromise c = some r) : exec (.hdr comp orig) s = .refused r := by
  simp [exec, execHdr, hrun, State.shortHeader, h]

theorem exec_hdr_of_dstMismatch {s : State} {c : Command} {orig : BitVec 32} (comp : BitVec 32) (hrun : s.run = .header c)
    (hprom : s.brokenPromise c = none) (hlen : 8 ≤ s.srcLen) (h : s.dstFits c orig = false) :
    exec (.hdr comp orig) s = .refused .dstSizeMismatch := by
  have hshort : ¬ s.srcLen < Config.HDRLEN := Nat.not_lt.2 hlen
  simp [exec, execHdr, hrun, hshort, hprom, h]

/-- Settles O31: a broken promise is refused under one of its command's names (`mem_promiseRefusals`); where a DECOMPRESS has
none (`decompress_promises`), it is the size of DST that is wrong. -/
theorem brokenPreconditionsAreRefused : Obligations.BrokenPreconditionsAreRefused := by
  unfold Obligations.BrokenPreconditionsAreRefused
  constructor
  · intro s comp orig hrun hlen hbad
    cases hprom : s.brokenPromise .decompress with
    | some r =>
      have hr : r ∈ promiseRefusals .decompress ++ [.dstSizeMismatch] := List.mem_append_left _ (mem_promiseRefusals hprom)
      exact ⟨r, exec_hdr_of_brokenPromise comp orig hrun hprom, hr⟩
    | none =>
      have hsize : s.grant.dstLen ≠ orig.toNat := by simpa [decompress_promises hprom] using hbad
      exact ⟨_, exec_hdr_of_dstMismatch comp hrun hprom hlen (beq_false_of_ne hsize), by decide⟩
  · intro s comp orig hrun hbad
    cases hprom : s.brokenPromise .sizeQuery with
    | some r => exact ⟨r, exec_hdr_of_brokenPromise comp orig hrun hprom, mem_promiseRefusals hprom⟩
    | none => simp [sizeQuery_promises hprom] at hbad

/-! ### What the CORE held before (R290, R312) -/

/-- `t` with what `HDR` of a DECOMPRESS does not write, the host's inputs apart, as in `u`. -/
def State.interfaceFrom (t u : State) : State :=
  { t with status := u.status, scratchSize := u.scratchSize, freeCount := u.freeCount }

section
variable (t u : State)

theorem refill_interfaceFrom (k : Nat) : (t.interfaceFrom u).refill k = (t.refill k).interfaceFrom u := by
  simp only [State.refill, apply_ite (State.interfaceFrom · u)]
  rfl

theorem refillLoop_interfaceFrom (k fuel : Nat) :
    (t.interfaceFrom u).refillLoop k fuel = ((t.refillLoop k fuel).1.interfaceFrom u, (t.refillLoop k fuel).2) := by
  induction fuel generalizing t k with
  | zero => rfl
  | succ fuel ih =>
    unfold State.refillLoop
    by_cases hlt : t.bitCount < k
    · rw [if_pos hlt, ← ih, ← refill_interfaceFrom]
      exact if_pos hlt
    · rw [if_neg hlt]
      exact if_neg hlt

/-- The reader does not see them (R130). -/
theorem fillBits_interfaceFrom (n : Nat) : (t.interfaceFrom u).fillBits n = (t.fillBits n).interfaceFrom u := by
  have hloop := refillLoop_interfaceFrom { t with bitBuf := t.bitBuf <<< n } u n 5
  unfold State.interfaceFrom at hloop
  simp only [State.fillBits, State.interfaceFrom, hloop]

end

/-- `init()` leaves of a state the host's inputs and the interface registers only (R310). -/
theorem init_of_sameInputs {s u : State} (hsrc : u.src = s.src) (hlen : u.srcLen = s.srcLen) (hdst : u.dst = s.dst)
    (hgrant : u.grant = s.grant) (hpBit : u.pBit = s.pBit) (hrun : u.run = s.run) (hcomp : u.compSize = s.compSize)
    (horig : u.origSize = s.origSize) : u.init = s.init.interfaceFrom u := by
  simp only [State.init, State.interfaceFrom, hsrc, hlen, hdst, hgrant, hpBit, hrun, hcomp, horig]

theorem startDecoding_of_init {s u : State} (h : u.init = s.init.interfaceFrom u) :
    u.startDecoding = s.startDecoding.interfaceFrom u := by
  rw [State.startDecoding, h, fillBits_interfaceFrom]
  rfl

/-- An accepted DECOMPRESS with bytes to write initialises and primes (R259). -/
theorem exec_hdr_of_accepted {s : State} {comp orig : BitVec 32} (hrun : s.run = .header .decompress)
    (hprom : s.brokenPromise .decompress = none) (hdst : s.grant.dstLen = orig.toNat) (horig : orig ≠ 0)
    (hlen : 8 + comp.toNat ≤ s.srcLen) : exec (.hdr comp orig) s = .next (s.parseHeader comp orig).startDecoding := by
  rw [exec_hdr_of_promises hrun hprom (beq_iff_eq.2 hdst) (by omega), if_neg (by omega)]
  exact congrArg Host.Outcome.next (if_neg horig)

/-- Settles O32: `init()` takes both states to one but for the interface registers (`init_of_sameInputs`), and the priming fill
keeps it so (`fillBits_interfaceFrom`). -/
theorem decompressForgetsThePast : Obligations.DecompressForgetsThePast := by
  unfold Obligations.DecompressForgetsThePast
  intro s u comp orig hs hu hsrc hlen hdst hgrant hpBit hprom hsize horig hlong
  have hpromU : u.brokenPromise .decompress = none := by rw [State.brokenPromise, hgrant]; exact hprom
  refine ⟨_, exec_hdr_of_accepted hs hprom hsize horig hlong, ?_⟩
  rw [exec_hdr_of_accepted hu hpromU (hgrant ▸ hsize) horig (hlen ▸ hlong)]
  have hinit : (u.parseHeader comp orig).init = (s.parseHeader comp orig).init.interfaceFrom (u.parseHeader comp orig) :=
    init_of_sameInputs hsrc hlen hdst hgrant hpBit (hu.trans hs.symm) rfl rfl
  exact congrArg Host.Outcome.next (startDecoding_of_init hinit)

end Sys2Proof.Machine
end

section
/-! `init()` and the priming fill (R310, R311): where they leave the reader, and the state an accepted DECOMPRESS starts from. -/

namespace Sys2Proof.Machine

/-! ### The reader after the priming fill (R311) -/

/-- Where the window ends on a byte boundary no look-ahead bits are left: the registers of the reader follow from its place. -/
theorem ReaderAt.registers_of_byte {s : State} {m : Nat} (h : ReaderAt s (8 * m)) :
    s.bitCount = 0 ∧ s.inPos = min (m + 4) s.compSize.toNat ∧ s.compRemaining = s.compSize.toNat - s.inPos := by
  have hcount : s.bitCount = 0 := by
    have := h.count
    have := h.aligned
    omega
  have hpos := h.pos
  rw [hcount, show (8 * m + 32 + 0) / 8 = m + 4 by omega] at hpos
  exact ⟨hcount, hpos, by have := h.rest; omega⟩

/-- Settles O1: the fill moves the reader from a window before the stream to stream bit 0 (`startDecoding_readerAt`), a byte
boundary (`ReaderAt.registers_of_byte`). -/
theorem primingLoadsFirstFourBytes : Obligations.PrimingLoadsFirstFourBytes := by
  unfold Obligations.PrimingLoadsFirstFourBytes
  intro s
  have hreader := startDecoding_readerAt s
  obtain ⟨hcount, hpos, hrest⟩ := hreader.registers_of_byte (m := 0)
  exact ⟨hreader, hcount, by simpa using hpos, by simpa using hrest⟩

/-! ### What `init()` zeroes and keeps (R310) -/

@[simp] theorem startDecoding_ptTable (s : State) : s.startDecoding.ptTable = Vector.replicate _ 0 := fillBits_ptTable s.init 32
@[simp] theorem startDecoding_cTable (s : State) : s.startDecoding.cTable = Vector.replicate _ 0 := fillBits_cTable s.init 32
@[simp] theorem startDecoding_left (s : State) : s.startDecoding.left = Vector.replicate _ 0 := fillBits_left s.init 32
@[simp] theorem startDecoding_right (s : State) : s.startDecoding.right = Vector.replicate _ 0 := fillBits_right s.init 32
@[simp] theorem startDecoding_status (s : State) : s.startDecoding.status = s.status := fillBits_status s.init 32
@[simp] theorem startDecoding_scratchSize (s : State) : s.startDecoding.scratchSize = s.scratchSize :=
  fillBits_scratchSize s.init 32

/-- Every entry of every working array is zero. -/
theorem startDecoding_arrays (s : State) (j : Nat) :
    s.startDecoding.ptLen.read j = 0 ∧ s.startDecoding.cLen.read j = 0 ∧ s.startDecoding.ptTable.read j = 0 ∧
      s.startDecoding.cTable.read j = 0 ∧ s.startDecoding.left.read j = 0 ∧ s.startDecoding.right.read j = 0 := by
  simp only [startDecoding_ptLen, startDecoding_cLen, startDecoding_ptTable, startDecoding_cTable, startDecoding_left,
    startDecoding_right, Tab.read_replicate, ite_self, and_self]

/-- A block header is the first element of the payload. -/
theorem startDecoding_slot (s : State) : s.startDecoding.slot = some .blksize :=
  slot_of_standsAt (startDecoding_run s) ⟨startDecoding_point s, startDecoding_fsm s⟩

/-- Settles O28: the state after the header is `startDecoding` of the parsed one (`exec_hdr_of_accepted`), and `init()` and the
fill leave what `startDecoding_readerAt`, `startDecoding_slot`, `startDecoding_arrays` and the register lemmas say. -/
theorem decompressInitialisesAndPrimes : Obligations.DecompressInitialisesAndPrimes := by
  unfold Obligations.DecompressInitialisesAndPrimes
  intro s comp orig hrun hprom hdst horig hlen
  exact ⟨_, exec_hdr_of_accepted hrun hprom hdst horig hlen, startDecoding_run _, startDecoding_fsm _, startDecoding_slot _,
    startDecoding_compSize _, startDecoding_origSize _, startDecoding_readerAt _, startDecoding_blockCount _,
    startDecoding_outPos _, startDecoding_badTable _, startDecoding_arrays _, startDecoding_src _, startDecoding_dst _,
    startDecoding_srcLen _, startDecoding_pBit _, startDecoding_status _, startDecoding_scratchSize _, startDecoding_grant _⟩

end Sys2Proof.Machine
end
